-- ==== Sys2Proof/Word.lean ====
section
/-! DEFINITION. The two word types of the block: bytes of buffer memory and 32-bit registers. -/

namespace Sys2Proof

/-- One byte of buffer memory or of a stream (20_memory.md R76). -/
abbrev Byte := BitVec 8

/-- One register of the register block: every register is 32 bits (10_state.md R32). -/
abbrev Word := BitVec 32

end Sys2Proof
end

