-- ==== Sys2Proof/Config.lean ====
section
/-! DEFINITION. What an implementation fixes: the parameters of 00_scope.md R7, the fixed constants
of the codecs, the platform's address map, and the free values (opaque, without a body). -/

namespace Sys2Proof

/-- The identity string of the block (00_scope.md R1, decision D1). -/
def Config.identity : String := "DCP-CORE-v7"

/-- `WINDOW_SIZE` (00_scope.md R7). -/
def Config.windowSize : Nat := 4095

/-- `LOOKAHEAD_BUFFER_SIZE` (00_scope.md R7). -/
def Config.lookahead : Nat := 15

/-- `MIN_MATCH_LENGTH` (00_scope.md R7). -/
def Config.minMatch : Nat := 3

/-- `RLE_MAX_RUN` (00_scope.md R7). -/
def Config.rleMaxRun : Nat := 128

/-- `RLE_MAX_LITERAL` (00_scope.md R7). -/
def Config.rleMaxLiteral : Nat := 128

/-- `LZW_SEED` (00_scope.md R7): codes 0 to 255 are the one-byte strings. -/
def Config.lzwSeed : Nat := 256

/-- A range of addresses `[base, base + size)`; with `size = 0` it is empty. -/
structure AddrRange where
  base : Nat
  size : Nat
deriving DecidableEq, Repr

/-- The parameters an implementation and its platform fix (00_scope.md R7: a value marked OPEN is an
argument of the model). They stand in the state as plain data, no step changes them, and a statement
about every state holds for every value of them (assumption log 1). -/
structure Params where
  /-- `ADDR_WIDTH`: the buffer memory has `2 ^ addrWidth` bytes. -/
  addrWidth : Nat
  /-- `MAX_INPUT_LEN`: the largest `SRC_LEN` and `META_LEN` a command accepts. -/
  maxInputLen : Nat
  /-- `LZW_DICT_CAPACITY`: the largest number of LZW dictionary entries. -/
  lzwDictCapacity : Nat
  /-- `REG_BASE`: the bus address of register offset 0x00. -/
  regBase : Nat
  /-- `REG_BYTE_LANES`: the bus byte lane of each of a register's four bytes. Nothing reads it: it is
  invisible to word-only access (20_memory.md R74). -/
  regByteLanes : List Nat
  /-- Addresses the platform's bus answers with an error (20_memory.md R78). -/
  unbacked : List AddrRange
  /-- Addresses at which the platform maps a device instead of memory (20_memory.md R77). -/
  devices : List AddrRange
deriving DecidableEq, Repr

/-- The legal parameters (00_scope.md R7 and R8). -/
def Params.legal (p : Params) : Bool :=
  decide (1 ≤ p.addrWidth) && decide (p.addrWidth ≤ 32)
    && decide (1 ≤ p.maxInputLen) && decide (p.maxInputLen ≤ 2 ^ 32 - 1)
    && decide (256 ≤ p.lzwDictCapacity) && decide (p.regBase % 64 = 0)

/-- The parameters that `State.reset` carries: the widest memory, the largest input length, the
default dictionary capacity `256 + MAX_INPUT_LEN` (00_scope.md R7), every address backed by ordinary
memory. DESIGN CHOICE (assumption log 1): the OPEN values are any legal ones. -/
def Params.default : Params where
  addrWidth := 32
  maxInputLen := 2 ^ 32 - 1
  lzwDictCapacity := 256 + (2 ^ 32 - 1)
  regBase := 0
  regByteLanes := [0, 1, 2, 3]
  unbacked := []
  devices := []

/-- A free 32-bit value, one for each draw number: reads of `OUT_LEN`, `RESULT0` and `RESULT1` while
BUSY (70_reset_and_hazards.md R350), parameter registers after a reset event (R340), results of a
disturbed command (20_memory.md R85). -/
opaque Config.freeWord : Nat → BitVec 32

/-- A free byte, one for each draw number and address: DST bytes after a failure
(44_container.md R286), after a reset during a command (70_reset_and_hazards.md R342), host reads of
DST while BUSY (20_memory.md R85). -/
opaque Config.freeByte : Nat → Nat → BitVec 8

/-- A free choice among the bytes an address may show, one for each draw number and address: which of a
command's writes a bus agent already observes (20_memory.md R81). -/
opaque Config.freePick : Nat → Nat → Nat

/-- A free choice among the seven final values of STATUS (success, or one of the six error codes), one
for each draw number: the end of a disturbed command (20_memory.md R85). -/
opaque Config.freeEnd : Nat → Fin 7

end Sys2Proof
end

