-- ==== Sys2Proof/Syntax.lean ====
section
/-! DEFINITION. The instructions: one constructor for each row of spec/opcode_table.json, the twelve
command words (30_encoding.md R103) and the six stream tokens (R110, R111, R113, R114, R115, R118). -/

namespace Sys2Proof

/-- An instruction of the block. A command takes every operand from the latched parameter registers
(30_encoding.md R101), so it has no operand of its own; a token carries the fields of its encoding. -/
inductive Instr where
  /-- HUF.C, Huffman compress (40_huffman.md R158). -/
  | hufC
  /-- HUF.D, Huffman decompress (40_huffman.md R163). -/
  | hufD
  /-- RLE.C, run-length compress (41_rle.md R195). -/
  | rleC
  /-- RLE.D, run-length decompress (41_rle.md R199). -/
  | rleD
  /-- LZ77.C, LZ77 compress (42_lz77.md R217). -/
  | lz77C
  /-- LZ77.D, LZ77 decompress (42_lz77.md R223). -/
  | lz77D
  /-- LZW.C, LZW compress (43_lzw.md R251). -/
  | lzwC
  /-- LZW.D, LZW decompress (43_lzw.md R256). -/
  | lzwD
  /-- BRO.C, the Brotli compress word (44_container.md R280). -/
  | broC
  /-- BRO.D, the Brotli decompress word (44_container.md R280). -/
  | broD
  /-- CONT.SER, container serialize (44_container.md R272). -/
  | contSer
  /-- CONT.PARSE, container parse (44_container.md R276). -/
  | contParse
  /-- RLE.RUN: `n` is the run length less one, `b` the repeated byte (30_encoding.md R110). -/
  | rleRun (n : BitVec 7) (b : Byte)
  /-- RLE.LIT: the 1 to 128 literal bytes; the control byte is 256 less their number (R111). -/
  | rleLit (lits : List Byte)
  /-- LZ77.CTRL: bit `j` of `k` is 1 when decision `j` of the group is a pointer (R113). -/
  | lz77Ctrl (k : Byte)
  /-- LZ77.LIT: one literal byte (R114). -/
  | lz77Lit (b : Byte)
  /-- LZ77.PTR: a distance of 12 bits and a length of 4 bits (R115). -/
  | lz77Ptr (d : BitVec 12) (l : BitVec 4)
  /-- LZW.CODE: one 16-bit code (R118). -/
  | lzwCode (c : BitVec 16)
deriving DecidableEq, Repr

end Sys2Proof
end

