-- ==== Sys2Proof/WellFormed.lean ====
section
/-! DEFINITION. Which instruction terms the encodings can express. The only bound that the field types
do not carry is the number of literal bytes of an RLE literal token. -/

namespace Sys2Proof

/-- The number of literal bytes an RLE.LIT control byte can announce, 1 to 128 (30_encoding.md R109). -/
def literalCountOk (lits : List Byte) : Bool :=
  decide (1 ≤ lits.length) && decide (lits.length ≤ Config.rleMaxLiteral)

/-- An instruction that has an encoding. -/
def Instr.wellFormed : Instr → Bool
  | .hufC => true
  | .hufD => true
  | .rleC => true
  | .rleD => true
  | .lz77C => true
  | .lz77D => true
  | .lzwC => true
  | .lzwD => true
  | .broC => true
  | .broD => true
  | .contSer => true
  | .contParse => true
  | .rleRun _ _ => true
  | .rleLit lits => literalCountOk lits
  | .lz77Ctrl _ => true
  | .lz77Lit _ => true
  | .lz77Ptr _ _ => true
  | .lzwCode _ => true

/-- The twelve command words, as opposed to the six stream tokens (30_encoding.md R100). -/
def Instr.isCommand : Instr → Bool
  | .hufC => true
  | .hufD => true
  | .rleC => true
  | .rleD => true
  | .lz77C => true
  | .lz77D => true
  | .lzwC => true
  | .lzwD => true
  | .broC => true
  | .broD => true
  | .contSer => true
  | .contParse => true
  | .rleRun _ _ => false
  | .rleLit _ => false
  | .lz77Ctrl _ => false
  | .lz77Lit _ => false
  | .lz77Ptr _ _ => false
  | .lzwCode _ => false

end Sys2Proof
end

