-- ==== Sys2Proof/Decode.lean ====
section
/-! DEFINITION. Decoding a command word and the tokens of the three streams, rejecting by name, and the
encoder, written from the encoding tables of 30_encoding.md. A token's format depends on the stream
and the position in it (R119), so the decoder takes the format beside the bytes. -/

namespace Sys2Proof

/-- `be16`: a big-endian 16-bit field, the first byte the more significant (00_scope.md R10,
20_memory.md R72). -/
def be16 (x y : Byte) : BitVec 16 := x ++ y

/-- `be32`: a big-endian 32-bit field (00_scope.md R10, 20_memory.md R72). -/
def be32 (w x y z : Byte) : BitVec 32 := be16 w x ++ be16 y z

/-- `BE16`: the two bytes of a 16-bit field, most significant first (00_scope.md R10). -/
def toBE16 (v : BitVec 16) : List Byte := [v.extractLsb' 8 8, v.extractLsb' 0 8]

/-- `BE32`: the four bytes of a 32-bit field, most significant first (00_scope.md R10). -/
def toBE32 (v : BitVec 32) : List Byte :=
  [v.extractLsb' 24 8, v.extractLsb' 16 8, v.extractLsb' 8 8, v.extractLsb' 0 8]

/-- What the next bytes of a stream are (30_encoding.md R119): an RLE token, one of the three LZ77
tokens as the group's control byte says, or an LZW code. -/
inductive Format where
  | rle
  | lz77Ctrl
  | lz77Lit
  | lz77Ptr
  | lzw
deriving DecidableEq, Repr

/-- Why bits are no instruction. -/
inductive Reject where
  /-- A word outside the table of twelve: RSV not 0, or ALG above 5 (30_encoding.md R104). -/
  | illegalCommand
  /-- No byte is left where a token should start. -/
  | endOfStream
  /-- An RLE run control byte without its byte (41_rle.md R197). -/
  | truncatedRun
  /-- An RLE literal with fewer bytes than announced (41_rle.md R198). -/
  | truncatedLiteral
  /-- An LZ77 pointer with one byte left (42_lz77.md R222). -/
  | truncatedPointer
  /-- An LZW code with one byte left (43_lzw.md R252). -/
  | truncatedCode
deriving DecidableEq, Repr

/-- `CMD[3:0]`, the algorithm (30_encoding.md R101). -/
def algField (w : Word) : BitVec 4 := w.extractLsb' 0 4

/-- `CMD[4]`, the direction: 0 compress, 1 decompress (30_encoding.md R101). -/
def dirField (w : Word) : BitVec 1 := w.extractLsb' 4 1

/-- `CMD[31:5]`, reserved, must be 0 (30_encoding.md R101). -/
def rsvField (w : Word) : BitVec 27 := w.extractLsb' 5 27

/-- Decode a command word by its fields (30_encoding.md R101, R102). -/
def decodeCommand (w : Word) : Except Reject Instr :=
  if rsvField w ≠ 0 then .error .illegalCommand
  else
    match (algField w).toNat, (dirField w).toNat with
    | 0, 0 => .ok .hufC
    | 0, 1 => .ok .hufD
    | 1, 0 => .ok .rleC
    | 1, 1 => .ok .rleD
    | 2, 0 => .ok .lz77C
    | 2, 1 => .ok .lz77D
    | 3, 0 => .ok .lzwC
    | 3, 1 => .ok .lzwD
    | 4, 0 => .ok .broC
    | 4, 1 => .ok .broD
    | 5, 0 => .ok .contSer
    | 5, 1 => .ok .contParse
    | _, _ => .error .illegalCommand

/-- The literal count an RLE control byte with bit 7 set announces: 256 less the byte
(30_encoding.md R109). -/
def literalCount (c : Byte) : Nat := 256 - c.toNat

/-- Decode an RLE token from its control byte and the bytes after it (30_encoding.md R109 to R111). -/
def decodeRle (c : Byte) (bs : List Byte) : Except Reject (Instr × List Byte) :=
  if c.getLsbD 7 then
    if bs.length < literalCount c then .error .truncatedLiteral
    else .ok (.rleLit (bs.take (literalCount c)), bs.drop (literalCount c))
  else
    match bs with
    | [] => .error .truncatedRun
    | b :: rest => .ok (.rleRun (c.extractLsb' 0 7) b, rest)

/-- Decode an LZ77 pointer: `distance = w[15:4]`, `length = w[3:0]` (30_encoding.md R116). -/
def decodePtr (b0 : Byte) (bs : List Byte) : Except Reject (Instr × List Byte) :=
  match bs with
  | [] => .error .truncatedPointer
  | b1 :: rest => .ok (.lz77Ptr ((be16 b0 b1).extractLsb' 4 12) ((be16 b0 b1).extractLsb' 0 4), rest)

/-- Decode an LZW code (30_encoding.md R118). -/
def decodeCode (b0 : Byte) (bs : List Byte) : Except Reject (Instr × List Byte) :=
  match bs with
  | [] => .error .truncatedCode
  | b1 :: rest => .ok (.lzwCode (be16 b0 b1), rest)

/-- Decode one token of the given format; the answer holds the bytes after it (30_encoding.md R119). -/
def decodeToken (f : Format) (bs : List Byte) : Except Reject (Instr × List Byte) :=
  match bs with
  | [] => .error .endOfStream
  | b :: rest =>
    match f with
    | .rle => decodeRle b rest
    | .lz77Ctrl => .ok (.lz77Ctrl b, rest)
    | .lz77Lit => .ok (.lz77Lit b, rest)
    | .lz77Ptr => decodePtr b rest
    | .lzw => decodeCode b rest

/-- What an instruction is encoded as: a command word for the `CMD` register, or the bytes of a token
of some format. -/
inductive Image where
  | command (w : Word)
  | token (f : Format) (bs : List Byte)
deriving DecidableEq, Repr

/-- The decoder: total on every word and on any bytes of any format. -/
def decode : Image → Except Reject (Instr × List Byte)
  | .command w => (decodeCommand w).map fun i => (i, [])
  | .token f bs => decodeToken f bs

/-! ### The encoder -/

/-- The control byte of a run, `0nnnnnnn` (30_encoding.md R110). -/
def runControl (n : BitVec 7) : Byte := n.setWidth 8

/-- The control byte of a literal of `k` bytes, `256 - k` (30_encoding.md R111). -/
def literalControl (k : Nat) : Byte := BitVec.ofNat 8 (256 - k)

/-- The pointer word `(distance << 4) | length` (30_encoding.md R116). -/
def pointerWord (d : BitVec 12) (l : BitVec 4) : BitVec 16 := d.setWidth 16 <<< 4 ||| l.setWidth 16

/-- The encoding of an instruction: the command words of 30_encoding.md R103 and the token bytes of
R110, R111, R113 to R116 and R118. -/
def encode : Instr → Image
  | .hufC => .command 0x00000000#32
  | .hufD => .command 0x00000010#32
  | .rleC => .command 0x00000001#32
  | .rleD => .command 0x00000011#32
  | .lz77C => .command 0x00000002#32
  | .lz77D => .command 0x00000012#32
  | .lzwC => .command 0x00000003#32
  | .lzwD => .command 0x00000013#32
  | .broC => .command 0x00000004#32
  | .broD => .command 0x00000014#32
  | .contSer => .command 0x00000005#32
  | .contParse => .command 0x00000015#32
  | .rleRun n b => .token .rle [runControl n, b]
  | .rleLit lits => .token .rle (literalControl lits.length :: lits)
  | .lz77Ctrl k => .token .lz77Ctrl [k]
  | .lz77Lit b => .token .lz77Lit [b]
  | .lz77Ptr d l => .token .lz77Ptr (toBE16 (pointerWord d l))
  | .lzwCode c => .token .lzw (toBE16 c)

/-- The command word of a command, for the rules that name it; 0 for a token. -/
def commandWord (i : Instr) : Word :=
  match encode i with
  | .command w => w
  | .token _ _ => 0

/-- An encoding's length in bits (30_encoding.md R100). -/
def Image.bits : Image → Nat
  | .command _ => 32
  | .token _ bs => 8 * bs.length

/-! ### Words of the opcode table -/

/-- How the hardware stores an instruction whose table row has `nbits` bits of value `w`: a command word
in `CMD`, a 16-bit token as two bytes, most significant first (20_memory.md R72), an 8-bit token as one
byte, with zero bytes for the operand bytes the table gives no bits. A token word alone does not say
which stream it stands in, so the first format that the row can belong to is taken, RLE before LZ77
(assumption log 17). -/
def tableImage (nbits w : Nat) : Option Image :=
  if nbits = 32 then some (.command (BitVec.ofNat 32 w))
  else if nbits = 16 then
    if (BitVec.ofNat 16 w).getLsbD 15 then some (.token .lz77Ptr (toBE16 (BitVec.ofNat 16 w)))
    else some (.token .rle (toBE16 (BitVec.ofNat 16 w)))
  else if nbits = 8 then
    if (BitVec.ofNat 8 w).getLsbD 7 then
      some (.token .rle (BitVec.ofNat 8 w :: List.replicate Config.rleMaxLiteral 0))
    else some (.token .lz77Ctrl [BitVec.ofNat 8 w])
  else none

/-- The instruction the decoder reads from a word of the opcode table. -/
def decodeTableWord (nbits w : Nat) : Option Instr :=
  match tableImage nbits w with
  | none => none
  | some im =>
    match decode im with
    | .ok (i, _) => some i
    | .error _ => none

end Sys2Proof
end

