-- ==== Sys2Proof/Machine/State.lean ====
section
/-! DEFINITION. The state of the block, as plain data: the register block (10_state.md R32), the buffer
memory (20_memory.md R70), the latched parameters (R45), the internal storage of every unit (R46 to
R54), the engine's phase, the pending bus traffic of the host, and the reasons a step can stop. -/

namespace Sys2Proof.Machine

/-- The six error kinds (60_exceptions.md R300). -/
inductive ErrorKind where
  | invalidInput
  | malformedContainer
  | unsupportedAlgorithm
  | dictionaryOverflow
  | malformedPayload
  | outputOverflow
deriving DecidableEq, Repr

/-- A Huffman tree node (10_state.md R47): a leaf, an internal node with its two children, or the
synthetic sibling of a one-symbol alphabet. Frequencies are 40 bits, insertion numbers 10 bits. -/
inductive HuffNode where
  | leaf (sym : Byte) (freq : BitVec 40) (seq : BitVec 10)
  | internal (freq : BitVec 40) (left right : HuffNode) (seq : BitVec 10)
  | synthetic
deriving DecidableEq, Repr

/-- The bit packer (10_state.md R49): the partial byte, its bit count 0 to 7, and the bytes packed so
far, whose length is the output cursor. -/
structure BitPacker where
  acc : Byte
  nbits : Nat
  out : List Byte
deriving DecidableEq, Repr

/-- The bit reader (10_state.md R50): the payload, the number of bits that are not padding, and the bit
cursor. -/
structure BitReader where
  payload : List Byte
  nbitsTotal : Nat
  bitpos : Nat
deriving DecidableEq, Repr

/-- The Huffman units' storage (10_state.md R46 to R50). -/
structure HufStore where
  /-- R46: the 256 frequency counters. -/
  freq : List Word
  /-- The alphabet: each byte value of non-zero count with its count, in ascending byte value. -/
  alphabet : List (Byte × Word)
  /-- R47: the priority queue of live nodes. -/
  queue : List HuffNode
  /-- R47: the next insertion number. -/
  nextSeq : BitVec 10
  /-- R47: the root of the finished tree. -/
  root : HuffNode
  /-- R48: the code of each byte value of the alphabet. -/
  code : List (Byte × List Bool)
  /-- R49. -/
  packer : BitPacker
  /-- R50. -/
  reader : BitReader
  /-- The node the tree walk stands at (40_huffman.md R162). -/
  node : HuffNode
  /-- The `padding` value read from the metadata (40_huffman.md R160). -/
  padding : Nat
deriving DecidableEq, Repr

/-- The RLE unit's storage beside the input cursor (10_state.md R53): the current run length and literal
length. -/
structure RleStore where
  runLen : Nat
  litLen : Nat
deriving DecidableEq, Repr

/-- The LZ77 unit's storage beside the input cursor (10_state.md R51): where the group's control byte
stands in the output, its bits, and the decision counter 0 to 8. -/
structure Lz77Store where
  ctrlPos : Nat
  ctrl : Byte
  decision : Nat
deriving DecidableEq, Repr

/-- The LZW unit's storage (10_state.md R52): entry `256 + k` is the `k`-th pair of prefix id and last
byte; the encoder's current string and emitted ids (43_lzw.md R246, R247); the decoder's previous string
and id (R253), and the number of codes taken. -/
structure LzwStore where
  entries : List (Nat × Byte)
  p : Option Nat
  ids : List Nat
  prev : List Byte
  prevId : Nat
  ncodes : Nat
deriving DecidableEq, Repr

/-- The block's internal storage (10_state.md R46 to R54). Every command initialises what it uses (R55). -/
structure Storage where
  /-- The bytes of SRC, read at the start of the command (44_container.md R283). -/
  input : List Byte
  /-- The bytes of META, read by CONT.SER only. -/
  metaIn : List Byte
  /-- The input cursor `ip` or `pos` (10_state.md R31, R51, R53). -/
  ip : Nat
  /-- The operation's output sequence `out` (00_scope.md R11). -/
  out : List Byte
  huf : HufStore
  rle : RleStore
  lz77 : Lz77Store
  lzw : LzwStore
  /-- R54: the declared metadata length read from a container header. -/
  contML : Word
deriving DecidableEq, Repr

/-- The empty storage. Its contents between commands are not specified (10_state.md R55). -/
def Storage.blank : Storage where
  input := []
  metaIn := []
  ip := 0
  out := []
  huf :=
    { freq := [], alphabet := [], queue := [], nextSeq := 0, root := .synthetic, code := []
      packer := ⟨0, 0, []⟩, reader := ⟨[], 0, 0⟩, node := .synthetic, padding := 0 }
  rle := ⟨0, 0⟩
  lz77 := ⟨0, 0, 0⟩
  lzw := ⟨[], none, [], [], 0, 0⟩
  contML := 0

/-- The parameter registers as a command latched them at the `CMD` write that started it
(10_state.md R45). -/
structure Latched where
  srcAddr : Word
  srcLen : Word
  dstAddr : Word
  dstCap : Word
  metaAddr : Word
  metaLen : Word
deriving DecidableEq, Repr

/-- Where the command engine stands: waiting for a `CMD` write, about to dispatch the word in `CMD`
(44_container.md R281), or in the middle of a command that it runs one internal step at a time
(70_reset_and_hazards.md R358 lets a command take any finite number of them). -/
inductive Phase where
  | idle
  | dispatch
  | running (op : Instr)
deriving DecidableEq, Repr

/-- One piece of bus traffic: what the host, another bus agent or the platform does next, or a turn it
leaves to the block's engine. -/
inductive BusOp where
  /-- A write of `v` to the register block at bus address `addr`, `bytes` bytes wide (`WR`,
  30_encoding.md R121). -/
  | regWrite (addr bytes : Nat) (v : Word)
  /-- A read of the register block (`RD`, R121). -/
  | regRead (addr bytes : Nat)
  /-- Read STATUS until BUSY is 0 (`WAIT`, R121). -/
  | wait
  /-- A bus agent stores a byte in buffer memory by its own means (20_memory.md R70). -/
  | memWrite (addr : Nat) (v : Byte)
  /-- A bus agent reads a byte of buffer memory by its own means. -/
  | memRead (addr : Nat)
  /-- The platform asserts reset (70_reset_and_hazards.md R340). -/
  | reset
  /-- No bus access: the engine runs, a dispatched command to its end. -/
  | engine
  /-- No bus access: the engine takes one internal step. -/
  | engineStep
deriving DecidableEq, Repr

/-- A byte that an ended command changed while no read of STATUS has shown the end yet (20_memory.md R81): its
address and what it held before, or `none` where the command left it any value (44_container.md R286). -/
structure Unseen where
  addr : Nat
  earlier : Option Byte
deriving DecidableEq, Repr

/-- Why a step stops with a fault. -/
inductive Fault where
  /-- Raised by a bus agent's own memory access (`memRead`, `memWrite`) at an address outside the
  `2 ^ ADDR_WIDTH` bytes of buffer memory, or at one the platform leaves unbacked: there is no byte
  there to access (20_memory.md R70, R78). Never raised by the block. Safe: the machine stops where the
  platform would answer with an error of its own. -/
  | noMemoryAtAddress (addr : Nat)
deriving DecidableEq, Repr

/-- Why a step is refused. -/
inductive Refusal where
  /-- An instruction whose arm of `exec` has no meaning. No arm of this model answers it. Safe. -/
  | notModelled (mnemonic : String)
  /-- A sub-word, wider or misaligned access to the register block, which 20_memory.md R75 says a model
  refuses. Raised by the bus traffic. Safe. -/
  | registerAccess (addr bytes : Nat)
  /-- A register access outside the 64 bytes of the register block: no register of this block
  (20_memory.md R70, R78). Raised by the bus traffic. Safe. -/
  | outsideRegisterBlock (addr : Nat)
  /-- Parameters outside 00_scope.md R7, or `LZW_DICT_CAPACITY < 256`, which R8 says a model rejects.
  Raised by `step`. Safe. -/
  | illegalParameters
deriving DecidableEq, Repr

/-- The state of the block and of what surrounds it. -/
structure State where
  /-- `CMD`, offset 0x00 (10_state.md R33). -/
  cmd : Word
  /-- `STATUS`, offset 0x04 (R34). -/
  status : Word
  /-- `SRC_ADDR`, offset 0x08 (R35). -/
  srcAddr : Word
  /-- `SRC_LEN`, offset 0x0C (R36). -/
  srcLen : Word
  /-- `DST_ADDR`, offset 0x10 (R37). -/
  dstAddr : Word
  /-- `DST_CAP`, offset 0x14 (R38). -/
  dstCap : Word
  /-- `META_ADDR`, offset 0x18 (R39). -/
  metaAddr : Word
  /-- `META_LEN`, offset 0x1C (R40). -/
  metaLen : Word
  /-- `OUT_LEN`, offset 0x20 (R41). -/
  outLen : Word
  /-- `RESULT0`, offset 0x24 (R42). -/
  result0 : Word
  /-- `RESULT1`, offset 0x28 (R43). -/
  result1 : Word
  /-- Buffer memory (20_memory.md R70): address and byte pairs in canonical form. -/
  mem : List Host.Cell
  /-- The running command's parameters (R45). -/
  latched : Latched
  phase : Phase
  /-- Internal storage (R46 to R54). -/
  store : Storage
  /-- The OPEN parameters and the platform's address map (00_scope.md R7). No step changes them. -/
  params : Params
  /-- The bus traffic still to come, the next first. -/
  bus : List BusOp
  /-- The word the last register read returned to the host. -/
  readData : Word
  /-- The byte the last memory read returned to a bus agent. -/
  memData : Byte
  /-- Whether a bus agent wrote a range of the running command or read its DST range, which makes its results
  unspecified (20_memory.md R85, 93_implementation_defined.md section 3). -/
  raced : Bool
  /-- The bytes changed by commands that have ended while no read of STATUS has shown BUSY = 0 since: until
  such a read a bus agent may see any subset of the command's writes (20_memory.md R81). -/
  unseen : List Unseen
  /-- The model's own counter of free values drawn. -/
  draws : Nat
deriving DecidableEq, Repr

/-- The block right after reset (70_reset_and_hazards.md R340): idle, `CMD`, `STATUS`, `OUT_LEN`,
`RESULT0` and `RESULT1` zero, no command started. The six parameter registers, whose reset values R340
leaves UNSPECIFIED, are zero here (DESIGN CHOICE, assumption log 2); memory lists nothing (log 3); no bus
traffic is pending (log 4). -/
def State.reset : State where
  cmd := 0
  status := 0
  srcAddr := 0
  srcLen := 0
  dstAddr := 0
  dstCap := 0
  metaAddr := 0
  metaLen := 0
  outLen := 0
  result0 := 0
  result1 := 0
  mem := []
  latched := ⟨0, 0, 0, 0, 0, 0⟩
  phase := .idle
  store := .blank
  params := .default
  bus := []
  readData := 0
  memData := 0
  raced := false
  unseen := []
  draws := 0

end Sys2Proof.Machine
end

