-- ==== Sys2Proof/Machine/Flags.lean ====
section
/-! DEFINITION. The STATUS register: its fields, its legal values (10_state.md R34) and the codes of the
error kinds (60_exceptions.md R300). The block has no other flags (R56). -/

namespace Sys2Proof.Machine

/-- The code of an error kind (60_exceptions.md R300). -/
def ErrorKind.code : ErrorKind → Nat
  | .invalidInput => 1
  | .malformedContainer => 2
  | .unsupportedAlgorithm => 3
  | .dictionaryOverflow => 4
  | .malformedPayload => 5
  | .outputOverflow => 6

/-- STATUS of the idle block after reset (10_state.md R34). -/
def statusIdle : Word := 0x00000000#32

/-- STATUS while a command runs (44_container.md R281). -/
def statusBusy : Word := 0x00000001#32

/-- STATUS after a successful command (44_container.md R284). -/
def statusDone : Word := 0x00000002#32

/-- STATUS after a failed command: `0x6 | (code << 4)` (44_container.md R286). -/
def statusError (e : ErrorKind) : Word := 0x00000006#32 ||| BitVec.ofNat 32 e.code <<< 4

/-- BUSY, bit 0 (10_state.md R34). -/
def busyBit (w : Word) : Bool := w.getLsbD 0

/-- DONE, bit 1. -/
def doneBit (w : Word) : Bool := w.getLsbD 1

/-- ERR, bit 2. -/
def errBit (w : Word) : Bool := w.getLsbD 2

/-- ERRCODE, bits 7:4. -/
def errCode (w : Word) : BitVec 4 := w.extractLsb' 4 4

/-- The legal values of STATUS (10_state.md R34). -/
def statusLegal (w : Word) : Bool :=
  w == statusIdle || w == statusBusy || w == statusDone
    || w == statusError .invalidInput || w == statusError .malformedContainer
    || w == statusError .unsupportedAlgorithm || w == statusError .dictionaryOverflow
    || w == statusError .malformedPayload || w == statusError .outputOverflow

/-- `STATUS.BUSY` of a state. -/
def State.busy (s : State) : Bool := busyBit s.status

/-- The final STATUS of a disturbed command, whose error code is unspecified (20_memory.md R85): a free
choice among success and the six codes. -/
def freeStatus (k : Nat) : Word :=
  match (Config.freeEnd k).val with
  | 0 => statusDone
  | 1 => statusError .invalidInput
  | 2 => statusError .malformedContainer
  | 3 => statusError .unsupportedAlgorithm
  | 4 => statusError .dictionaryOverflow
  | 5 => statusError .malformedPayload
  | _ => statusError .outputOverflow

end Sys2Proof.Machine
end

