-- ==== Sys2Proof/Machine/Operands.lean ====
section
/-! DEFINITION. The operands of a command: the latched ranges SRC, DST and META (20_memory.md R71), the
checks on them (44_container.md R282), and which of them a command uses. -/

namespace Sys2Proof.Machine

/-- Whether an address lies in a range. -/
def inRange (r : AddrRange) (a : Nat) : Bool := decide (r.base ≤ a) && decide (a < r.base + r.size)

/-- Two ranges overlap when both are non-empty and each starts before the other ends
(44_container.md R282). -/
def overlaps (r t : AddrRange) : Bool :=
  decide (0 < r.size) && decide (0 < t.size)
    && decide (r.base < t.base + t.size) && decide (t.base < r.base + r.size)

/-- The input range S (20_memory.md R71). -/
def Latched.src (l : Latched) : AddrRange := ⟨l.srcAddr.toNat, l.srcLen.toNat⟩

/-- The output range D (20_memory.md R71). -/
def Latched.dst (l : Latched) : AddrRange := ⟨l.dstAddr.toNat, l.dstCap.toNat⟩

/-- The metadata range M (20_memory.md R71). -/
def Latched.metadata (l : Latched) : AddrRange := ⟨l.metaAddr.toNat, l.metaLen.toNat⟩

/-- The parameter registers as they stand, to be latched (10_state.md R45). -/
def State.parameters (s : State) : Latched where
  srcAddr := s.srcAddr
  srcLen := s.srcLen
  dstAddr := s.dstAddr
  dstCap := s.dstCap
  metaAddr := s.metaAddr
  metaLen := s.metaLen

/-- CONT.SER alone reads META (10_state.md R39). -/
def usesMeta (op : Instr) : Bool := op == .contSer

/-- Every implemented command but CONT.PARSE has an output range (20_memory.md R71). -/
def usesDst (op : Instr) : Bool := !(op == .contParse)

/-- The commands that perform no memory access: they end with UnsupportedAlgorithm
(44_container.md R280). -/
def isBrotli (op : Instr) : Bool := op == .broC || op == .broD

/-- The checks of 44_container.md R282, in order; `true` marks a check that fails. All sums are exact. -/
def rangeViolations (op : Instr) (p : Params) (l : Latched) : List Bool :=
  [ decide (p.maxInputLen < l.srcLen.toNat),
    decide (2 ^ p.addrWidth < l.srcAddr.toNat + l.srcLen.toNat),
    usesMeta op && decide (p.maxInputLen < l.metaLen.toNat),
    usesMeta op && decide (2 ^ p.addrWidth < l.metaAddr.toNat + l.metaLen.toNat),
    usesDst op && decide (2 ^ p.addrWidth < l.dstAddr.toNat + l.dstCap.toNat),
    usesDst op && overlaps l.dst l.src,
    usesMeta op && overlaps l.dst l.metadata ]

/-- `Validate` succeeds: no check of 44_container.md R282 fails. -/
def validRanges (op : Instr) (p : Params) (l : Latched) : Bool :=
  (rangeViolations op p l).all (fun violated => !violated)

/-- The ranges a command reads or writes once its checks have passed (20_memory.md R71). -/
def rangesUsed (op : Instr) (l : Latched) : List AddrRange :=
  l.src :: ((if usesMeta op then [l.metadata] else []) ++ (if usesDst op then [l.dst] else []))

/-- An address of buffer memory that the bus answers (20_memory.md R70, R78). -/
def backed (p : Params) (a : Nat) : Bool := !(p.unbacked.any fun r => inRange r a)

/-- A device is mapped into a range the command uses (20_memory.md R77). -/
def deviceInRanges (op : Instr) (p : Params) (l : Latched) : Bool :=
  (rangesUsed op l).any fun r => p.devices.any fun d => overlaps d r

/-- The input bytes of a command (44_container.md R283). -/
structure Inputs where
  metaBytes : List Byte
  srcBytes : List Byte
deriving DecidableEq, Repr

end Sys2Proof.Machine
end

