-- ==== Sys2Proof/Machine/Ops.lean ====
section
/-! DEFINITION. The shared operations: byte memory (20_memory.md), the register block (10_state.md), how
a command starts (44_container.md R281), succeeds (R284), fails (R286) or ends disturbed (20_memory.md
R85), what a reset does (70_reset_and_hazards.md R340 to R342), and how a codec unit is run. -/

namespace Sys2Proof.Machine

/-! ### Buffer memory -/

/-- Buffer memory: address and byte pairs, addresses strictly rising, no byte equal to
`Memory.unlisted`. -/
abbrev Memory := List Host.Cell

/-- What an address that memory does not list reads as. DESIGN CHOICE (assumption log 3): the spec leaves
power-on contents to the platform (70_reset_and_hazards.md R341). -/
def Memory.unlisted : Byte := 0

/-- Read one byte (20_memory.md R76). -/
def Memory.read : Memory → Nat → Byte
  | [], _ => Memory.unlisted
  | (k, v) :: m, a => if k = a then v else Memory.read m a

/-- A list of at most one cell: none where the byte is what an unlisted address reads as. -/
def Memory.cell (a : Nat) (b : Byte) : Memory := if b = Memory.unlisted then [] else [(a, b)]

/-- Write one byte (20_memory.md R76), keeping the canonical form. -/
def Memory.write : Memory → Nat → Byte → Memory
  | [], a, b => Memory.cell a b
  | (k, v) :: m, a, b =>
    if a < k then Memory.cell a b ++ (k, v) :: m
    else if a = k then Memory.cell a b ++ m
    else (k, v) :: Memory.write m a b

/-- The canonical form. -/
def Memory.wf : Memory → Bool
  | [] => true
  | (k, v) :: m => !(v == Memory.unlisted) && m.all (fun c => decide (k < c.1)) && Memory.wf m

/-- Every listed address is below `n`. -/
def Memory.below (m : Memory) (n : Nat) : Bool := m.all fun c => decide (c.1 < n)

/-- The bytes `[a, a + n)` replaced, in one pass, by what `f` says of each address. -/
def Memory.fill (m : Memory) (a n : Nat) (f : Nat → Byte) : Memory :=
  m.filter (fun c => decide (c.1 < a)) ++ (List.range' a n).flatMap (fun x => Memory.cell x (f x))
    ++ m.filter (fun c => decide (a + n ≤ c.1))

/-- `MemRead(a, n)`: `n` one-byte reads in rising order (20_memory.md R76); `none` when the bus answers
one of them with an error (R78). -/
def readBytes (p : Params) (m : Memory) : Nat → Nat → Option (List Byte)
  | _, 0 => some []
  | a, n + 1 =>
    if backed p a then (readBytes p m (a + 1) n).map (fun bs => m.read a :: bs) else none

/-- `WriteBack`: one-byte writes in rising order (44_container.md R284); `none` when the bus answers one
of them with an error. -/
def writeBytes (p : Params) (m : Memory) : Nat → List Byte → Option Memory
  | _, [] => some m
  | a, b :: bs => if backed p a then writeBytes p (m.write a b) (a + 1) bs else none

/-- Every backed byte of a range takes a free value, drawn under number `k`. -/
def freeRange (p : Params) (k : Nat) (r : AddrRange) (m : Memory) : Memory :=
  m.fill r.base r.size (fun x => if backed p x then Config.freeByte k x else m.read x)

/-! ### Ending a command -/

/-- The bytes of a range, each of which may show any value until the end of a command is seen. -/
def unsettled (r : AddrRange) : List Unseen := (List.range' r.base r.size).map fun a => ⟨a, none⟩

/-- The `n` bytes from `a` on that a command overwrites, with what they held: until the end of the command
is seen, each may show its earlier value (20_memory.md R81). -/
def overwritten (m : Memory) (a n : Nat) : List Unseen :=
  (List.range' a n).map fun x => ⟨x, some (Memory.read m x)⟩

/-- The DST range of the running command takes free values (44_container.md R286). A bus agent has not seen
the command end yet (20_memory.md R81). -/
def freeDst (s : State) : State :=
  { s with
    mem := freeRange s.params s.draws s.latched.dst s.mem
    unseen := unsettled s.latched.dst ++ s.unseen
    draws := s.draws + 1 }

/-- `Fail(e)`, the one way an error is reported (44_container.md R286, 60_exceptions.md R310): the results
become 0, STATUS becomes `0x6 | (code << 4)`, the block returns to idle. No mode changes and no control
passes anywhere. Parameter registers, `CMD` and memory are kept. -/
def failCommand (e : ErrorKind) (s : State) : State :=
  { s with
    outLen := 0
    result0 := 0
    result1 := 0
    status := statusError e
    phase := .idle
    raced := false }

/-- What a command that may have accessed memory and did not succeed leaves in memory: every byte of its
DST range may hold any value (44_container.md R286, last row). CONT.PARSE has no DST range and writes
nothing (20_memory.md R71). -/
def spoiled (op : Instr) (s : State) : State := if usesDst op then freeDst s else s

/-- A failure after memory may have been accessed (44_container.md R286, last row). -/
def failAfterAccess (op : Instr) (e : ErrorKind) (s : State) : State := failCommand e (spoiled op s)

/-- `Complete(n, x, y)` (44_container.md R284). -/
def completeCommand (n x y : Nat) (s : State) : State :=
  { s with
    outLen := BitVec.ofNat 32 n
    result0 := BitVec.ofNat 32 x
    result1 := BitVec.ofNat 32 y
    status := statusDone
    phase := .idle
    raced := false }

/-- The end of a disturbed command: DST contents, `OUT_LEN`, `RESULT0`, `RESULT1` and the error code are
unspecified (20_memory.md R77, R85), so each is a free value. -/
def unspecifiedEnd (op : Instr) (s : State) : State :=
  { spoiled op s with
    outLen := Config.freeWord (spoiled op s).draws
    result0 := Config.freeWord ((spoiled op s).draws + 1)
    result1 := Config.freeWord ((spoiled op s).draws + 2)
    status := freeStatus ((spoiled op s).draws + 3)
    phase := .idle
    raced := false
    draws := (spoiled op s).draws + 4 }

/-- A command is disturbed when a bus agent wrote one of its ranges or read its DST range while it ran
(20_memory.md R85, 93_implementation_defined.md section 3, 60_exceptions.md R330) or a device is mapped into one of them (20_memory.md R77). -/
def disturbed (op : Instr) (s : State) : Bool := s.raced || deviceInRanges op s.params s.latched

/-- An operation's output sequence: bytes in order, or one byte repeated (40_huffman.md R161). -/
inductive OutSeq where
  | bytes (l : List Byte)
  | fill (b : Byte) (n : Nat)
deriving DecidableEq, Repr

/-- The output sequence as a list. -/
def OutSeq.toList : OutSeq → List Byte
  | .bytes l => l
  | .fill b n => List.replicate n b

/-- Its length. -/
def OutSeq.length : OutSeq → Nat
  | .bytes l => l.length
  | .fill _ n => n

/-- What a codec function returns on `Ok`: its output and the values of `RESULT0` and `RESULT1`
(44_container.md R281). -/
structure Output where
  out : OutSeq
  res0 : Nat
  res1 : Nat
deriving DecidableEq, Repr

/-- Memory after the write-back of the `n` output bytes of a successful command; until a read of STATUS shows
BUSY = 0, a bus agent may see any subset of those writes (20_memory.md R81). -/
def writtenBack (n : Nat) (m : Memory) (s : State) : State :=
  { s with
    mem := m
    unseen := overwritten s.mem s.latched.dstAddr.toNat n ++ s.unseen }

/-- How a command ends once its codec function has answered (44_container.md R281): a codec error first,
then OutputOverflow (R285), then a bus error on an output write, else success (R284). -/
def conclude (op : Instr) (r : Except ErrorKind Output) (s : State) : State :=
  if disturbed op s then unspecifiedEnd op s
  else
    match r with
    | .error e => failAfterAccess op e s
    | .ok o =>
      if s.latched.dstCap.toNat < o.out.length && usesDst op then failAfterAccess op .outputOverflow s
      else
        match writeBytes s.params s.mem s.latched.dstAddr.toNat o.out.toList with
        | none => failAfterAccess op .invalidInput s
        | some m => completeCommand o.out.length o.res0 o.res1 (writtenBack o.out.length m s)

/-! ### Running a codec unit -/

/-- The state with other internal storage. -/
def State.withStore (s : State) (st : Storage) : State := { s with store := st }

/-- One internal step of a codec unit: the input is used up, an error is raised, the unit works on its
storage, or it has read a token that is to be executed. -/
inductive Turn where
  | finished
  | failed (e : ErrorKind)
  | work (st : Storage)
  | token (i : Instr)

/-- A codec unit: how it initialises its storage from the inputs (10_state.md R55), its internal steps,
what its tokens do, its result, and a bound on the number of its steps. -/
structure CodecUnit where
  init : Params → Inputs → Storage → Except ErrorKind Storage
  turn : Params → Storage → Turn
  token : Params → Instr → Storage → Except ErrorKind Storage
  output : Storage → Output
  fuel : Storage → Nat

/-- Run a unit's steps to the end: the answer of the codec function, and the storage it leaves. -/
def drain (u : CodecUnit) (p : Params) : Nat → Storage → Except ErrorKind Unit × Storage
  | 0, st => (.ok (), st)
  | n + 1, st =>
    match u.turn p st with
    | .finished => (.ok (), st)
    | .failed e => (.error e, st)
    | .work st' => drain u p n st'
    | .token i =>
      match u.token p i st with
      | .ok st' => drain u p n st'
      | .error e => (.error e, st)

/-- The answer of a codec function whose steps have ended. -/
def CodecUnit.answer (u : CodecUnit) (d : Except ErrorKind Unit × Storage) : Except ErrorKind Output :=
  match d.1 with
  | .error e => .error e
  | .ok () => .ok (u.output d.2)

/-- The codec function of a unit, as the pure function of its inputs that 00_scope.md R12 asks for. -/
def CodecUnit.codec (u : CodecUnit) (p : Params) (inp : Inputs) : Except ErrorKind Output :=
  match u.init p inp .blank with
  | .error e => .error e
  | .ok st => u.answer (drain u p (u.fuel st) st)

/-- `ReadInputs` (44_container.md R283): META first, for CONT.SER only, then SRC. -/
def readInputs (op : Instr) (s : State) : Option Inputs :=
  match (if usesMeta op then readBytes s.params s.mem s.latched.metaAddr.toNat s.latched.metaLen.toNat
    else some []) with
  | none => none
  | some m =>
    (readBytes s.params s.mem s.latched.srcAddr.toNat s.latched.srcLen.toNat).map fun b => ⟨m, b⟩

/-- The part of 44_container.md R281 before the codec function works: `Validate`, `ReadInputs`, and the
unit's initialisation. `.error t` says that the command has ended in state `t`. -/
def prepare (op : Instr) (u : CodecUnit) (s : State) : Except State Storage :=
  if !validRanges op s.params s.latched then .error (failCommand .invalidInput s)
  else if disturbed op s then .error (unspecifiedEnd op s)
  else
    match readInputs op s with
    | none => .error (failAfterAccess op .invalidInput s)
    | some inp =>
      (u.init s.params inp s.store).mapError fun e => failAfterAccess op e s

/-- A dispatched command, run to its end (44_container.md R281). -/
def runCommand (op : Instr) (u : CodecUnit) (s : State) : State :=
  match prepare op u s with
  | .error t => t
  | .ok st =>
    conclude op (u.answer (drain u s.params (u.fuel st) st))
      (s.withStore (drain u s.params (u.fuel st) st).2)

/-- A dispatched command, begun: its internal steps follow one at a time. -/
def beginCommand (op : Instr) (u : CodecUnit) (s : State) : State :=
  match prepare op u s with
  | .error t => t
  | .ok st => { s.withStore st with phase := .running op }

/-- Execute one token of a running decoder: its effect on the decoder's storage, or the error it raises,
which ends the command. -/
def applyToken (op : Instr) (f : Params → Storage → Except ErrorKind Storage) (s : State) : State :=
  match f s.params s.store with
  | .ok st => s.withStore st
  | .error e => conclude op (.error e) s

/-! ### The register block -/

/-- The state with other bus traffic to come. -/
def State.withBus (s : State) (ops : List BusOp) : State := { s with bus := ops }

/-- The registers of the register block (10_state.md R32). -/
inductive Reg where
  | cmd
  | status
  | srcAddr
  | srcLen
  | dstAddr
  | dstCap
  | metaAddr
  | metaLen
  | outLen
  | result0
  | result1
  | reserved
deriving DecidableEq, Repr

/-- The register at an offset (10_state.md R32); 0x2C to 0x3F are reserved. -/
def regAt (off : Nat) : Reg :=
  if off = 0x00 then .cmd
  else if off = 0x04 then .status
  else if off = 0x08 then .srcAddr
  else if off = 0x0C then .srcLen
  else if off = 0x10 then .dstAddr
  else if off = 0x14 then .dstCap
  else if off = 0x18 then .metaAddr
  else if off = 0x1C then .metaLen
  else if off = 0x20 then .outLen
  else if off = 0x24 then .result0
  else if off = 0x28 then .result1
  else .reserved

/-- `OUT_LEN`, `RESULT0` and `RESULT1` read any value while BUSY (70_reset_and_hazards.md R350). -/
def readsFree (r : Reg) (s : State) : Bool := s.busy && (r == .outLen || r == .result0 || r == .result1)

/-- The value a register read returns (10_state.md R32, R44; 70_reset_and_hazards.md R350). -/
def readRegister (r : Reg) (s : State) : Word :=
  if readsFree r s then Config.freeWord s.draws
  else
    match r with
    | .cmd => s.cmd
    | .status => s.status
    | .srcAddr => s.srcAddr
    | .srcLen => s.srcLen
    | .dstAddr => s.dstAddr
    | .dstCap => s.dstCap
    | .metaAddr => s.metaAddr
    | .metaLen => s.metaLen
    | .outLen => s.outLen
    | .result0 => s.result0
    | .result1 => s.result1
    | .reserved => 0

/-- A read of STATUS that shows BUSY = 0 lets the host see every byte the ended commands wrote
(20_memory.md R81). -/
def unseenAfterRead (r : Reg) (s : State) : List Unseen :=
  if r == .status && !s.busy then [] else s.unseen

/-- A register read: no side effect on the block's registers or memory (20_memory.md R77). -/
def registerRead (r : Reg) (s : State) : State :=
  { s with
    readData := readRegister r s
    unseen := unseenAfterRead r s
    draws := if readsFree r s then s.draws + 1 else s.draws }

/-- An accepted write of `CMD` (44_container.md R281): the word is stored, the parameters are latched,
STATUS becomes BUSY and the engine is to dispatch. -/
def acceptCommand (w : Word) (s : State) : State :=
  { s with
    cmd := w
    latched := s.parameters
    status := statusBusy
    phase := .dispatch
    raced := false }

/-- A register write: ignored while BUSY (10_state.md R45, 70_reset_and_hazards.md R352); while idle a
parameter register stores the value, `CMD` starts a command, and read-only and reserved offsets ignore
it (10_state.md R34, R41 to R44). -/
def registerWrite (r : Reg) (v : Word) (s : State) : State :=
  if s.busy then s
  else
    match r with
    | .cmd => acceptCommand v s
    | .srcAddr => { s with srcAddr := v }
    | .srcLen => { s with srcLen := v }
    | .dstAddr => { s with dstAddr := v }
    | .dstCap => { s with dstCap := v }
    | .metaAddr => { s with metaAddr := v }
    | .metaLen => { s with metaLen := v }
    | .status => s
    | .outLen => s
    | .result0 => s
    | .result1 => s
    | .reserved => s

/-! ### Reset, and the ranges of the running command -/

/-- The command the engine is running or about to dispatch; none when idle or when the word in `CMD` is
illegal. -/
def runningOp (s : State) : Option Instr :=
  match s.phase with
  | .idle => none
  | .running op => some op
  | .dispatch =>
    match decodeCommand s.cmd with
    | .ok op => some op
    | .error _ => none

/-- The running command, when it is one that accesses memory: not a Brotli word, and its range checks
pass (44_container.md R282). -/
def accessingOp (s : State) : Option Instr :=
  match runningOp s with
  | none => none
  | some op => if isBrotli op || !validRanges op s.params s.latched then none else some op

/-- Whether an address lies in the DST range of the running command. -/
def inRunningDst (s : State) (a : Nat) : Bool :=
  match accessingOp s with
  | none => false
  | some op => usesDst op && inRange s.latched.dst a

/-- Whether an address lies in a range of the running command (20_memory.md R85). -/
def inRunningRanges (s : State) (a : Nat) : Bool :=
  match accessingOp s with
  | none => false
  | some op => (rangesUsed op s.latched).any fun r => inRange r a

/-- Whether the running command has a DST range it may be writing. -/
def writesDst (s : State) : Bool :=
  match accessingOp s with
  | none => false
  | some op => usesDst op

/-- What a reset leaves of memory: every byte of the DST range of a command that was running may hold any
value (70_reset_and_hazards.md R342). -/
def abandoned (s : State) : State := if writesDst s then freeDst s else s

/-- A reset (70_reset_and_hazards.md R340 to R342): every register takes its reset value, the parameter
registers, which are UNSPECIFIED, each a free value; a running command is abandoned and every byte of its
DST range may hold any value; the rest of memory is untouched. -/
def resetBlock (s : State) : State :=
  { abandoned s with
    cmd := 0
    status := statusIdle
    srcAddr := Config.freeWord (abandoned s).draws
    srcLen := Config.freeWord ((abandoned s).draws + 1)
    dstAddr := Config.freeWord ((abandoned s).draws + 2)
    dstCap := Config.freeWord ((abandoned s).draws + 3)
    metaAddr := Config.freeWord ((abandoned s).draws + 4)
    metaLen := Config.freeWord ((abandoned s).draws + 5)
    outLen := 0
    result0 := 0
    result1 := 0
    phase := .idle
    raced := false
    draws := (abandoned s).draws + 6 }

end Sys2Proof.Machine
end

