-- ==== Sys2Proof/Machine/Container.lean ====
section
/-! DEFINITION. The container family: the framer and the parser (44_container.md R270 to R277), the
commands CONT.SER and CONT.PARSE, and the two Brotli words (R280). -/

namespace Sys2Proof.Machine

/-- `SERIALIZE(meta, payload)` (44_container.md R270, 30_encoding.md R105). -/
def serialize (m payload : List Byte) : List Byte := toBE32 (BitVec.ofNat 32 m.length) ++ m ++ payload

/-- What `PARSE` returns: the declared metadata length with the two slices (44_container.md R273). -/
structure Parsed where
  ml : Word
  metadata : List Byte
  payload : List Byte
deriving DecidableEq, Repr

/-- `PARSE(c)` (44_container.md R273, R274); `4 + ML` is exact. -/
def parse : List Byte → Except ErrorKind Parsed
  | w :: x :: y :: z :: rest =>
    let ml := be32 w x y z
    if 4 + ml.toNat > 4 + rest.length then .error .malformedContainer
    else .ok ⟨ml, rest.take ml.toNat, rest.drop ml.toNat⟩
  | _ => .error .malformedContainer

/-- No unit but the RLE, LZ77 and LZW decoders reads tokens. -/
def noToken (_ : Params) (_ : Instr) (st : Storage) : Except ErrorKind Storage := .ok st

/-- Units that do all their work when they initialise have no further internal step. -/
def noTurn (_ : Params) (_ : Storage) : Turn := .finished

/-- CONT.SER's storage: the inputs and the framed output (44_container.md R272). -/
def contSerInit (_ : Params) (inp : Inputs) (st : Storage) : Except ErrorKind Storage :=
  .ok
    { st with
      input := inp.srcBytes
      metaIn := inp.metaBytes
      ip := inp.srcBytes.length
      out := serialize inp.metaBytes inp.srcBytes }

/-- CONT.SER's result: `RESULT0` is META_LEN, `RESULT1` is SRC_LEN (44_container.md R272). -/
def contSerOutput (st : Storage) : Output := ⟨.bytes st.out, st.metaIn.length, st.input.length⟩

/-- The framer as a unit. -/
def contSerUnit : CodecUnit where
  init := contSerInit
  turn := noTurn
  token := noToken
  output := contSerOutput
  fuel := fun _ => 1

/-- CONT.PARSE's storage: the declared length (10_state.md R54); nothing is copied (44_container.md
R275). -/
def contParseInit (_ : Params) (inp : Inputs) (st : Storage) : Except ErrorKind Storage :=
  match parse inp.srcBytes with
  | .error e => .error e
  | .ok r => .ok { st with input := inp.srcBytes, ip := 4, out := [], contML := r.ml }

/-- CONT.PARSE's result: no output, `RESULT0` is `ML`, `RESULT1` is `PL` (44_container.md R276). -/
def contParseOutput (st : Storage) : Output :=
  ⟨.bytes [], st.contML.toNat, st.input.length - st.ip - st.contML.toNat⟩

/-- The parser as a unit. -/
def contParseUnit : CodecUnit where
  init := contParseInit
  turn := noTurn
  token := noToken
  output := contParseOutput
  fuel := fun _ => 1

/-- CONT.SER (44_container.md R272). -/
def execContSer (s : State) : Host.Outcome State Fault Refusal := .next (runCommand .contSer contSerUnit s)

/-- CONT.PARSE (44_container.md R276). -/
def execContParse (s : State) : Host.Outcome State Fault Refusal :=
  .next (runCommand .contParse contParseUnit s)

/-- BRO.C (44_container.md R280): UnsupportedAlgorithm, whatever the registers and memory hold. -/
def execBroC (s : State) : Host.Outcome State Fault Refusal := .next (failCommand .unsupportedAlgorithm s)

/-- BRO.D (44_container.md R280): UnsupportedAlgorithm, whatever the registers and memory hold. -/
def execBroD (s : State) : Host.Outcome State Fault Refusal := .next (failCommand .unsupportedAlgorithm s)

end Sys2Proof.Machine
end

