-- ==== Sys2Proof/Machine/Huffman.lean ====
section
/-! DEFINITION. The Huffman family: bit packer (40_huffman.md R140 to R142), bit reader (R143 to R145),
tree builder (R146 to R152), code-table generator (R153 to R155), HUF.C (R156 to R158) and HUF.D
(R159 to R163). -/

namespace Sys2Proof.Machine

/-! ### Bit packer -/

/-- `BP_Init` (40_huffman.md R140). -/
def bpInit : BitPacker := ⟨0, 0, []⟩

/-- One bit of `BP_Write` (40_huffman.md R141): the first bit becomes the most significant. -/
def bpBit (p : BitPacker) (x : Bool) : BitPacker :=
  let acc := p.acc <<< 1 ||| BitVec.ofNat 8 x.toNat
  if p.nbits + 1 = 8 then ⟨0, 0, p.out ++ [acc]⟩ else ⟨acc, p.nbits + 1, p.out⟩

/-- `BP_Write(s)` (40_huffman.md R141). -/
def bpWrite (p : BitPacker) (bits : List Bool) : BitPacker := bits.foldl bpBit p

/-- The padding `BP_Flush` adds (40_huffman.md R142). -/
def bpPadding (p : BitPacker) : Nat := if p.nbits = 0 then 0 else 8 - p.nbits

/-- The bytes after `BP_Flush` (40_huffman.md R142). -/
def bpFlushed (p : BitPacker) : List Byte :=
  if p.nbits = 0 then p.out else p.out ++ [p.acc <<< (8 - p.nbits)]

/-! ### Bit reader -/

/-- `BR_Init(p, padding)` (40_huffman.md R143). -/
def brInit (payload : List Byte) (padding : Nat) : Except ErrorKind BitReader :=
  if padding > 8 * payload.length then .error .malformedPayload
  else .ok ⟨payload, 8 * payload.length - padding, 0⟩

/-- `BR_Next()` (40_huffman.md R144): `none` is `END`. -/
def brNext (r : BitReader) : Option (Bool × BitReader) :=
  if r.bitpos ≥ r.nbitsTotal then none
  else
    some ((r.payload.getD (r.bitpos / 8) 0).getLsbD (7 - r.bitpos % 8),
      { r with bitpos := r.bitpos + 1 })

/-! ### Tree builder -/

/-- `FreqTable(data)`: 256 counters (40_huffman.md R146, 10_state.md R46). -/
def freqTable (data : List Byte) : List Word :=
  (List.range 256).map fun v => BitVec.ofNat 32 (data.count (BitVec.ofNat 8 v))

/-- The alphabet: the byte values of non-zero count, ascending, with their counts (40_huffman.md R146). -/
def alphabetFrom : Nat → List Word → List (Byte × Word)
  | _, [] => []
  | v, f :: fs =>
    if f = 0 then alphabetFrom (v + 1) fs else (BitVec.ofNat 8 v, f) :: alphabetFrom (v + 1) fs

/-- A node's frequency; the synthetic sibling's is 0 (40_huffman.md R150). -/
def HuffNode.freq : HuffNode → BitVec 40
  | .leaf _ f _ => f
  | .internal f _ _ _ => f
  | .synthetic => 0

/-- A node's insertion number. -/
def HuffNode.seq : HuffNode → BitVec 10
  | .leaf _ _ q => q
  | .internal _ _ _ q => q
  | .synthetic => 0

/-- Queue order (40_huffman.md R148): lower frequency first, ties by insertion number. -/
def HuffNode.before (a b : HuffNode) : Bool :=
  decide (a.freq < b.freq) || (a.freq == b.freq && decide (a.seq < b.seq))

/-- The leaves, in list order, numbered from `k` (40_huffman.md R147). -/
def makeLeaves : BitVec 10 → List (Byte × Word) → List HuffNode
  | _, [] => []
  | k, (sym, f) :: rest => .leaf sym (f.setWidth 40) k :: makeLeaves (k + 1) rest

/-- `ExtractMin(Q)`: the first node in queue order and the rest (40_huffman.md R148). -/
def extractMin : List HuffNode → Option (HuffNode × List HuffNode)
  | [] => none
  | x :: xs =>
    match extractMin xs with
    | none => some (x, [])
    | some (m, rest) => if m.before x then some (m, x :: rest) else some (x, xs)

/-- One merge (40_huffman.md R149): the first node extracted becomes the left child, the second the
right; `none` when fewer than two nodes are left. -/
def mergeOnce (q : List HuffNode) (k : BitVec 10) : Option (List HuffNode) :=
  match extractMin q with
  | none => none
  | some (a, q1) =>
    match extractMin q1 with
    | none => none
    | some (b, q2) => some (.internal (a.freq + b.freq) a b k :: q2)

/-- The merge loop (40_huffman.md R149), at most `n` merges. -/
def mergeLoop : Nat → List HuffNode → BitVec 10 → List HuffNode × BitVec 10
  | 0, q, k => (q, k)
  | n + 1, q, k =>
    match mergeOnce q k with
    | none => (q, k)
    | some q' => mergeLoop n q' (k + 1)

/-- The one node left in the queue. -/
def rootOf (q : List HuffNode) : HuffNode := q.headD .synthetic

/-- `BuildTree(list)` (40_huffman.md R147 to R150); never called on an empty list (R151). -/
def buildTree : List (Byte × Word) → HuffNode
  | [(sym, f)] => .internal (f.setWidth 40) (.leaf sym (f.setWidth 40) 0) .synthetic 1
  | list => rootOf (mergeLoop list.length (makeLeaves 0 list) (BitVec.ofNat 10 list.length)).1

/-- The tree units' storage for an alphabet: the leaves are inserted, the merges run, the root kept. -/
def buildStore (h : HufStore) (list : List (Byte × Word)) : HufStore :=
  let q := mergeLoop list.length (makeLeaves 0 list) (BitVec.ofNat 10 list.length)
  { h with alphabet := list, queue := q.1, nextSeq := q.2, root := buildTree list }

/-! ### Code-table generator -/

/-- `Walk(node, path)` (40_huffman.md R153): left appends 0, right appends 1. -/
def walk : HuffNode → List Bool → List (Byte × List Bool)
  | .leaf sym _ _, path => [(sym, path)]
  | .internal _ l r _, path => walk l (path ++ [false]) ++ walk r (path ++ [true])
  | .synthetic, _ => []

/-- `CodeTable(root)` (40_huffman.md R153). -/
def codeTable (root : HuffNode) : List (Byte × List Bool) := walk root []

/-- The code of a byte value; every byte of the input has one (40_huffman.md R154). -/
def codeOf : List (Byte × List Bool) → Byte → List Bool
  | [], _ => []
  | (sym, c) :: rest, b => if sym = b then c else codeOf rest b

/-! ### Metadata -/

/-- One row of the metadata: the symbol and its frequency (40_huffman.md R157). -/
def metaRow (r : Byte × Word) : List Byte := r.1 :: toBE32 r.2

/-- `MetaEncode(padding, list)` (40_huffman.md R157, 30_encoding.md R106). -/
def metaEncode (padding : Nat) (list : List (Byte × Word)) : List Byte :=
  BitVec.ofNat 8 padding :: (toBE16 (BitVec.ofNat 16 list.length) ++ list.flatMap metaRow)

/-- The rows of a metadata blob, five bytes each. -/
def metaRows : List Byte → List (Byte × Word)
  | sym :: w :: x :: y :: z :: rest => (sym, be32 w x y z) :: metaRows rest
  | _ => []

/-- Every frequency is at least 1 and the symbols rise strictly (40_huffman.md R160). -/
def rowsLegal : List (Byte × Word) → Bool
  | [] => true
  | [(_, f)] => !(f == 0)
  | (sym, f) :: (sym', f') :: rest =>
    !(f == 0) && decide (sym < sym') && rowsLegal ((sym', f') :: rest)

/-- `MetaDecode(meta)` (40_huffman.md R160): the padding and the alphabet. -/
def metaDecode : List Byte → Except ErrorKind (Nat × List (Byte × Word))
  | pad :: k1 :: k0 :: rows =>
    let k := (be16 k1 k0).toNat
    if pad.toNat > 7 then .error .malformedContainer
    else if k = 0 || decide (k > 256) then .error .malformedContainer
    else if 3 + rows.length ≠ 3 + 5 * k then .error .malformedContainer
    else if rowsLegal (metaRows rows) then .ok (pad.toNat, metaRows rows)
    else .error .malformedContainer
  | _ => .error .malformedContainer

/-! ### HUF.C -/

/-- HUF.C's first stages (40_huffman.md R156): frequency table, tree, code table, `BP_Init`. On an empty
input nothing is built (R151). -/
def hufCInit (_ : Params) (inp : Inputs) (st : Storage) : Except ErrorKind Storage :=
  let freq := freqTable inp.srcBytes
  let list := alphabetFrom 0 freq
  let h := { st.huf with freq := freq, alphabet := [], code := [], packer := bpInit }
  .ok
    { st with
      input := inp.srcBytes
      ip := 0
      out := []
      huf :=
        if inp.srcBytes.isEmpty then h
        else
          let b := buildStore h list
          { b with code := codeTable b.root } }

/-- One input byte is packed (40_huffman.md R156). -/
def hufCTurn (_ : Params) (st : Storage) : Turn :=
  match st.input[st.ip]? with
  | none => .finished
  | some b =>
    .work
      { st with
        ip := st.ip + 1
        huf := { st.huf with packer := bpWrite st.huf.packer (codeOf st.huf.code b) } }

/-- HUF.C's result (40_huffman.md R156, R158): the framed metadata and payload, `padding` and `K`; no
bytes at all for an empty input (90_conflicts.md C2). -/
def hufCOutput (st : Storage) : Output :=
  if st.input.isEmpty then ⟨.bytes [], 0, 0⟩
  else
    ⟨.bytes (serialize (metaEncode (bpPadding st.huf.packer) st.huf.alphabet) (bpFlushed st.huf.packer)),
      bpPadding st.huf.packer, st.huf.alphabet.length⟩

/-- HUF.C as a unit. -/
def hufCUnit : CodecUnit where
  init := hufCInit
  turn := hufCTurn
  token := noToken
  output := hufCOutput
  fuel := fun st => st.input.length + 1

/-! ### HUF.D -/

/-- HUF.D's storage before any bit is read: the input, and no alphabet. -/
def hufDBlank (inp : Inputs) (st : Storage) : Storage :=
  { st with
    input := inp.srcBytes
    ip := 0
    out := []
    huf := { st.huf with alphabet := [], padding := 0 } }

/-- HUF.D's first stages (40_huffman.md R159): an empty input has no container; else the container and
the metadata are parsed; one symbol needs no tree (R161); else the tree is built as HUF.C builds it
(R152) and the bit reader starts. -/
def hufDInit (_ : Params) (inp : Inputs) (st : Storage) : Except ErrorKind Storage :=
  let b := hufDBlank inp st
  if inp.srcBytes.isEmpty then .ok b
  else
    match parse inp.srcBytes with
    | .error e => .error e
    | .ok c =>
      match metaDecode c.metadata with
      | .error e => .error e
      | .ok (padding, list) =>
        if list.length = 1 then
          .ok { b with contML := c.ml, huf := { b.huf with alphabet := list, padding := padding } }
        else
          match brInit c.payload padding with
          | .error e => .error e
          | .ok r =>
            .ok
              { b with
                contML := c.ml
                huf :=
                  { buildStore b.huf list with
                    padding := padding, reader := r, node := buildTree list } }

/-- The child the walk takes on a bit: 0 left, 1 right (40_huffman.md R162). -/
def HuffNode.child (n : HuffNode) (bit : Bool) : HuffNode :=
  match n with
  | .internal _ l r _ => if bit then r else l
  | .leaf _ _ _ => n
  | .synthetic => n

/-- One bit of `TreeWalk` (40_huffman.md R162): a leaf emits its byte and the walk returns to the root;
bits that end inside a code are malformed. -/
def hufDTurn (_ : Params) (st : Storage) : Turn :=
  if st.huf.alphabet.length ≤ 1 then .finished
  else
    match brNext st.huf.reader with
    | none => if st.huf.node = st.huf.root then .finished else .failed .malformedPayload
    | some (bit, r) =>
      match st.huf.node.child bit with
      | .leaf sym _ _ =>
        .work { st with out := st.out ++ [sym], huf := { st.huf with reader := r, node := st.huf.root } }
      | n => .work { st with huf := { st.huf with reader := r, node := n } }

/-- HUF.D's result (40_huffman.md R159, R161, R163). -/
def hufDOutput (st : Storage) : Output :=
  match st.huf.alphabet with
  | [(sym, f)] => ⟨.fill sym f.toNat, st.huf.padding, 1⟩
  | list => ⟨.bytes st.out, st.huf.padding, list.length⟩

/-- HUF.D as a unit. -/
def hufDUnit : CodecUnit where
  init := hufDInit
  turn := hufDTurn
  token := noToken
  output := hufDOutput
  fuel := fun st => st.huf.reader.nbitsTotal + 1

/-- HUF.C (40_huffman.md R158). -/
def execHufC (s : State) : Host.Outcome State Fault Refusal := .next (runCommand .hufC hufCUnit s)

/-- HUF.D (40_huffman.md R163). -/
def execHufD (s : State) : Host.Outcome State Fault Refusal := .next (runCommand .hufD hufDUnit s)

end Sys2Proof.Machine
end

