-- ==== Sys2Proof/Machine/Rle.lean ====
section
/-! DEFINITION. The RLE family: the encoder (41_rle.md R190 to R194), the two tokens (R197, R198), RLE.C
(R195) and RLE.D (R196, R199). -/

namespace Sys2Proof.Machine

/-- How many of the first `cap` bytes equal `b` without a break. -/
def sameRun (b : Byte) : Nat → List Byte → Nat
  | 0, _ => 0
  | _ + 1, [] => 0
  | cap + 1, x :: xs => if x = b then 1 + sameRun b cap xs else 0

/-- `RunLen(data, i)`, of the bytes from position `i` on (41_rle.md R190): 1 to 128. -/
def runLen : List Byte → Nat
  | [] => 0
  | b :: bs => 1 + sameRun b (Config.rleMaxRun - 1) bs

/-- `LitLen(data, i)`, of the bytes from position `i` on (41_rle.md R192): it stops before a pair of equal
bytes, at `cap` bytes, or at the end. -/
def litLen : Nat → List Byte → Nat
  | 0, _ => 0
  | _ + 1, [] => 0
  | _ + 1, [_] => 1
  | cap + 1, x :: y :: rest => if x = y then 0 else 1 + litLen cap (y :: rest)

/-- A stream unit starts with the input, its cursor at 0 and no output. -/
def startStream (inp : Inputs) (st : Storage) : Storage :=
  { st with input := inp.srcBytes, ip := 0, out := [] }

/-- RLE units start a stream with no run and no literal. -/
def rleInit (_ : Params) (inp : Inputs) (st : Storage) : Except ErrorKind Storage :=
  .ok { startStream inp st with rle := ⟨0, 0⟩ }

/-- The result of a unit that reports no results (10_state.md R42, R43). -/
def plainOutput (st : Storage) : Output := ⟨.bytes st.out, 0, 0⟩

/-- One token of `RLE_COMPRESS` (41_rle.md R194): a run of at least 2 (R191), or a literal (R193). -/
def rleCTurn (_ : Params) (st : Storage) : Turn :=
  match st.input.drop st.ip with
  | [] => .finished
  | b :: bs =>
    let r := runLen (b :: bs)
    if 2 ≤ r then
      .work
        { st with
          ip := st.ip + r
          out := st.out ++ [BitVec.ofNat 8 (r - 1), b]
          rle := { st.rle with runLen := r } }
    else
      let n := litLen Config.rleMaxLiteral (b :: bs)
      .work
        { st with
          ip := st.ip + n
          out := st.out ++ (BitVec.ofNat 8 (256 - n) :: (b :: bs).take n)
          rle := { st.rle with litLen := n } }

/-- The encoder reads no tokens. -/
def rleCToken (_ : Params) (_ : Instr) (st : Storage) : Except ErrorKind Storage := .ok st

/-- RLE.C as a unit: each token takes at least one input byte. -/
def rleCUnit : CodecUnit where
  init := rleInit
  turn := rleCTurn
  token := rleCToken
  output := plainOutput
  fuel := fun st => st.input.length + 1

/-- RLE.RUN (41_rle.md R197): `runLength = n + 1` copies of the byte. -/
def rleRunEffect (n : BitVec 7) (b : Byte) (_ : Params) (st : Storage) : Except ErrorKind Storage :=
  let r := n.toNat + 1
  .ok
    { st with
      ip := st.ip + 2
      out := st.out ++ List.replicate r b
      rle := { st.rle with runLen := r } }

/-- RLE.LIT (41_rle.md R198): the literal bytes verbatim. -/
def rleLitEffect (lits : List Byte) (_ : Params) (st : Storage) : Except ErrorKind Storage :=
  .ok
    { st with
      ip := st.ip + (1 + lits.length)
      out := st.out ++ lits
      rle := { st.rle with litLen := lits.length } }

/-- One turn of `RLE_DECOMPRESS` (41_rle.md R196): the next token; a truncated one is malformed (R197,
R198). -/
def rleDTurn (_ : Params) (st : Storage) : Turn :=
  match decodeToken .rle (st.input.drop st.ip) with
  | .ok (i, _) => .token i
  | .error .endOfStream => .finished
  | .error _ => .failed .malformedPayload

/-- The tokens of an RLE stream; no other instruction is one. -/
def rleToken (p : Params) (i : Instr) (st : Storage) : Except ErrorKind Storage :=
  match i with
  | .rleRun n b => rleRunEffect n b p st
  | .rleLit lits => rleLitEffect lits p st
  | _ => .ok st

/-- RLE.D as a unit: each token takes at least one input byte. -/
def rleDUnit : CodecUnit where
  init := rleInit
  turn := rleDTurn
  token := rleToken
  output := plainOutput
  fuel := fun st => st.input.length + 1

/-- RLE.C (41_rle.md R195). -/
def execRleC (s : State) : Host.Outcome State Fault Refusal := .next (runCommand .rleC rleCUnit s)

/-- RLE.D (41_rle.md R199). -/
def execRleD (s : State) : Host.Outcome State Fault Refusal := .next (runCommand .rleD rleDUnit s)

/-- RLE.RUN in a running RLE.D (41_rle.md R197). -/
def execRleRun (n : BitVec 7) (b : Byte) (s : State) : Host.Outcome State Fault Refusal :=
  .next (applyToken .rleD (rleRunEffect n b) s)

/-- RLE.LIT in a running RLE.D (41_rle.md R198). -/
def execRleLit (lits : List Byte) (s : State) : Host.Outcome State Fault Refusal :=
  .next (applyToken .rleD (rleLitEffect lits) s)

end Sys2Proof.Machine
end

