-- ==== Sys2Proof/Machine/Lz77.lean ====
section
/-! DEFINITION. The LZ77 family: the matcher (42_lz77.md R210 to R212), the encoder (R213 to R216), the
three tokens (R219 to R221), LZ77.C (R217) and LZ77.D (R218, R222, R223). -/

namespace Sys2Proof.Machine

/-- How many bytes two sequences share from their starts, at most `cap`. -/
def commonLen : Nat → List Byte → List Byte → Nat
  | 0, _, _ => 0
  | _ + 1, [], _ => 0
  | _ + 1, _ :: _, [] => 0
  | cap + 1, x :: xs, y :: ys => if x = y then 1 + commonLen cap xs ys else 0

/-- `MatchLen(data, s, pos)` (42_lz77.md R211): at most 15, to the end of the input; the match may run
past `pos`. -/
def matchLen (data : List Byte) (s pos : Nat) : Nat :=
  commonLen Config.lookahead (data.drop s) (data.drop pos)

/-- One candidate: it replaces the best so far only if it is strictly longer (42_lz77.md R212). -/
def betterMatch (data : List Byte) (pos : Nat) (best : Nat × Nat) (s : Nat) : Nat × Nat :=
  let l := matchLen data s pos
  if l > best.1 then (l, pos - s) else best

/-- The first position of the window, `max(0, pos - 4095)` (42_lz77.md R210). -/
def windowStart (pos : Nat) : Nat := pos - Config.windowSize

/-- `BestMatch(data, pos)` (42_lz77.md R212): length and distance, candidates in rising order. -/
def bestMatch (data : List Byte) (pos : Nat) : Nat × Nat :=
  (List.range' (windowStart pos) (pos - windowStart pos)).foldl (betterMatch data pos) (0, 0)

/-- The pointer word `(dist << 4) | best` (42_lz77.md R214). -/
def pointerBytes (best dist : Nat) : List Byte :=
  toBE16 (BitVec.ofNat 16 dist <<< 4 ||| BitVec.ofNat 16 best)

/-- A group being built: the position, the control bits, the number of decisions, the token bytes. -/
structure Group where
  pos : Nat
  ctrl : Byte
  decisions : Nat
  tokens : List Byte
deriving DecidableEq, Repr

/-- One decision (42_lz77.md R213, R215): a pointer when the best match is at least 3 long, else a
literal. -/
def decide1 (data : List Byte) (g : Group) : Group :=
  let m := bestMatch data g.pos
  if m.1 ≥ Config.minMatch then
    { pos := g.pos + m.1
      ctrl := g.ctrl ||| 1#8 <<< g.decisions
      decisions := g.decisions + 1
      tokens := g.tokens ++ pointerBytes m.1 m.2 }
  else
    { g with
      pos := g.pos + 1
      decisions := g.decisions + 1
      tokens := g.tokens ++ [data.getD g.pos 0] }

/-- Up to `n` decisions, while input remains (42_lz77.md R216). -/
def decideUpTo (data : List Byte) : Nat → Group → Group
  | 0, g => g
  | n + 1, g => if g.pos ≥ data.length then g else decideUpTo data n (decide1 data g)

/-- LZ77 units start a stream with no group open. -/
def lz77Init (_ : Params) (inp : Inputs) (st : Storage) : Except ErrorKind Storage :=
  .ok { startStream inp st with lz77 := ⟨0, 0, 8⟩ }

/-- One group of `LZ77_COMPRESS` (42_lz77.md R216): a placeholder control byte, up to 8 decisions, and
the control byte filled in where the placeholder stands. -/
def lz77CTurn (_ : Params) (st : Storage) : Turn :=
  if st.ip ≥ st.input.length then .finished
  else
    let ci := st.out.length
    let g := decideUpTo st.input 8 ⟨st.ip, 0, 0, []⟩
    .work
      { st with
        ip := g.pos
        out := (st.out ++ 0 :: g.tokens).set ci g.ctrl
        lz77 := ⟨ci, g.ctrl, g.decisions⟩ }

/-- The encoder reads no tokens. -/
def lz77CToken (_ : Params) (_ : Instr) (st : Storage) : Except ErrorKind Storage := .ok st

/-- LZ77.C as a unit: each group takes at least one input byte. -/
def lz77CUnit : CodecUnit where
  init := lz77Init
  turn := lz77CTurn
  token := lz77CToken
  output := plainOutput
  fuel := fun st => st.input.length + 1

/-- LZ77.CTRL (42_lz77.md R219): the control bits of the next eight decisions. -/
def lz77CtrlEffect (k : Byte) (_ : Params) (st : Storage) : Except ErrorKind Storage :=
  .ok { st with ip := st.ip + 1, lz77 := { st.lz77 with ctrlPos := st.ip, ctrl := k, decision := 0 } }

/-- LZ77.LIT (42_lz77.md R220). -/
def lz77LitEffect (b : Byte) (_ : Params) (st : Storage) : Except ErrorKind Storage :=
  .ok
    { st with
      ip := st.ip + 1
      out := st.out ++ [b]
      lz77 := { st.lz77 with decision := st.lz77.decision + 1 } }

/-- Copy `n` bytes, one at a time, each from `distance` behind the end of the output (42_lz77.md R221). -/
def copyBack (distance : Nat) : Nat → List Byte → List Byte
  | 0, out => out
  | n + 1, out => copyBack distance n (out ++ [out.getD (out.length - distance) 0])

/-- LZ77.PTR (42_lz77.md R221): a distance of 0 or beyond the output is malformed. -/
def lz77PtrEffect (d : BitVec 12) (l : BitVec 4) (_ : Params) (st : Storage) : Except ErrorKind Storage :=
  if d.toNat = 0 || decide (d.toNat > st.out.length) then .error .malformedPayload
  else
    .ok
      { st with
        ip := st.ip + 2
        out := copyBack d.toNat l.toNat st.out
        lz77 := { st.lz77 with decision := st.lz77.decision + 1 } }

/-- Which token comes next (30_encoding.md R119): a control byte once eight decisions are taken, else
what the decision's control bit says (30_encoding.md R113). -/
def lz77Format (st : Storage) : Format :=
  if st.lz77.decision ≥ 8 then .lz77Ctrl
  else if st.lz77.ctrl.getLsbD st.lz77.decision then .lz77Ptr
  else .lz77Lit

/-- One turn of `LZ77_DECOMPRESS` (42_lz77.md R218): the next token; where the bytes end, in a pointer
too, the stream ends without an error (R222). -/
def lz77DTurn (_ : Params) (st : Storage) : Turn :=
  match decodeToken (lz77Format st) (st.input.drop st.ip) with
  | .ok (i, _) => .token i
  | .error _ => .finished

/-- The tokens of an LZ77 stream; no other instruction is one. -/
def lz77Token (p : Params) (i : Instr) (st : Storage) : Except ErrorKind Storage :=
  match i with
  | .lz77Ctrl k => lz77CtrlEffect k p st
  | .lz77Lit b => lz77LitEffect b p st
  | .lz77Ptr d l => lz77PtrEffect d l p st
  | _ => .ok st

/-- LZ77.D as a unit: each token takes at least one input byte. -/
def lz77DUnit : CodecUnit where
  init := lz77Init
  turn := lz77DTurn
  token := lz77Token
  output := plainOutput
  fuel := fun st => st.input.length + 1

/-- LZ77.C (42_lz77.md R217). -/
def execLz77C (s : State) : Host.Outcome State Fault Refusal := .next (runCommand .lz77C lz77CUnit s)

/-- LZ77.D (42_lz77.md R223). -/
def execLz77D (s : State) : Host.Outcome State Fault Refusal := .next (runCommand .lz77D lz77DUnit s)

/-- LZ77.CTRL in a running LZ77.D (42_lz77.md R219). -/
def execLz77Ctrl (k : Byte) (s : State) : Host.Outcome State Fault Refusal :=
  .next (applyToken .lz77D (lz77CtrlEffect k) s)

/-- LZ77.LIT in a running LZ77.D (42_lz77.md R220). -/
def execLz77Lit (b : Byte) (s : State) : Host.Outcome State Fault Refusal :=
  .next (applyToken .lz77D (lz77LitEffect b) s)

/-- LZ77.PTR in a running LZ77.D (42_lz77.md R221). -/
def execLz77Ptr (d : BitVec 12) (l : BitVec 4) (s : State) : Host.Outcome State Fault Refusal :=
  .next (applyToken .lz77D (lz77PtrEffect d l) s)

end Sys2Proof.Machine
end

