-- ==== Sys2Proof/Machine/Lzw.lean ====
section
/-! DEFINITION. The LZW family: the dictionary engine (43_lzw.md R240 to R245), the encoder (R246 to
R250), the code token (R253 to R255), LZW.C (R251) and LZW.D (R252, R256). -/

namespace Sys2Proof.Machine

/-- `count`, the number of dictionary entries: the seed and those inserted (43_lzw.md R240). -/
def lzwCount (entries : List (Nat × Byte)) : Nat := Config.lzwSeed + entries.length

/-- Where a pair stands in the entries, counting from `k`. -/
def findEntry (e : Nat × Byte) : Nat → List (Nat × Byte) → Option Nat
  | _, [] => none
  | k, x :: xs => if x = e then some k else findEntry e (k + 1) xs

/-- `Lookup(pid, c)` (43_lzw.md R242). -/
def lzwLookup (entries : List (Nat × Byte)) (pid : Nat) (c : Byte) : Option Nat :=
  findEntry (pid, c) Config.lzwSeed entries

/-- `Insert(pid, c)` (43_lzw.md R243, R244): DictionaryOverflow when the store is full. -/
def lzwInsert (p : Params) (entries : List (Nat × Byte)) (pid : Nat) (c : Byte) :
    Except ErrorKind (List (Nat × Byte)) :=
  if lzwCount entries = p.lzwDictCapacity then .error .dictionaryOverflow
  else .ok (entries ++ [(pid, c)])

/-- `String(id)`, following at most `n` prefix ids (43_lzw.md R245). -/
def lzwChain (entries : List (Nat × Byte)) : Nat → Nat → List Byte
  | 0, _ => []
  | n + 1, id =>
    if id < Config.lzwSeed then [BitVec.ofNat 8 id]
    else
      match entries[id - Config.lzwSeed]? with
      | none => []
      | some (pid, c) => lzwChain entries n pid ++ [c]

/-- `String(id)` (43_lzw.md R245): a chain is at most one longer than the number of entries. -/
def lzwString (entries : List (Nat × Byte)) (id : Nat) : List Byte :=
  lzwChain entries (entries.length + 1) id

/-- `DictInit` and an empty `p` (43_lzw.md R241, R246). -/
def lzwFresh : LzwStore := ⟨[], none, [], [], 0, 0⟩

/-! ### LZW.C -/

/-- LZW.C starts a stream with a fresh dictionary. -/
def lzwCInit (_ : Params) (inp : Inputs) (st : Storage) : Except ErrorKind Storage :=
  .ok { startStream inp st with lzw := lzwFresh }

/-- `Step(c)` (43_lzw.md R247). -/
def lzwStep (p : Params) (c : Byte) (z : LzwStore) : Except ErrorKind LzwStore :=
  match z.p with
  | none => .ok { z with p := some c.toNat }
  | some pid =>
    match lzwLookup z.entries pid c with
    | some q => .ok { z with p := some q }
    | none =>
      match lzwInsert p z.entries pid c with
      | .error e => .error e
      | .ok entries => .ok { z with entries := entries, ids := z.ids ++ [pid], p := some c.toNat }

/-- One input byte of `LZW_COMPRESS` (43_lzw.md R250). -/
def lzwCTurn (p : Params) (st : Storage) : Turn :=
  match st.input[st.ip]? with
  | none => .finished
  | some c =>
    match lzwStep p c st.lzw with
    | .error e => .failed e
    | .ok z => .work { st with ip := st.ip + 1, lzw := z }

/-- The encoder reads no tokens. -/
def lzwCToken (_ : Params) (_ : Instr) (st : Storage) : Except ErrorKind Storage := .ok st

/-- The ids emitted, the final `p` among them (43_lzw.md R248). -/
def lzwIds (z : LzwStore) : List Nat :=
  match z.p with
  | none => z.ids
  | some pid => z.ids ++ [pid]

/-- One emitted code: the low 16 bits of the id (43_lzw.md R249). -/
def codeBytes (id : Nat) : List Byte := toBE16 (BitVec.ofNat 16 id)

/-- LZW.C's result (43_lzw.md R250, R251). -/
def lzwCOutput (st : Storage) : Output :=
  ⟨.bytes ((lzwIds st.lzw).flatMap codeBytes), st.lzw.entries.length, (lzwIds st.lzw).length⟩

/-- LZW.C as a unit: each step takes one input byte. -/
def lzwCUnit : CodecUnit where
  init := lzwCInit
  turn := lzwCTurn
  token := lzwCToken
  output := lzwCOutput
  fuel := fun st => st.input.length + 1

/-! ### LZW.D -/

/-- LZW.D starts a stream with a fresh dictionary, unless the length is odd (43_lzw.md R252). -/
def lzwDInit (_ : Params) (inp : Inputs) (st : Storage) : Except ErrorKind Storage :=
  if inp.srcBytes.length % 2 = 1 then .error .malformedPayload
  else .ok { startStream inp st with lzw := lzwFresh }

/-- The first code (43_lzw.md R253): it must name a seed entry. -/
def lzwFirst (x : Nat) (st : Storage) : Except ErrorKind Storage :=
  if x ≥ Config.lzwSeed then .error .malformedPayload
  else
    let prev := lzwString st.lzw.entries x
    .ok
      { st with
        ip := st.ip + 2
        out := prev
        lzw := { st.lzw with prev := prev, prevId := x, ncodes := 1 } }

/-- The string of a later code (43_lzw.md R254): known, the entry being inserted, or malformed. -/
def lzwCurrent (z : LzwStore) (x : Nat) : Except ErrorKind (List Byte) :=
  if x < lzwCount z.entries then .ok (lzwString z.entries x)
  else if x = lzwCount z.entries then .ok (z.prev ++ [z.prev.headD 0])
  else .error .malformedPayload

/-- A later code (43_lzw.md R254, R255). -/
def lzwNext (p : Params) (x : Nat) (st : Storage) : Except ErrorKind Storage :=
  match lzwCurrent st.lzw x with
  | .error e => .error e
  | .ok cur =>
    match lzwInsert p st.lzw.entries st.lzw.prevId (cur.headD 0) with
    | .error e => .error e
    | .ok entries =>
      .ok
        { st with
          ip := st.ip + 2
          out := st.out ++ cur
          lzw :=
            { st.lzw with
              entries := entries
              prev := cur
              prevId := x
              ncodes := st.lzw.ncodes + 1 } }

/-- LZW.CODE (43_lzw.md R253 for the first code of a stream, R254 for every later one). -/
def lzwCodeEffect (c : BitVec 16) (p : Params) (st : Storage) : Except ErrorKind Storage :=
  if st.lzw.ncodes = 0 then lzwFirst c.toNat st else lzwNext p c.toNat st

/-- One turn of `LZW_DECOMPRESS` (43_lzw.md R252): the next code. -/
def lzwDTurn (_ : Params) (st : Storage) : Turn :=
  match decodeToken .lzw (st.input.drop st.ip) with
  | .ok (i, _) => .token i
  | .error .endOfStream => .finished
  | .error _ => .failed .malformedPayload

/-- The token of an LZW stream; no other instruction is one. -/
def lzwToken (p : Params) (i : Instr) (st : Storage) : Except ErrorKind Storage :=
  match i with
  | .lzwCode c => lzwCodeEffect c p st
  | _ => .ok st

/-- LZW.D's result (43_lzw.md R252, R256). -/
def lzwDOutput (st : Storage) : Output := ⟨.bytes st.out, st.lzw.entries.length, st.lzw.ncodes⟩

/-- LZW.D as a unit: each code takes two input bytes. -/
def lzwDUnit : CodecUnit where
  init := lzwDInit
  turn := lzwDTurn
  token := lzwToken
  output := lzwDOutput
  fuel := fun st => st.input.length + 1

/-- LZW.C (43_lzw.md R251). -/
def execLzwC (s : State) : Host.Outcome State Fault Refusal := .next (runCommand .lzwC lzwCUnit s)

/-- LZW.D (43_lzw.md R256). -/
def execLzwD (s : State) : Host.Outcome State Fault Refusal := .next (runCommand .lzwD lzwDUnit s)

/-- LZW.CODE in a running LZW.D (43_lzw.md R254). -/
def execLzwCode (c : BitVec 16) (s : State) : Host.Outcome State Fault Refusal :=
  .next (applyToken .lzwD (lzwCodeEffect c) s)

end Sys2Proof.Machine
end

