-- ==== Sys2Proof/Machine/Dispatch.lean ====
section
/-! DEFINITION. One arm for each instruction: a dispatched command word (44_container.md R281), or a token
of the stream a decoder is reading. -/

namespace Sys2Proof.Machine

def exec (i : Instr) (s : State) : Host.Outcome State Fault Refusal :=
  match i with
  | .hufC => Sys2Proof.Machine.execHufC s
  | .hufD => Sys2Proof.Machine.execHufD s
  | .rleC => Sys2Proof.Machine.execRleC s
  | .rleD => Sys2Proof.Machine.execRleD s
  | .lz77C => Sys2Proof.Machine.execLz77C s
  | .lz77D => Sys2Proof.Machine.execLz77D s
  | .lzwC => Sys2Proof.Machine.execLzwC s
  | .lzwD => Sys2Proof.Machine.execLzwD s
  | .broC => Sys2Proof.Machine.execBroC s
  | .broD => Sys2Proof.Machine.execBroD s
  | .contSer => Sys2Proof.Machine.execContSer s
  | .contParse => Sys2Proof.Machine.execContParse s
  | .rleRun n b => Sys2Proof.Machine.execRleRun n b s
  | .rleLit lits => Sys2Proof.Machine.execRleLit lits s
  | .lz77Ctrl k => Sys2Proof.Machine.execLz77Ctrl k s
  | .lz77Lit b => Sys2Proof.Machine.execLz77Lit b s
  | .lz77Ptr d l => Sys2Proof.Machine.execLz77Ptr d l s
  | .lzwCode c => Sys2Proof.Machine.execLzwCode c s

end Sys2Proof.Machine
end

