-- ==== Sys2Proof/Machine/Engine.lean ====
section
/-! DEFINITION. The two agents (00_scope.md R14): the command engine's moves (44_container.md R281), and
what each piece of bus traffic does (20_memory.md R85, 70_reset_and_hazards.md). -/

namespace Sys2Proof.Machine

/-- The codec unit of each of the ten implemented commands (44_container.md R281). -/
def unitOf : Instr → Option CodecUnit
  | .hufC => some hufCUnit
  | .hufD => some hufDUnit
  | .rleC => some rleCUnit
  | .rleD => some rleDUnit
  | .lz77C => some lz77CUnit
  | .lz77D => some lz77DUnit
  | .lzwC => some lzwCUnit
  | .lzwD => some lzwDUnit
  | .contSer => some contSerUnit
  | .contParse => some contParseUnit
  | .broC => none
  | .broD => none
  | .rleRun _ _ => none
  | .rleLit _ => none
  | .lz77Ctrl _ => none
  | .lz77Lit _ => none
  | .lz77Ptr _ _ => none
  | .lzwCode _ => none

/-- One internal step of a running command: the unit's next turn; a token it has read is executed. -/
def continueCommand (op : Instr) (u : CodecUnit) (s : State) : Host.Outcome State Fault Refusal :=
  match u.turn s.params s.store with
  | .finished => .next (conclude op (.ok (u.output s.store)) s)
  | .failed e => .next (conclude op (.error e) s)
  | .work st => .next (s.withStore st)
  | .token i => exec i s

/-- Dispatch the word in `CMD` (44_container.md R281): an illegal word ends with UnsupportedAlgorithm
(30_encoding.md R104); a command runs to its end when `whole`, and is begun otherwise. -/
def dispatchCommand (whole : Bool) (s : State) : Host.Outcome State Fault Refusal :=
  match decodeCommand s.cmd with
  | .error _ => .next (failCommand .unsupportedAlgorithm s)
  | .ok i =>
    if whole then exec i s
    else
      match unitOf i with
      | none => exec i s
      | some u => .next (beginCommand i u s)

/-- A move of the command engine. When idle it does nothing (60_exceptions.md R332). -/
def engineMove (whole : Bool) (s : State) : Host.Outcome State Fault Refusal :=
  match s.phase with
  | .idle => .next s
  | .dispatch => dispatchCommand whole s
  | .running op =>
    match unitOf op with
    | none => .next (failCommand .unsupportedAlgorithm s)
    | some u => continueCommand op u s

/-- An access to the register block (20_memory.md R75, R78): outside its 64 bytes it is no access to this
block, and only an aligned word access inside it is in the model. -/
def registerAccess (addr bytes : Nat) (f : Reg → State → State) (s : State) :
    Host.Outcome State Fault Refusal :=
  if addr + bytes ≤ s.params.regBase || s.params.regBase + 64 ≤ addr then
    .refused (.outsideRegisterBlock addr)
  else if bytes = 4 && addr % 4 = 0 then .next (f (regAt (addr - s.params.regBase)) s)
  else .refused (.registerAccess addr bytes)

/-- `WAIT` (30_encoding.md R121): each poll returns STATUS; while it shows BUSY the engine moves and the
poll is repeated. -/
def waitMove (s : State) : Host.Outcome State Fault Refusal :=
  if s.busy then engineMove true ((registerRead .status s).withBus (.wait :: s.bus))
  else .next (registerRead .status s)

/-- An address at which buffer memory answers a bus agent (20_memory.md R70, R78). -/
def memoryAt (p : Params) (a : Nat) : Bool := decide (a < 2 ^ p.addrWidth) && backed p a

/-- An address at which the platform maps a device (20_memory.md R77). -/
def deviceAt (p : Params) (a : Nat) : Bool := p.devices.any fun d => inRange d a

/-- A bus agent stores a byte. While a command runs, a store to one of its ranges makes its results
unspecified (20_memory.md R85, 60_exceptions.md R330). After it ended, the store is later than its writes, so
the byte shows the stored value (assumption log 9). -/
def memoryWrite (a : Nat) (v : Byte) (s : State) : Host.Outcome State Fault Refusal :=
  if memoryAt s.params a then
    .next
      { s with
        mem := if deviceAt s.params a then s.mem else Memory.write s.mem a v
        raced := s.raced || inRunningRanges s a
        unseen := if deviceAt s.params a then s.unseen else s.unseen.filter fun u => u.addr != a }
  else .fault (.noMemoryAtAddress a)

/-- What an address held before the ended commands whose ends no read of STATUS has shown, the latest first;
`none` where one of them left it any value. -/
def earlierBytes (a : Nat) (s : State) : List (Option Byte) :=
  (s.unseen.filter fun u => u.addr == a).map fun u => u.earlier

/-- A bus agent's read returns any value inside the DST range of a running command (20_memory.md R85), at a
byte that a command left any value and whose end no read of STATUS has shown, and at a device. -/
def readsFreeByte (a : Nat) (s : State) : Bool :=
  inRunningDst s a || (earlierBytes a s).contains none || deviceAt s.params a

/-- The bytes an address may show: what memory holds, and what it held before each write that the bus agent
may not observe yet (20_memory.md R81). -/
def visibleBytes (a : Nat) (s : State) : List Byte :=
  Memory.read s.mem a :: (earlierBytes a s).filterMap id

/-- The byte a bus agent's read returns: free, or a free choice among the visible bytes. -/
def byteRead (a : Nat) (s : State) : Byte :=
  if readsFreeByte a s then Config.freeByte s.draws a
  else if (earlierBytes a s).isEmpty then Memory.read s.mem a
  else
    (visibleBytes a s).getD (Config.freePick s.draws a % (visibleBytes a s).length) (Memory.read s.mem a)

/-- A bus agent reads a byte. A read in the DST range of a running command makes the command's results
unspecified (20_memory.md R85, 93_implementation_defined.md section 3). -/
def memoryRead (a : Nat) (s : State) : Host.Outcome State Fault Refusal :=
  if memoryAt s.params a then
    .next
      { s with
        memData := byteRead a s
        draws := s.draws + 1
        raced := s.raced || inRunningDst s a }
  else .fault (.noMemoryAtAddress a)

/-- What one piece of bus traffic does. -/
def busMove (op : BusOp) (s : State) : Host.Outcome State Fault Refusal :=
  match op with
  | .regWrite addr bytes v => registerAccess addr bytes (fun r t => registerWrite r v t) s
  | .regRead addr bytes => registerAccess addr bytes registerRead s
  | .wait => waitMove s
  | .memWrite a v => memoryWrite a v s
  | .memRead a => memoryRead a s
  | .reset => .next (resetBlock s)
  | .engine => engineMove true s
  | .engineStep => engineMove false s

/-- One move of the machine: the next piece of bus traffic, or the engine where none is pending. Illegal
parameters are rejected (00_scope.md R8). -/
def move (s : State) : Host.Outcome State Fault Refusal :=
  if s.params.legal then
    match s.bus with
    | [] => engineMove true s
    | op :: rest => busMove op (s.withBus rest)
  else .refused .illegalParameters

end Sys2Proof.Machine
end

