-- ==== Sys2Proof/Machine/Program.lean ====
section
/-! DEFINITION. Host programs: the statements WR, RD and WAIT (30_encoding.md R121), the pseudo-instructions
of the commands (R122), and the bus traffic they stand for. -/

namespace Sys2Proof.Machine

/-- A statement of a host program (30_encoding.md R121). -/
inductive HostStatement where
  | wr (r : Reg) (v : Word)
  | rd (r : Reg)
  | wait
deriving DecidableEq, Repr

/-- The offset of a register (10_state.md R32); the first reserved offset for the reserved ones. -/
def Reg.offset : Reg → Nat
  | .cmd => 0x00
  | .status => 0x04
  | .srcAddr => 0x08
  | .srcLen => 0x0C
  | .dstAddr => 0x10
  | .dstCap => 0x14
  | .metaAddr => 0x18
  | .metaLen => 0x1C
  | .outLen => 0x20
  | .result0 => 0x24
  | .result1 => 0x28
  | .reserved => 0x2C

/-- The bus encoding of a statement (30_encoding.md R121). -/
def HostStatement.bus (base : Nat) : HostStatement → BusOp
  | .wr r v => .regWrite (base + r.offset) 4 v
  | .rd r => .regRead (base + r.offset) 4
  | .wait => .wait

/-- The bus traffic of a host program. -/
def assemble (base : Nat) (prog : List HostStatement) : List BusOp := prog.map (HostStatement.bus base)

/-- The writes of a `src=`, `dst=` or `meta=` operand (30_encoding.md R122). -/
def srcOperand (a n : Word) : List HostStatement := [.wr .srcAddr a, .wr .srcLen n]

def dstOperand (a n : Word) : List HostStatement := [.wr .dstAddr a, .wr .dstCap n]

def metaOperand (a n : Word) : List HostStatement := [.wr .metaAddr a, .wr .metaLen n]

/-- The pseudo-instruction of a command with operands `l` (30_encoding.md R122): CONT.PARSE has no `dst=`,
CONT.SER alone has `meta=`. -/
def pseudo (i : Instr) (l : Latched) : List HostStatement :=
  srcOperand l.srcAddr l.srcLen
    ++ (if usesDst i then dstOperand l.dstAddr l.dstCap else [])
    ++ (if usesMeta i then metaOperand l.metaAddr l.metaLen else [])
    ++ [.wr .cmd (commandWord i), .wait]

/-- The parameter registers as the pseudo-instruction of `i` leaves them (30_encoding.md R122). -/
def State.withOperands (s : State) (i : Instr) (l : Latched) : State :=
  { s with
    srcAddr := l.srcAddr
    srcLen := l.srcLen
    dstAddr := if usesDst i then l.dstAddr else s.dstAddr
    dstCap := if usesDst i then l.dstCap else s.dstCap
    metaAddr := if usesMeta i then l.metaAddr else s.metaAddr
    metaLen := if usesMeta i then l.metaLen else s.metaLen }

/-- Load a host program: the bus traffic of its statements is what comes next. -/
def State.withProgram (s : State) (prog : List HostStatement) : State :=
  s.withBus (assemble s.params.regBase prog)

end Sys2Proof.Machine
end

