-- ==== Sys2Proof/Machine/Step.lean ====
section
/-! DEFINITION. The step of the machine, and how the next instruction is placed for it. -/

namespace Sys2Proof.Machine

/-- One step: the next piece of bus traffic, or a move of the engine (assumption log 4). -/
def step (s : State) : Host.Outcome State Fault Refusal := move s

/-- The running decoder whose stream a token of a format stands in. -/
def streamOf : Format → Instr
  | .rle => .rleD
  | .lz77Ctrl => .lz77D
  | .lz77Lit => .lz77D
  | .lz77Ptr => .lz77D
  | .lzw => .lzwD

/-- The group state in which an LZ77 token of a format comes next. -/
def groupFor (f : Format) (z : Lz77Store) : Lz77Store :=
  match f with
  | .rle => z
  | .lz77Ctrl => { z with decision := 8 }
  | .lz77Lit => { z with ctrl := 0, decision := 0 }
  | .lz77Ptr => { z with ctrl := 1, decision := 0 }
  | .lzw => z

/-- A decoder is running, and the bytes of a token are what its stream holds next. -/
def placeToken (f : Format) (bs : List Byte) (s : State) : State :=
  { s with
    cmd := commandWord (streamOf f)
    status := statusBusy
    phase := .running (streamOf f)
    store := { s.store with input := bs, ip := 0, lz77 := groupFor f s.store.lz77 }
    bus := .engine :: s.bus }

/-- Place an instruction where the machine takes its next one (assumption log 5): a command word is
accepted in `CMD`, as a host write of it would be, and the next turn is the engine's; a token is put
before a running decoder. -/
def placeImage (im : Image) (s : State) : State :=
  match im with
  | .command w => (acceptCommand w s).withBus (.engine :: s.bus)
  | .token f bs => placeToken f bs s

/-- The state whose very next step runs the instruction of a word of the opcode table. -/
def State.withFetchWord (s : State) (nbits w : Nat) : State :=
  match tableImage nbits w with
  | none => s
  | some im => placeImage im s

end Sys2Proof.Machine
end

