-- ==== Sys2Proof/Safety.lean ====
section
/-! DEFINITION. The terms in which claims about runs are made: the invariant of the machine, what a
command that runs, succeeds or fails leaves, and what it leaves unchanged. -/

namespace Sys2Proof.Machine

/-- A running command has a codec unit, its word is in `CMD`, and its range checks have passed. -/
def phaseLegal (s : State) : Bool :=
  match s.phase with
  | .idle => true
  | .dispatch => true
  | .running op =>
    (unitOf op).isSome && commandWord op == s.cmd && validRanges op s.params s.latched

/-- What every step keeps: the parameters are legal, STATUS holds a legal value and shows BUSY exactly
while the engine is not idle (10_state.md R34), a command marked as disturbed is running, memory is in
canonical form and lists no address outside the buffer memory (20_memory.md R70). -/
def State.inv (s : State) : Bool :=
  s.params.legal && statusLegal s.status && s.busy == !decide (s.phase = .idle) && phaseLegal s
    && (!s.raced || s.busy) && Memory.wf s.mem && Memory.below s.mem (2 ^ s.params.addrWidth)

/-- A dispatched command may run its codec function: its range checks pass (44_container.md R282),
nothing disturbs it, and the bus answers every read of its inputs (R283). -/
def Ready (op : Instr) (s : State) (inp : Inputs) : Prop :=
  validRanges op s.params s.latched = true ∧ disturbed op s = false ∧ readInputs op s = some inp

/-- The bus answers the writes of `n` output bytes. -/
def OutputBacked (s : State) (n : Nat) : Prop :=
  ∀ k, k < n → backed s.params (s.latched.dstAddr.toNat + k) = true

/-- What no command changes, however it ends: `CMD`, the parameter registers, their latched copies, the
parameters of the block, and the bus traffic and its read data. -/
def SameHostSide (s t : State) : Prop :=
  t.cmd = s.cmd ∧ t.srcAddr = s.srcAddr ∧ t.srcLen = s.srcLen ∧ t.dstAddr = s.dstAddr
    ∧ t.dstCap = s.dstCap ∧ t.metaAddr = s.metaAddr ∧ t.metaLen = s.metaLen ∧ t.latched = s.latched
    ∧ t.params = s.params ∧ t.bus = s.bus ∧ t.readData = s.readData ∧ t.memData = s.memData

/-- Every byte outside a range reads as before. -/
def SameOutside (r : AddrRange) (s t : State) : Prop :=
  ∀ a, inRange r a = false → Memory.read t.mem a = Memory.read s.mem a

/-- Every byte of memory reads as before. -/
def SameMemory (s t : State) : Prop := ∀ a, Memory.read t.mem a = Memory.read s.mem a

/-- The block is idle after an error of kind `e` (44_container.md R286, 60_exceptions.md R310). -/
def FailedWith (e : ErrorKind) (s t : State) : Prop :=
  t.status = BitVec.ofNat 32 (6 + 16 * e.code) ∧ t.outLen = 0 ∧ t.result0 = 0 ∧ t.result1 = 0
    ∧ t.phase = .idle ∧ SameHostSide s t

/-- The block is idle after a success that wrote `out` at `DST_ADDR` (44_container.md R284). -/
def SucceededWith (out : List Byte) (x y : Nat) (s t : State) : Prop :=
  t.status = 0x00000002#32 ∧ t.outLen.toNat = out.length ∧ t.result0 = BitVec.ofNat 32 x
    ∧ t.result1 = BitVec.ofNat 32 y ∧ t.phase = .idle ∧ SameHostSide s t
    ∧ (∀ k, k < out.length → Memory.read t.mem (s.latched.dstAddr.toNat + k) = out.getD k 0)
    ∧ SameOutside ⟨s.latched.dstAddr.toNat, out.length⟩ s t

/-- The bytes a failed or disturbed command may have changed: its DST range; none for CONT.PARSE
(20_memory.md R71). -/
def writeRange (op : Instr) (s : State) : AddrRange :=
  if usesDst op then s.latched.dst else ⟨s.latched.dstAddr.toNat, 0⟩

/-- Two states that differ at most in internal storage. -/
def SameButStore (s t : State) : Prop := t = s.withStore t.store

/-- The ten commands that have a codec unit (60_exceptions.md R303). -/
def implemented : List Instr :=
  [.hufC, .hufD, .rleC, .rleD, .lz77C, .lz77D, .lzwC, .lzwD, .contSer, .contParse]

/-- The inputs of a command that reads SRC only. -/
def srcOnly (x : List Byte) : Inputs := ⟨[], x⟩

/-- The number of internal nodes of a tree (40_huffman.md R149). -/
def HuffNode.internals : HuffNode → Nat
  | .leaf _ _ _ => 0
  | .internal _ l r _ => 1 + l.internals + r.internals
  | .synthetic => 0

/-- All the bits a bit reader still returns, at most `n` of them. -/
def readBits : Nat → BitReader → List Bool
  | 0, _ => []
  | n + 1, r =>
    match brNext r with
    | none => []
    | some (b, r') => b :: readBits n r'

/-- The bits of a payload without its padding (40_huffman.md R143, R144). -/
def payloadBits (payload : List Byte) (padding : Nat) : List Bool :=
  readBits (8 * payload.length) ⟨payload, 8 * payload.length - padding, 0⟩

end Sys2Proof.Machine
end

