-- ==== Sys2Proof/Certificates/Slice0/Obligations.lean ====
section
/-! DEFINITION. The statements for the provers. Each docstring names the rule it rests on. A free value
(`Config.freeWord`, `Config.freeByte`, `Config.freePick`, `Config.freeEnd`) stands for any value: no
statement depends on what it is. Where a statement rests on a choice of the model, its docstring says so. -/

open Sys2Proof Sys2Proof.Machine

/-! ### Encodings -/

/-- 30_encoding.md R103: the twelve command words, and no other word is a command. -/
def Obligations.OnlyTwelveWordsAreCommands : Prop :=
  ∀ w : Word,
    (decodeCommand w = .ok .hufC ↔ w = 0x00000000#32) ∧ (decodeCommand w = .ok .hufD ↔ w = 0x00000010#32)
    ∧ (decodeCommand w = .ok .rleC ↔ w = 0x00000001#32) ∧ (decodeCommand w = .ok .rleD ↔ w = 0x00000011#32)
    ∧ (decodeCommand w = .ok .lz77C ↔ w = 0x00000002#32) ∧ (decodeCommand w = .ok .lz77D ↔ w = 0x00000012#32)
    ∧ (decodeCommand w = .ok .lzwC ↔ w = 0x00000003#32) ∧ (decodeCommand w = .ok .lzwD ↔ w = 0x00000013#32)
    ∧ (decodeCommand w = .ok .broC ↔ w = 0x00000004#32) ∧ (decodeCommand w = .ok .broD ↔ w = 0x00000014#32)
    ∧ (decodeCommand w = .ok .contSer ↔ w = 0x00000005#32)
    ∧ (decodeCommand w = .ok .contParse ↔ w = 0x00000015#32)
    ∧ (∀ i, decodeCommand w = .ok i → i.isCommand = true)

/-- 30_encoding.md sections 1, 4, 5 and 6: decoding the encoding of a well-formed instruction gives it
back, and a token's decoder stops where the token ends, whatever follows it in the stream. -/
def Obligations.EncodedInstructionDecodesBack : Prop :=
  ∀ i : Instr, i.wellFormed = true →
    match encode i with
    | .command w => decodeCommand w = .ok i
    | .token f bs => ∀ rest, decodeToken f (bs ++ rest) = .ok (i, rest)

/-- 30_encoding.md sections 4 to 6: a decoded token is well formed, and the bytes it was read from are
its encoding. -/
def Obligations.DecodedTokenIsItsEncoding : Prop :=
  ∀ (f : Format) (bs rest : List Byte) (i : Instr), decodeToken f bs = .ok (i, rest) →
    i.wellFormed = true ∧ ∃ pre, encode i = .token f pre ∧ bs = pre ++ rest

/-- 30_encoding.md R103, R110, R111, R113 to R116, R118: some words written out from the encodings. The two
clauses about a 16-bit and an 8-bit word of the opcode table rest on the model's choice of the stream such a
word stands in (assumption log 17). -/
def Obligations.SampleWordsDecode : Prop :=
  decodeTableWord 32 0x00000013 = some .lzwD ∧ decodeTableWord 32 0x00000015 = some .contParse
  ∧ decodeTableWord 32 0x00000020 = none ∧ decodeTableWord 32 0x00000006 = none
  ∧ decodeTableWord 16 0x0341 = some (.rleRun 3 0x41) ∧ decodeTableWord 8 0xFF = some (.rleLit [0x00])
  ∧ decodeToken .rle [0xFE, 0x41, 0x42, 0x01] = .ok (.rleLit [0x41, 0x42], [0x01])
  ∧ decodeToken .lz77Ctrl [0x08, 0x41] = .ok (.lz77Ctrl 0x08, [0x41])
  ∧ decodeToken .lz77Lit [0x41] = .ok (.lz77Lit 0x41, [])
  ∧ decodeToken .lz77Ptr [0x00, 0x39] = .ok (.lz77Ptr 3 9, [])
  ∧ decodeToken .lz77Ptr [0xFF, 0xF3] = .ok (.lz77Ptr 4095 3, [])
  ∧ decodeToken .lzw [0x01, 0x02] = .ok (.lzwCode 0x0102, [])

/-! ### The step, the engine and the register block -/

/-- 44_container.md R281: a step of the engine on a dispatched command word runs the instruction the word
decodes to, with no bus traffic pending and where the traffic leaves the turn to the engine. -/
def Obligations.StepRunsDispatchedCommand : Prop :=
  ∀ (s : State) (i : Instr), s.params.legal = true → s.phase = .dispatch → decodeCommand s.cmd = .ok i →
    (s.bus = [] → step s = exec i s)
    ∧ (∀ rest, s.bus = .engine :: rest → step s = exec i (s.withBus rest))

/-- 30_encoding.md R119, 41_rle.md R196, 42_lz77.md R218, 43_lzw.md R252: a step of a running decoder whose
next bytes decode to a token executes that token. -/
def Obligations.StepRunsDecodedToken : Prop :=
  ∀ (s : State) (i : Instr) (more : List Byte), s.params.legal = true →
    ((s.phase = .running .rleD ∧ decodeToken .rle (s.store.input.drop s.store.ip) = .ok (i, more))
      ∨ (s.phase = .running .lz77D
          ∧ decodeToken (lz77Format s.store) (s.store.input.drop s.store.ip) = .ok (i, more))
      ∨ (s.phase = .running .lzwD ∧ decodeToken .lzw (s.store.input.drop s.store.ip) = .ok (i, more))) →
    (s.bus = [] → step s = exec i s)
    ∧ (∀ rest, s.bus = .engine :: rest → step s = exec i (s.withBus rest))
    ∧ (∀ rest, s.bus = .engineStep :: rest → step s = exec i (s.withBus rest))

/-- The invariant `State.inv` holds right after reset (the parameter registers' zeros and the parameters
are the model's choice, assumption log 1 and 2). -/
def Obligations.ResetMeetsInvariant : Prop := State.reset.inv = true

/-- Every step keeps the invariant: legal parameters, a legal STATUS that shows BUSY exactly while a
command runs (10_state.md R34), memory in the model's canonical form (assumption log 3) inside the address
space (20_memory.md R70), and a running command whose range checks have passed (44_container.md R282). -/
def Obligations.EveryStepKeepsInvariant : Prop :=
  ∀ s t : State, s.inv = true → step s = .next t → t.inv = true

/-- 10_state.md section 2, STATUS: no step makes STATUS read anything but the legal values, and BUSY = 1
implies DONE = 0, ERR = 0 and ERRCODE = 0. -/
def Obligations.StatusStaysLegal : Prop :=
  ∀ s t : State, statusLegal s.status = true → step s = .next t →
    (t.status = 0x00000000#32 ∨ t.status = 0x00000001#32 ∨ t.status = 0x00000002#32
      ∨ ∃ code : Nat, 1 ≤ code ∧ code ≤ 6 ∧ t.status = 0x00000006#32 ||| BitVec.ofNat 32 code <<< 4)
    ∧ (busyBit t.status = true →
        doneBit t.status = false ∧ errBit t.status = false ∧ errCode t.status = 0)

/-- 70_reset_and_hazards.md R340: a reset. The parameter registers are UNSPECIFIED: each a free value. -/
def Obligations.ResetSetsEveryRegister : Prop :=
  ∀ (s : State) (rest : List BusOp), s.params.legal = true → s.bus = .reset :: rest →
    ∃ t k, step s = .next t ∧ t.cmd = 0 ∧ t.status = 0 ∧ t.outLen = 0 ∧ t.result0 = 0 ∧ t.result1 = 0
      ∧ t.srcAddr = Config.freeWord k ∧ t.srcLen = Config.freeWord (k + 1)
      ∧ t.dstAddr = Config.freeWord (k + 2) ∧ t.dstCap = Config.freeWord (k + 3)
      ∧ t.metaAddr = Config.freeWord (k + 4) ∧ t.metaLen = Config.freeWord (k + 5)
      ∧ t.phase = .idle ∧ readRegister .reserved t = 0 ∧ t.bus = rest

/-- 70_reset_and_hazards.md R342, with R341: a reset abandons the running command. The registers take their
reset values (R340: the parameter registers are UNSPECIFIED, each a free value), every backed byte of the
abandoned DST range takes a free value, and every other byte of memory, SRC and META among them, stays. That
a Brotli word, an illegal word and a command that fails its range checks leave their DST range as it was
is the model's reading (assumption log 18), and so is it that CONT.PARSE has no DST range (log 10). -/
def Obligations.ResetTouchesOnlyTheAbandonedDst : Prop :=
  ∀ (s : State) (rest : List BusOp), s.params.legal = true → s.bus = .reset :: rest →
    ∃ t k j, step s = .next t ∧ t.phase = .idle ∧ t.status = 0 ∧ t.cmd = 0 ∧ t.outLen = 0 ∧ t.result0 = 0
      ∧ t.result1 = 0
      ∧ t.parameters = ⟨Config.freeWord j, Config.freeWord (j + 1), Config.freeWord (j + 2),
          Config.freeWord (j + 3), Config.freeWord (j + 4), Config.freeWord (j + 5)⟩
      ∧ (∀ a, inRunningDst s a = false → Memory.read t.mem a = Memory.read s.mem a)
      ∧ (∀ a, inRunningDst s a = true → backed s.params a = true →
          Memory.read t.mem a = Config.freeByte k a)
      ∧ (∀ op a, accessingOp s = some op →
          (inRange s.latched.src a = true ∨ (usesMeta op = true ∧ inRange s.latched.metadata a = true)) →
          Memory.read t.mem a = Memory.read s.mem a)

/-- 10_state.md R45: a parameter write while idle stores the value and changes nothing else, any register
write while BUSY is ignored, and an accepted `CMD` write latches the six parameter registers. R34, R41 to
R44: a write at a read-only or reserved offset is ignored, while idle too. -/
def Obligations.RegisterWritesAndLatching : Prop :=
  ∀ (s : State) (off : Nat) (v : Word) (rest : List BusOp), s.params.legal = true → off < 64 →
    off % 4 = 0 → s.bus = .regWrite (s.params.regBase + off) 4 v :: rest →
    (s.busy = true → step s = .next (s.withBus rest))
    ∧ (s.busy = false →
        (off = 0x08 → step s = .next { s with srcAddr := v, bus := rest })
        ∧ (off = 0x0C → step s = .next { s with srcLen := v, bus := rest })
        ∧ (off = 0x10 → step s = .next { s with dstAddr := v, bus := rest })
        ∧ (off = 0x14 → step s = .next { s with dstCap := v, bus := rest })
        ∧ (off = 0x18 → step s = .next { s with metaAddr := v, bus := rest })
        ∧ (off = 0x1C → step s = .next { s with metaLen := v, bus := rest })
        ∧ (off = 0x04 ∨ 0x20 ≤ off → step s = .next (s.withBus rest))
        ∧ (off = 0x00 → ∃ t, step s = .next t
            ∧ t.latched = ⟨s.srcAddr, s.srcLen, s.dstAddr, s.dstCap, s.metaAddr, s.metaLen⟩))

/-- 10_state.md R33, 70_reset_and_hazards.md R352: a `CMD` write while idle stores any word, starts a
command and touches no memory; while BUSY it is ignored. That the result registers keep their contents
inside the block, while their reads are free, is the model's form (assumption log 19). -/
def Obligations.CommandWriteStartsOrIsIgnored : Prop :=
  ∀ (s : State) (w : Word) (rest : List BusOp), s.params.legal = true →
    s.bus = .regWrite s.params.regBase 4 w :: rest →
    (s.busy = true → step s = .next (s.withBus rest))
    ∧ (s.busy = false → ∃ t, step s = .next t ∧ t.cmd = w ∧ t.status = 0x00000001#32
        ∧ t.phase = .dispatch ∧ t.mem = s.mem ∧ t.outLen = s.outLen ∧ t.result0 = s.result0
        ∧ t.result1 = s.result1 ∧ t.params = s.params ∧ t.store = s.store ∧ t.bus = rest
        ∧ t.parameters = s.parameters)

/-- 70_reset_and_hazards.md R350: what the registers read while a command runs. 10_state.md R32 to R44: what
they read while idle, each its stored value and the reserved offsets 0. A read changes no register and no
memory (20_memory.md R77); a read of STATUS while idle shows the bytes that ended commands wrote (R81). -/
def Obligations.RegisterReadsBusyAndIdle : Prop :=
  ∀ (s : State) (off : Nat) (rest : List BusOp), s.inv = true → off < 64 → off % 4 = 0 →
    s.bus = .regRead (s.params.regBase + off) 4 :: rest →
    ∃ t, step s = .next t
      ∧ (off = 0x00 → t.readData = s.cmd) ∧ (off = 0x04 → t.readData = s.status)
      ∧ (off = 0x08 → t.readData = s.srcAddr) ∧ (off = 0x0C → t.readData = s.srcLen)
      ∧ (off = 0x10 → t.readData = s.dstAddr) ∧ (off = 0x14 → t.readData = s.dstCap)
      ∧ (off = 0x18 → t.readData = s.metaAddr) ∧ (off = 0x1C → t.readData = s.metaLen)
      ∧ (0x2C ≤ off → t.readData = 0)
      ∧ (s.busy = true →
          (off = 0x04 → t.readData = 0x00000001#32)
          ∧ (off = 0x20 ∨ off = 0x24 ∨ off = 0x28 → t.readData = Config.freeWord s.draws)
          ∧ t = { s with readData := t.readData, draws := t.draws, bus := rest })
      ∧ (s.busy = false →
          (off = 0x20 → t.readData = s.outLen) ∧ (off = 0x24 → t.readData = s.result0)
          ∧ (off = 0x28 → t.readData = s.result1)
          ∧ t = { s with
              readData := t.readData, unseen := if off = 0x04 then [] else s.unseen, bus := rest })

/-- 20_memory.md section 3: a sub-word, wider or misaligned access to the register block is refused.
00_scope.md section 3: so is every state whose parameters are illegal, a dictionary capacity below 256
among them. -/
def Obligations.OddAccessAndIllegalParametersRefused : Prop :=
  (∀ (s : State) (addr bytes : Nat) (v : Word) (rest : List BusOp), s.params.legal = true →
    s.params.regBase < addr + bytes → addr < s.params.regBase + 64 → (bytes ≠ 4 ∨ addr % 4 ≠ 0) →
    (s.bus = .regWrite addr bytes v :: rest ∨ s.bus = .regRead addr bytes :: rest) →
    step s = .refused (.registerAccess addr bytes))
  ∧ ∀ s : State,
      (s.params.lzwDictCapacity < 256 ∨ s.params.addrWidth < 1 ∨ 32 < s.params.addrWidth
        ∨ s.params.maxInputLen < 1 ∨ 2 ^ 32 - 1 < s.params.maxInputLen ∨ s.params.regBase % 64 ≠ 0) →
      step s = .refused .illegalParameters

/-- 60_exceptions.md section 5, power states: while the block is idle, nothing but a register write or a
reset changes a register, the engine's storage or the engine's phase, and only a bus agent's own store
changes memory. -/
def Obligations.IdleBlockStaysIdle : Prop :=
  ∀ s t : State, s.inv = true → s.phase = .idle → step s = .next t →
    (∀ a n v rest, s.bus ≠ .regWrite a n v :: rest) → (∀ rest, s.bus ≠ .reset :: rest) →
    t.cmd = s.cmd ∧ t.status = s.status ∧ t.parameters = s.parameters ∧ t.outLen = s.outLen
    ∧ t.result0 = s.result0 ∧ t.result1 = s.result1 ∧ t.latched = s.latched ∧ t.phase = .idle
    ∧ t.store = s.store ∧ t.params = s.params
    ∧ ((∀ a v rest, s.bus ≠ .memWrite a v :: rest) → t.mem = s.mem)

/-- 30_encoding.md R104: an illegal word, with RSV not 0 or ALG above 5, written while idle, starts a command
that ends at once with UnsupportedAlgorithm and touches no memory. -/
def Obligations.IllegalWordFails : Prop :=
  ∀ (s : State) (w : Word), s.params.legal = true → s.busy = false →
    s.bus = [.regWrite s.params.regBase 4 w] → (32 ≤ w.toNat ∨ 6 ≤ w.toNat % 16) →
    ∃ t1 t, step s = .next t1 ∧ step t1 = .next t ∧ t1.status = 0x00000001#32
      ∧ FailedWith .unsupportedAlgorithm t1 t ∧ t.status = 0x00000036#32 ∧ t.cmd = w ∧ t.mem = s.mem
      ∧ t.parameters = s.parameters

/-- 44_container.md R280: BRO.C and BRO.D, in every state, end with UnsupportedAlgorithm and touch no
memory and no parameter register. -/
def Obligations.BrotliWordsFail : Prop :=
  encode .broC = .command 0x00000004#32 ∧ encode .broD = .command 0x00000014#32
  ∧ ∀ (i : Instr) (s : State), i = .broC ∨ i = .broD →
    ∃ t, exec i s = .next t ∧ t.status = 0x00000036#32 ∧ FailedWith .unsupportedAlgorithm s t
      ∧ t.mem = s.mem ∧ t.store = s.store

/-- 70_reset_and_hazards.md R358: every accepted command word, legal or not, completes: the engine's step
from dispatch ends with DONE = 1 and BUSY = 0, the block idle. -/
def Obligations.EveryDispatchedWordCompletes : Prop :=
  ∀ s : State, s.params.legal = true → s.phase = .dispatch → s.bus = [] →
    ∃ t, step s = .next t ∧ t.phase = .idle ∧ busyBit t.status = false ∧ doneBit t.status = true
      ∧ SameHostSide s t

/-- 70_reset_and_hazards.md R358 (a model may take any finite number of internal steps): a command that the
engine runs one internal step at a time, token by token where it is a decoder, ends in the state that its
`exec` gives at once. That both ways end alike is the model's choice (assumption log 11); it also says that a
unit's bound on its steps is never what ends a run (log 22). -/
def Obligations.StepwiseRunReachesWholeRun : Prop :=
  ∀ (s : State) (i : Instr) (rest : List BusOp), s.params.legal = true → s.phase = .dispatch →
    decodeCommand s.cmd = .ok i →
    ∃ n, Host.Core.run Sys2Proof.core n (s.withBus (List.replicate n .engineStep ++ rest))
      = exec i (s.withBus rest)

/-- 10_state.md R55: no internal state survives a command. Whatever the internal storage holds when a
command is dispatched, the command ends in the same state but for internal storage. -/
def Obligations.NoInternalStateSurvives : Prop :=
  ∀ (i : Instr) (s : State) (st : Storage), i.isCommand = true →
    ∃ t t', exec i s = .next t ∧ exec i (s.withStore st) = .next t' ∧ SameButStore t t'

/-- 30_encoding.md section 7, pseudo-instructions: from an idle block, the bus traffic that a command's
pseudo-instruction stands for ends in the state the command's `exec` gives on the operands written, with
the final STATUS read. -/
def Obligations.PseudoInstructionRunsItsCommand : Prop :=
  ∀ (i : Instr) (l : Latched) (s : State), i.isCommand = true → s.inv = true → s.phase = .idle →
    ∃ n t, exec i ((acceptCommand (commandWord i) (s.withOperands i l)).withBus []) = .next t
      ∧ Host.Core.run Sys2Proof.core n (s.withProgram (pseudo i l)) = .next (registerRead .status t)

/-! ### How a command ends -/

/-- 44_container.md R282: the seven range checks, over exact sums; a command that fails one ends
with InvalidInput and memory as it was. -/
def Obligations.RangeChecksFailInvalidInput : Prop :=
  ∀ (op : Instr) (s : State), op ∈ implemented →
    (validRanges op s.params s.latched = false ↔
      s.params.maxInputLen < s.latched.srcLen.toNat
      ∨ 2 ^ s.params.addrWidth < s.latched.srcAddr.toNat + s.latched.srcLen.toNat
      ∨ (op = .contSer ∧ s.params.maxInputLen < s.latched.metaLen.toNat)
      ∨ (op = .contSer ∧ 2 ^ s.params.addrWidth < s.latched.metaAddr.toNat + s.latched.metaLen.toNat)
      ∨ (op ≠ .contParse ∧ 2 ^ s.params.addrWidth < s.latched.dstAddr.toNat + s.latched.dstCap.toNat)
      ∨ (op ≠ .contParse ∧ 0 < s.latched.dstCap.toNat ∧ 0 < s.latched.srcLen.toNat
          ∧ s.latched.dstAddr.toNat < s.latched.srcAddr.toNat + s.latched.srcLen.toNat
          ∧ s.latched.srcAddr.toNat < s.latched.dstAddr.toNat + s.latched.dstCap.toNat)
      ∨ (op = .contSer ∧ 0 < s.latched.dstCap.toNat ∧ 0 < s.latched.metaLen.toNat
          ∧ s.latched.dstAddr.toNat < s.latched.metaAddr.toNat + s.latched.metaLen.toNat
          ∧ s.latched.metaAddr.toNat < s.latched.dstAddr.toNat + s.latched.dstCap.toNat))
    ∧ (validRanges op s.params s.latched = false →
        ∃ t, exec op s = .next t ∧ FailedWith .invalidInput s t ∧ t.mem = s.mem ∧ t.store = s.store)

/-- 44_container.md R281, R284 for HUF.C, HUF.D, RLE.C, RLE.D, LZ77.C, LZ77.D, LZW.C, LZW.D, CONT.SER and
CONT.PARSE: when the ranges are legal, nothing disturbs the command, the bus answers, the codec function
returns a result and the output fits, the command completes: it writes exactly the output at `DST_ADDR`,
reports its length and the two results, and leaves every other byte and every parameter register. -/
def Obligations.ReadyCommandCompletes : Prop :=
  ∀ (op : Instr) (u : CodecUnit) (s : State) (inp : Inputs) (o : Output), unitOf op = some u →
    Ready op s inp → u.codec s.params inp = .ok o →
    (usesDst op = true → o.out.length ≤ s.latched.dstCap.toNat) → OutputBacked s o.out.length →
    Memory.wf s.mem = true →
    ∃ t, exec op s = .next t ∧ SucceededWith o.out.toList o.res0 o.res1 s t

/-- 44_container.md R285, R286: a codec error is reported as it is, in preference to OutputOverflow; an
output longer than the latched `DST_CAP` is OutputOverflow. Either way no byte outside the DST range
changes; that a failed CONT.PARSE changes none at all is the model's reading of 20_memory.md R71
(assumption log 10). -/
def Obligations.CodecErrorsAndOverflowAreReported : Prop :=
  ∀ (op : Instr) (u : CodecUnit) (s : State) (inp : Inputs), unitOf op = some u → Ready op s inp →
    (∀ e, u.codec s.params inp = .error e →
      ∃ t, exec op s = .next t ∧ FailedWith e s t ∧ SameOutside (writeRange op s) s t)
    ∧ (∀ o, u.codec s.params inp = .ok o → usesDst op = true →
        s.latched.dstCap.toNat < o.out.length →
        ∃ t, exec op s = .next t ∧ FailedWith .outputOverflow s t ∧ SameOutside (writeRange op s) s t)

/-- 60_exceptions.md section 1, InvalidInput: a bus error on an input read, or on the write-back of an
output that fits, ends the command with InvalidInput, and no byte outside the DST range changes. That
CONT.PARSE then changes no byte at all is the model's reading (assumption log 10). -/
def Obligations.BusErrorsFailInvalidInput : Prop :=
  ∀ (op : Instr) (u : CodecUnit) (s : State), unitOf op = some u →
    validRanges op s.params s.latched = true → disturbed op s = false →
    (readInputs op s = none →
      ∃ t, exec op s = .next t ∧ FailedWith .invalidInput s t ∧ SameOutside (writeRange op s) s t)
    ∧ (∀ inp o, readInputs op s = some inp → u.codec s.params inp = .ok o →
        (usesDst op = true → o.out.length ≤ s.latched.dstCap.toNat) → ¬ OutputBacked s o.out.length →
        ∃ t, exec op s = .next t ∧ FailedWith .invalidInput s t ∧ SameOutside (writeRange op s) s t)

/-- 20_memory.md section 5, the host's duties: a disturbed command still ends; its results and its error
code are free, and only its DST range may have changed. When a command counts as disturbed is the model's
reading (assumption log 12), and so is it that a disturbed CONT.PARSE changes no byte (log 10). -/
def Obligations.DisturbedCommandEndsUnspecified : Prop :=
  ∀ (op : Instr) (s : State), op ∈ implemented → validRanges op s.params s.latched = true →
    disturbed op s = true →
    ∃ t k, exec op s = .next t ∧ t.phase = .idle ∧ statusLegal t.status = true
      ∧ doneBit t.status = true ∧ t.outLen = Config.freeWord k ∧ t.result0 = Config.freeWord (k + 1)
      ∧ t.result1 = Config.freeWord (k + 2) ∧ SameHostSide s t ∧ SameOutside (writeRange op s) s t

/-- 20_memory.md section 5: a bus agent's store changes one byte and no register, and disturbs the running
command exactly when the address is in one of the command's ranges (assumption log 12). A load returns the
byte in memory, or what it held before a write whose command's end is not seen yet (R81), or a free value
in the DST range of a running command, which it then disturbs (R85, 93_implementation_defined.md section
3), at a byte an ended command left any value, and at a device (log 13). A success leaves to be seen only
the output bytes it wrote, each with its earlier value (log 9). An access where no memory answers is a
fault (log 15). -/
def Obligations.MemoryAccessDisturbsOnlyItsCommand : Prop :=
  (∀ (s : State) (a : Nat) (v : Byte) (rest : List BusOp), s.inv = true → s.bus = .memWrite a v :: rest →
    a < 2 ^ s.params.addrWidth → backed s.params a = true → deviceAt s.params a = false →
    ∃ t, step s = .next t ∧ Memory.read t.mem a = v
      ∧ (∀ x, x ≠ a → Memory.read t.mem x = Memory.read s.mem x)
      ∧ (t.raced = true ↔ s.raced = true ∨ ∃ op, accessingOp s = some op
          ∧ (inRange s.latched.src a = true ∨ (op = .contSer ∧ inRange s.latched.metadata a = true)
            ∨ (op ≠ .contParse ∧ inRange s.latched.dst a = true)))
      ∧ (∀ u, u ∈ t.unseen ↔ u ∈ s.unseen ∧ u.addr ≠ a)
      ∧ t = { s with mem := t.mem, raced := t.raced, unseen := t.unseen, bus := rest })
  ∧ (∀ (s : State) (a : Nat) (rest : List BusOp), s.params.legal = true → s.bus = .memRead a :: rest →
      a < 2 ^ s.params.addrWidth → backed s.params a = true →
      ∃ t, step s = .next t
        ∧ (inRunningDst s a = true ∨ (⟨a, none⟩ : Unseen) ∈ s.unseen ∨ deviceAt s.params a = true →
            t.memData = Config.freeByte s.draws a)
        ∧ (inRunningDst s a = false → (⟨a, none⟩ : Unseen) ∉ s.unseen → deviceAt s.params a = false →
            t.memData = Memory.read s.mem a ∨ (⟨a, some t.memData⟩ : Unseen) ∈ s.unseen)
        ∧ (t.raced = true ↔ s.raced = true ∨ inRunningDst s a = true)
        ∧ t = { s with memData := t.memData, draws := t.draws, raced := t.raced, bus := rest })
  ∧ (∀ (op : Instr) (u : CodecUnit) (s : State) (inp : Inputs) (o : Output), unitOf op = some u →
      Ready op s inp → u.codec s.params inp = .ok o →
      (usesDst op = true → o.out.length ≤ s.latched.dstCap.toNat) → OutputBacked s o.out.length →
      ∃ t, exec op s = .next t ∧ ∀ w, w ∈ t.unseen ↔
        w ∈ s.unseen ∨ (inRange ⟨s.latched.dstAddr.toNat, o.out.length⟩ w.addr = true
          ∧ w.earlier = some (Memory.read s.mem w.addr)))
  ∧ (∀ (s : State) (a : Nat) (v : Byte) (rest : List BusOp), s.params.legal = true →
      (s.bus = .memWrite a v :: rest ∨ s.bus = .memRead a :: rest) →
      (2 ^ s.params.addrWidth ≤ a ∨ backed s.params a = false) →
      step s = .fault (.noMemoryAtAddress a))

/-! ### Huffman -/

/-- 40_huffman.md R163: HUF.D of what HUF.C writes gives the input back, for every input. -/
def Obligations.HuffmanRoundTrip : Prop :=
  ∀ (p : Params) (x : List Byte), x.length < 2 ^ 32 →
    ∃ o o', hufCUnit.codec p (srcOnly x) = .ok o ∧ hufDUnit.codec p (srcOnly o.out.toList) = .ok o'
      ∧ o'.out.toList = x ∧ o'.res0 = o.res0 ∧ o'.res1 = o.res1

/-- 40_huffman.md R154: the code table has exactly one code for every byte value of the alphabet and no
other, no code is a prefix of another, each has length at least 1, and a single symbol's code is "0". -/
def Obligations.CodeTableIsPrefixFree : Prop :=
  ∀ list : List (Byte × Word), list ≠ [] → rowsLegal list = true →
    List.Perm ((codeTable (buildTree list)).map Prod.fst) (list.map Prod.fst)
    ∧ (∀ a c b d, (a, c) ∈ codeTable (buildTree list) → (b, d) ∈ codeTable (buildTree list) → a ≠ b →
        ¬ c <+: d)
    ∧ (∀ a c, (a, c) ∈ codeTable (buildTree list) →
        1 ≤ c.length ∧ codeOf (codeTable (buildTree list)) a = c)
    ∧ (∀ a f, list = [(a, f)] → codeTable (buildTree list) = [(a, [false])])

/-- 40_huffman.md R155: with `K ≥ 2` symbols every code is at most `K - 1 ≤ 255` bits long; with one symbol
it is 1 bit. -/
def Obligations.CodeLengthsAreBounded : Prop :=
  ∀ (list : List (Byte × Word)) (a : Byte) (c : List Bool), rowsLegal list = true →
    (a, c) ∈ codeTable (buildTree list) →
    (list.length = 1 → c.length = 1) ∧ (2 ≤ list.length → c.length ≤ list.length - 1 ∧ c.length ≤ 255)

/-- 40_huffman.md section 3: the merges lose nothing. The root's 40-bit frequency is the exact sum of the
counts, and `K` symbols make `K - 1` internal nodes (one, with the synthetic sibling, when `K = 1`). -/
def Obligations.TreeFrequencyIsExact : Prop :=
  ∀ list : List (Byte × Word), list ≠ [] → rowsLegal list = true →
    (buildTree list).freq.toNat = (list.map fun r => r.2.toNat).sum
    ∧ (buildTree list).internals = max 1 (list.length - 1)

/-- 40_huffman.md section 3, queue order: `ExtractMin` removes one node, a first one in the order of
frequency and then insertion number. -/
def Obligations.ExtractMinTakesTheFirstNode : Prop :=
  ∀ (q : List HuffNode), q ≠ [] →
    ∃ m rest, extractMin q = some (m, rest) ∧ q.Perm (m :: rest)
      ∧ ∀ n ∈ rest, m.freq.toNat < n.freq.toNat
          ∨ (m.freq.toNat = n.freq.toNat ∧ m.seq.toNat ≤ n.seq.toNat)

/-- 40_huffman.md R142: after `T` bits and the flush there are `ceil(T / 8)` bytes, and the padding is
`(8 - T mod 8) mod 8`. -/
def Obligations.FlushPadsToAByte : Prop :=
  ∀ bits : List Bool,
    (bpFlushed (bpWrite bpInit bits)).length = (bits.length + 7) / 8
    ∧ bpPadding (bpWrite bpInit bits) = (8 - bits.length % 8) % 8
    ∧ bpPadding (bpWrite bpInit bits) ≤ 7

/-- 40_huffman.md sections 1 and 2: the bit reader, given the packed bytes and the padding, returns exactly
the bits that were packed, and then `END`. -/
def Obligations.ReaderReturnsThePackedBits : Prop :=
  ∀ bits : List Bool,
    ∃ r, brInit (bpFlushed (bpWrite bpInit bits)) (bpPadding (bpWrite bpInit bits)) = .ok r
      ∧ readBits (bits.length + 1) r = bits

/-- 30_encoding.md section 3, 40_huffman.md sections 2, 5 and 6: the metadata of a legal alphabet has `3 + 5K`
bytes and decodes to the padding and the alphabet, and every other blob is MalformedContainer (R160). HUF.D
ends with MalformedContainer where the container or its metadata does not parse; with two symbols or more
it decodes a payload whose bits are the codes of some bytes in order to those bytes, and ends with
MalformedPayload on any other bits (R162) and on more padding than payload (R143). -/
def Obligations.MetadataAndMalformedHuffmanInputs : Prop :=
  (∀ (padding : Nat) (list : List (Byte × Word)), padding ≤ 7 → list ≠ [] → rowsLegal list = true →
    (metaEncode padding list).length = 3 + 5 * list.length
    ∧ metaDecode (metaEncode padding list) = .ok (padding, list))
  ∧ (∀ blob : List Byte,
      (∀ padding list, metaDecode blob = .ok (padding, list) →
        padding ≤ 7 ∧ list ≠ [] ∧ rowsLegal list = true ∧ blob = metaEncode padding list)
      ∧ (∀ e, metaDecode blob = .error e → e = .malformedContainer))
  ∧ (∀ (p : Params) (c : List Byte), c ≠ [] →
      (∀ e, parse c = .error e → hufDUnit.codec p (srcOnly c) = .error .malformedContainer)
      ∧ (∀ r e, parse c = .ok r → metaDecode r.metadata = .error e →
          hufDUnit.codec p (srcOnly c) = .error .malformedContainer))
  ∧ (∀ (p : Params) (padding : Nat) (list : List (Byte × Word)) (payload : List Byte), padding ≤ 7 →
      2 ≤ list.length → rowsLegal list = true →
      (8 * payload.length < padding →
        hufDUnit.codec p (srcOnly (serialize (metaEncode padding list) payload)) = .error .malformedPayload)
      ∧ (padding ≤ 8 * payload.length →
          (∀ xs : List Byte, (∀ x ∈ xs, x ∈ list.map Prod.fst) →
            payloadBits payload padding = xs.flatMap (codeOf (codeTable (buildTree list))) →
            hufDUnit.codec p (srcOnly (serialize (metaEncode padding list) payload))
              = .ok ⟨.bytes xs, padding, list.length⟩)
          ∧ ((¬ ∃ xs : List Byte, (∀ x ∈ xs, x ∈ list.map Prod.fst)
                ∧ payloadBits payload padding = xs.flatMap (codeOf (codeTable (buildTree list)))) →
            hufDUnit.codec p (srcOnly (serialize (metaEncode padding list) payload))
              = .error .malformedPayload)))

/-- 40_huffman.md R161: a container with one symbol decodes to that symbol repeated its frequency, whatever
the payload and the padding. -/
def Obligations.SingleSymbolRepeats : Prop :=
  ∀ (p : Params) (sym : Byte) (f : Word) (padding : Nat) (payload : List Byte), f ≠ 0 → padding ≤ 7 →
    ∃ o, hufDUnit.codec p (srcOnly (serialize (metaEncode padding [(sym, f)]) payload)) = .ok o
      ∧ o.out.toList = List.replicate f.toNat sym ∧ o.res0 = padding ∧ o.res1 = 1

/-- 40_huffman.md section 5, HUF.C: the output length, the padding and `K`, the number of distinct byte
values, for a non-empty input. -/
def Obligations.HufCReportsLengthPaddingAndK : Prop :=
  ∀ (p : Params) (x : List Byte), x ≠ [] → x.length < 2 ^ 32 →
    ∃ o T, hufCUnit.codec p (srcOnly x) = .ok o
      ∧ T = (x.map fun b => (codeOf (codeTable (buildTree (alphabetFrom 0 (freqTable x)))) b).length).sum
      ∧ o.res1 = x.dedup.length ∧ o.res0 = (8 - T % 8) % 8
      ∧ o.out.length = 4 + (3 + 5 * o.res1) + (T + 7) / 8

/-- 95_test_vectors.md EMPTY-S1, 90_conflicts.md C2: the empty input gives the empty output through every
codec, both ways. -/
def Obligations.EmptyInputGivesEmptyOutput : Prop :=
  ∀ (p : Params) (u : CodecUnit),
    u ∈ [hufCUnit, hufDUnit, rleCUnit, rleDUnit, lz77CUnit, lz77DUnit, lzwCUnit, lzwDUnit] →
    ∃ o, u.codec p (srcOnly []) = .ok o ∧ o.out.toList = [] ∧ o.res0 = 0 ∧ o.res1 = 0

/-! ### RLE -/

/-- 41_rle.md R199: RLE.D of what RLE.C writes gives the input back, for every input. -/
def Obligations.RleRoundTrip : Prop :=
  ∀ (p : Params) (x : List Byte),
    ∃ o o', rleCUnit.codec p (srcOnly x) = .ok o ∧ rleDUnit.codec p (srcOnly o.out.toList) = .ok o'
      ∧ o'.out.toList = x

/-- 41_rle.md R190: the run length at a position is the number of consecutive equal bytes, capped at 128. -/
def Obligations.RunLengthIsMaximal : Prop :=
  ∀ (data : List Byte) (i : Nat), i < data.length →
    1 ≤ runLen (data.drop i) ∧ runLen (data.drop i) ≤ 128 ∧ i + runLen (data.drop i) ≤ data.length
    ∧ (∀ k, k < runLen (data.drop i) → data[i + k]? = data[i]?)
    ∧ (runLen (data.drop i) < 128 → data[i + runLen (data.drop i)]? ≠ data[i]?)

/-- 41_rle.md R192: the literal stretch ends before the first pair of equal bytes, at the end of the input,
or at 128 bytes, whichever comes first. -/
def Obligations.LiteralStopsBeforeAPair : Prop :=
  ∀ (data : List Byte) (i n : Nat), i < data.length → runLen (data.drop i) = 1 →
    n = litLen 128 (data.drop i) →
    1 ≤ n ∧ n ≤ 128 ∧ i + n ≤ data.length
    ∧ (∀ k, k < n → data[i + k]? ≠ data[i + k + 1]?)
    ∧ (n = 128 ∨ i + n = data.length ∨ data[i + n]? = data[i + n + 1]?)

/-- 41_rle.md section 3: RLE.RUN and RLE.LIT, in every state, complete: they append their bytes to the
running decoder's output, move its cursor past the token, and change nothing outside the decoder. That they
do so in a state whose decoder is not running is the model's choice (assumption log 25). -/
def Obligations.RleTokensComplete : Prop :=
  ∀ s : State,
    (∀ (n : BitVec 7) (b : Byte), ∃ t, exec (.rleRun n b) s = .next t ∧ SameButStore s t
      ∧ t.store = { s.store with
          ip := s.store.ip + 2, out := s.store.out ++ List.replicate (n.toNat + 1) b, rle := t.store.rle })
    ∧ (∀ lits : List Byte, ∃ t, exec (.rleLit lits) s = .next t ∧ SameButStore s t
      ∧ t.store = { s.store with
          ip := s.store.ip + (1 + lits.length), out := s.store.out ++ lits, rle := t.store.rle })

/-- 41_rle.md R197, R198: a step of a running RLE.D on its next control byte `c`: a run of `c + 1`, a literal
of `256 - c` bytes, and MalformedPayload when the run byte or a literal byte is missing. -/
def Obligations.RleStepFollowsItsControlByte : Prop :=
  ∀ (s : State) (c : Byte) (bs : List Byte), s.params.legal = true → s.bus = [] →
    s.phase = .running .rleD → s.store.input.drop s.store.ip = c :: bs →
    (∀ b more, c.toNat ≤ 127 → bs = b :: more → ∃ t, step s = .next t ∧ SameButStore s t
      ∧ t.store = { s.store with
          ip := s.store.ip + 2, out := s.store.out ++ List.replicate (c.toNat + 1) b, rle := t.store.rle })
    ∧ (128 ≤ c.toNat → 256 - c.toNat ≤ bs.length → ∃ t, step s = .next t ∧ SameButStore s t
      ∧ t.store = { s.store with
          ip := s.store.ip + (1 + (256 - c.toNat))
          out := s.store.out ++ bs.take (256 - c.toNat), rle := t.store.rle })
    ∧ ((c.toNat ≤ 127 ∧ bs = []) ∨ (128 ≤ c.toNat ∧ bs.length < 256 - c.toNat) →
        disturbed .rleD s = false →
        ∃ t, step s = .next t ∧ FailedWith .malformedPayload s t ∧ SameOutside s.latched.dst s t)

/-- 41_rle.md section 2, 42_lz77.md section 3: RLE.C writes at most `2n` bytes, LZ77.C at most
`n + ceil(n / 8)`, and neither raises a codec error. -/
def Obligations.EncodedLengthIsBounded : Prop :=
  ∀ (p : Params) (x : List Byte),
    (∃ o, rleCUnit.codec p (srcOnly x) = .ok o ∧ o.out.length ≤ 2 * x.length)
    ∧ (∃ o, lz77CUnit.codec p (srcOnly x) = .ok o ∧ o.out.length ≤ x.length + (x.length + 7) / 8)

/-! ### LZ77 -/

/-- 42_lz77.md R223: LZ77.D of what LZ77.C writes gives the input back, for every input. -/
def Obligations.Lz77RoundTrip : Prop :=
  ∀ (p : Params) (x : List Byte),
    ∃ o o', lz77CUnit.codec p (srcOnly x) = .ok o ∧ lz77DUnit.codec p (srcOnly o.out.toList) = .ok o'
      ∧ o'.out.toList = x

/-- 42_lz77.md R211: the match length of a candidate is the longest common stretch, at most 15, to the end of
the input. -/
def Obligations.MatchLengthIsMaximal : Prop :=
  ∀ (data : List Byte) (c pos : Nat), c < pos → pos < data.length →
    matchLen data c pos ≤ 15 ∧ pos + matchLen data c pos ≤ data.length
    ∧ (∀ k, k < matchLen data c pos → data[c + k]? = data[pos + k]?)
    ∧ (matchLen data c pos = 15 ∨ pos + matchLen data c pos = data.length
        ∨ data[c + matchLen data c pos]? ≠ data[pos + matchLen data c pos]?)

/-- 42_lz77.md R212: the best match is the longest in the window of 4095 bytes, and among equal lengths the
one that starts earliest. -/
def Obligations.BestMatchIsLongestAndEarliest : Prop :=
  ∀ (data : List Byte) (pos best dist : Nat), bestMatch data pos = (best, dist) →
    (∀ c, pos - 4095 ≤ c → c < pos → matchLen data c pos ≤ best)
    ∧ (best = 0 → dist = 0)
    ∧ (1 ≤ best → 1 ≤ dist ∧ dist ≤ 4095 ∧ dist ≤ pos ∧ matchLen data (pos - dist) pos = best
        ∧ ∀ c, pos - 4095 ≤ c → c < pos - dist → matchLen data c pos < best)

/-- 42_lz77.md section 4: LZ77.CTRL and LZ77.LIT, in every state, complete: the control bits are kept for the
group, a literal is appended, and nothing outside the decoder changes. That they do so in a state whose
decoder is not running is the model's choice (assumption log 25). -/
def Obligations.Lz77ControlAndLiteralComplete : Prop :=
  ∀ s : State,
    (∀ k : Byte, ∃ t, exec (.lz77Ctrl k) s = .next t ∧ SameButStore s t ∧ t.store.lz77.ctrl = k
      ∧ t.store.lz77.decision = 0
      ∧ t.store = { s.store with ip := s.store.ip + 1, lz77 := t.store.lz77 })
    ∧ (∀ b : Byte, ∃ t, exec (.lz77Lit b) s = .next t ∧ SameButStore s t
      ∧ t.store = { s.store with
          ip := s.store.ip + 1
          out := s.store.out ++ [b]
          lz77 := { s.store.lz77 with decision := s.store.lz77.decision + 1 } })

/-- 42_lz77.md section 4, LZ77.PTR: a pointer into the output so far completes, in every state: it appends
`length` bytes, each equal to the byte `distance` before it, also where the copy overlaps itself; a
distance of 0 or beyond the output ends the command with MalformedPayload. That it does so in a state
whose decoder is not running is the model's choice (assumption log 25). -/
def Obligations.PointerCopiesOrIsMalformed : Prop :=
  ∀ (s : State) (d : BitVec 12) (l : BitVec 4),
    (1 ≤ d.toNat → d.toNat ≤ s.store.out.length →
      ∃ t, exec (.lz77Ptr d l) s = .next t ∧ SameButStore s t
        ∧ t.store.out.length = s.store.out.length + l.toNat
        ∧ (∀ k, k < s.store.out.length → t.store.out[k]? = s.store.out[k]?)
        ∧ (∀ k, k < l.toNat →
            t.store.out[s.store.out.length + k]? = t.store.out[s.store.out.length + k - d.toNat]?)
        ∧ t.store = { s.store with
            ip := s.store.ip + 2
            out := t.store.out
            lz77 := { s.store.lz77 with decision := s.store.lz77.decision + 1 } })
    ∧ (d.toNat = 0 ∨ s.store.out.length < d.toNat → disturbed .lz77D s = false →
        ∃ t, exec (.lz77Ptr d l) s = .next t ∧ FailedWith .malformedPayload s t
          ∧ SameOutside s.latched.dst s t)

/-- 42_lz77.md R222: truncation is lenient. A running LZ77.D with no byte left, or with one byte left where a
pointer is due, ends the stream with the output so far as its result. -/
def Obligations.TruncatedLz77StreamEndsWell : Prop :=
  ∀ s : State, s.params.legal = true → s.bus = [] → s.phase = .running .lz77D →
    (s.store.input.length ≤ s.store.ip
      ∨ (s.store.ip + 1 = s.store.input.length ∧ s.store.lz77.decision < 8
          ∧ s.store.lz77.ctrl.getLsbD s.store.lz77.decision = true)) →
    disturbed .lz77D s = false → s.store.out.length ≤ s.latched.dstCap.toNat →
    OutputBacked s s.store.out.length → Memory.wf s.mem = true →
    ∃ t, step s = .next t ∧ SucceededWith s.store.out 0 0 s t

/-! ### LZW -/

/-- 43_lzw.md R256: LZW.D of what LZW.C writes gives the input back whenever LZW.C emits at most 65281
codes. -/
def Obligations.LzwRoundTrip : Prop :=
  ∀ (p : Params) (x : List Byte) (o : Output), lzwCUnit.codec p (srcOnly x) = .ok o → o.res1 ≤ 65281 →
    ∃ o', lzwDUnit.codec p (srcOnly o.out.toList) = .ok o' ∧ o'.out.toList = x
      ∧ o'.res0 = o.res0 ∧ o'.res1 = o.res1

/-- 43_lzw.md section 3, counts: one code more than entries inserted for a non-empty input, two bytes a code,
at most `2n` bytes. -/
def Obligations.LzwCountsAgree : Prop :=
  ∀ (p : Params) (x : List Byte) (o : Output), lzwCUnit.codec p (srcOnly x) = .ok o →
    (x ≠ [] → o.res1 = o.res0 + 1) ∧ o.out.length = 2 * o.res1 ∧ o.out.length ≤ 2 * x.length

/-- 43_lzw.md section 1, capacity: DictionaryOverflow is LZW.C's only codec error, and with a capacity of at
least 256 more than the input length no LZW command reaches it. R252: an LZW.D input of odd length is
MalformedPayload, before any of its codes can raise another error (60_exceptions.md R309). -/
def Obligations.LzwErrorsNeedAFullStoreOrABadStream : Prop :=
  ∀ (p : Params) (x : List Byte),
    (∀ e, lzwCUnit.codec p (srcOnly x) = .error e →
      e = .dictionaryOverflow ∧ p.lzwDictCapacity < 256 + x.length)
    ∧ (∀ e, lzwDUnit.codec p (srcOnly x) = .error e →
        e = .malformedPayload ∨ (e = .dictionaryOverflow ∧ p.lzwDictCapacity < 256 + x.length))
    ∧ (x.length % 2 = 1 → lzwDUnit.codec p (srcOnly x) = .error .malformedPayload)

/-- 43_lzw.md R245: the string of an entry is the string of its prefix with its byte appended, in every
dictionary whose entries name earlier ids. -/
def Obligations.DictionaryStringFollowsItsPrefix : Prop :=
  ∀ entries : List (Nat × Byte), (∀ k pid c, entries[k]? = some (pid, c) → pid < 256 + k) →
    (∀ id, id < 256 → lzwString entries id = [BitVec.ofNat 8 id])
    ∧ (∀ k pid c, entries[k]? = some (pid, c) →
        lzwString entries (256 + k) = lzwString entries pid ++ [c]
        ∧ (lzwString entries (256 + k)).head? = (lzwString entries pid).head?)

/-- 43_lzw.md R253: the first code of a stream completes when it names a seed entry, and is malformed
otherwise. That it does so in a state whose decoder is not running is the model's choice (assumption
log 25). -/
def Obligations.FirstCodeNamesASeed : Prop :=
  ∀ (s : State) (c : BitVec 16), s.store.lzw.ncodes = 0 →
    (c.toNat < 256 → ∃ t, exec (.lzwCode c) s = .next t ∧ SameButStore s t
      ∧ t.store = { s.store with
          ip := s.store.ip + 2
          out := [BitVec.ofNat 8 c.toNat]
          lzw := { s.store.lzw with prev := [BitVec.ofNat 8 c.toNat], prevId := c.toNat, ncodes := 1 } })
    ∧ (256 ≤ c.toNat → disturbed .lzwD s = false →
        ∃ t, exec (.lzwCode c) s = .next t ∧ FailedWith .malformedPayload s t
          ∧ SameOutside s.latched.dst s t)

/-- 43_lzw.md R254: a later code completes when it is known or names the entry being inserted and the store
has room; a code beyond that entry is malformed, and a full store is DictionaryOverflow. That it does so in
a state whose decoder is not running, or that holds no previous string, is the model's choice (assumption
log 25 and 24). -/
def Obligations.LaterCodeExtendsTheDictionary : Prop :=
  ∀ (s : State) (c : BitVec 16), s.store.lzw.ncodes ≠ 0 →
    (∀ cur, (c.toNat < 256 + s.store.lzw.entries.length ∧ cur = lzwString s.store.lzw.entries c.toNat)
        ∨ (c.toNat = 256 + s.store.lzw.entries.length
            ∧ cur = s.store.lzw.prev ++ [s.store.lzw.prev.headD 0]) →
      (256 + s.store.lzw.entries.length ≠ s.params.lzwDictCapacity →
        ∃ t, exec (.lzwCode c) s = .next t ∧ SameButStore s t
          ∧ t.store = { s.store with
              ip := s.store.ip + 2
              out := s.store.out ++ cur
              lzw := { s.store.lzw with
                entries := s.store.lzw.entries ++ [(s.store.lzw.prevId, cur.headD 0)]
                prev := cur
                prevId := c.toNat
                ncodes := s.store.lzw.ncodes + 1 } })
      ∧ (256 + s.store.lzw.entries.length = s.params.lzwDictCapacity → disturbed .lzwD s = false →
        ∃ t, exec (.lzwCode c) s = .next t ∧ FailedWith .dictionaryOverflow s t
          ∧ SameOutside s.latched.dst s t))
    ∧ (256 + s.store.lzw.entries.length < c.toNat → disturbed .lzwD s = false →
        ∃ t, exec (.lzwCode c) s = .next t ∧ FailedWith .malformedPayload s t
          ∧ SameOutside s.latched.dst s t)

/-! ### Container -/

/-- 44_container.md R277: parsing what the framer wrote gives the metadata and the payload back, and a
CONT.PARSE over those bytes reports their two lengths. -/
def Obligations.ParseInvertsSerialize : Prop :=
  ∀ m payload : List Byte, m.length ≤ 2 ^ 32 - 1 →
    parse (serialize m payload) = .ok ⟨BitVec.ofNat 32 m.length, m, payload⟩
    ∧ ∀ s : State, Ready .contParse s ⟨[], serialize m payload⟩ →
        ∃ t, exec .contParse s = .next t ∧ t.status = 0x00000002#32 ∧ t.result0.toNat = m.length
          ∧ t.result1.toNat = payload.length

/-- 44_container.md R272: CONT.SER frames META and SRC: `BE32(META_LEN)`, the metadata, the payload;
`RESULT0` is META_LEN and `RESULT1` is SRC_LEN; an output longer than `DST_CAP` is OutputOverflow.
R270: the bytes are `SERIALIZE(META, SRC)`. -/
def Obligations.ContSerFramesMetaAndSrc : Prop :=
  ∀ (s : State) (m b : List Byte), Ready .contSer s ⟨m, b⟩ → Memory.wf s.mem = true →
    (4 + m.length + b.length ≤ s.latched.dstCap.toNat → OutputBacked s (4 + m.length + b.length) →
      ∃ t, exec .contSer s = .next t ∧ t.result0 = s.latched.metaLen ∧ t.result1 = s.latched.srcLen
        ∧ SucceededWith (toBE32 s.latched.metaLen ++ m ++ b) m.length b.length s t)
    ∧ (s.latched.dstCap.toNat < 4 + m.length + b.length →
        ∃ t, exec .contSer s = .next t ∧ FailedWith .outputOverflow s t ∧ SameOutside s.latched.dst s t)

/-- 44_container.md R276: CONT.PARSE reports the declared metadata length and the payload length and writes
no memory. R274: a container shorter than its header or than it declares is MalformedContainer. That memory
stays after that error too is the model's reading (assumption log 10). -/
def Obligations.ContParseReportsLengths : Prop :=
  ∀ (s : State) (c : List Byte), Ready .contParse s ⟨[], c⟩ →
    (∀ w x y z rest, c = w :: x :: y :: z :: rest → (be32 w x y z).toNat ≤ rest.length →
      ∃ t, exec .contParse s = .next t ∧ t.status = 0x00000002#32 ∧ t.outLen = 0
        ∧ t.result0 = be32 w x y z ∧ t.result1.toNat = rest.length - (be32 w x y z).toNat
        ∧ t.phase = .idle ∧ t.mem = s.mem ∧ SameHostSide s t)
    ∧ ((c.length < 4 ∨ ∃ w x y z rest, c = w :: x :: y :: z :: rest
          ∧ rest.length < (be32 w x y z).toNat) →
        ∃ t, exec .contParse s = .next t ∧ FailedWith .malformedContainer s t ∧ t.mem = s.mem)
end

