-- ==== Sys2Proof/Laws/State.lean ====
section
/-! SUPPORT. What each update of the state does to each field: one lemma per field per update, all `simp`
lemmas, so that no proof unfolds a record update. -/

namespace Sys2Proof.Machine

/-! ### `failCommand` -/

@[simp] theorem failCommand_cmd (e : ErrorKind) (s : State) :
    (failCommand e s).cmd = s.cmd := rfl

@[simp] theorem failCommand_status (e : ErrorKind) (s : State) :
    (failCommand e s).status = statusError e := rfl

@[simp] theorem failCommand_srcAddr (e : ErrorKind) (s : State) :
    (failCommand e s).srcAddr = s.srcAddr := rfl

@[simp] theorem failCommand_srcLen (e : ErrorKind) (s : State) :
    (failCommand e s).srcLen = s.srcLen := rfl

@[simp] theorem failCommand_dstAddr (e : ErrorKind) (s : State) :
    (failCommand e s).dstAddr = s.dstAddr := rfl

@[simp] theorem failCommand_dstCap (e : ErrorKind) (s : State) :
    (failCommand e s).dstCap = s.dstCap := rfl

@[simp] theorem failCommand_metaAddr (e : ErrorKind) (s : State) :
    (failCommand e s).metaAddr = s.metaAddr := rfl

@[simp] theorem failCommand_metaLen (e : ErrorKind) (s : State) :
    (failCommand e s).metaLen = s.metaLen := rfl

@[simp] theorem failCommand_outLen (e : ErrorKind) (s : State) :
    (failCommand e s).outLen = 0 := rfl

@[simp] theorem failCommand_result0 (e : ErrorKind) (s : State) :
    (failCommand e s).result0 = 0 := rfl

@[simp] theorem failCommand_result1 (e : ErrorKind) (s : State) :
    (failCommand e s).result1 = 0 := rfl

@[simp] theorem failCommand_mem (e : ErrorKind) (s : State) :
    (failCommand e s).mem = s.mem := rfl

@[simp] theorem failCommand_latched (e : ErrorKind) (s : State) :
    (failCommand e s).latched = s.latched := rfl

@[simp] theorem failCommand_phase (e : ErrorKind) (s : State) :
    (failCommand e s).phase = .idle := rfl

@[simp] theorem failCommand_store (e : ErrorKind) (s : State) :
    (failCommand e s).store = s.store := rfl

@[simp] theorem failCommand_params (e : ErrorKind) (s : State) :
    (failCommand e s).params = s.params := rfl

@[simp] theorem failCommand_bus (e : ErrorKind) (s : State) :
    (failCommand e s).bus = s.bus := rfl

@[simp] theorem failCommand_readData (e : ErrorKind) (s : State) :
    (failCommand e s).readData = s.readData := rfl

@[simp] theorem failCommand_memData (e : ErrorKind) (s : State) :
    (failCommand e s).memData = s.memData := rfl

@[simp] theorem failCommand_raced (e : ErrorKind) (s : State) :
    (failCommand e s).raced = false := rfl

@[simp] theorem failCommand_unseen (e : ErrorKind) (s : State) :
    (failCommand e s).unseen = s.unseen := rfl

@[simp] theorem failCommand_draws (e : ErrorKind) (s : State) :
    (failCommand e s).draws = s.draws := rfl

/-! ### `completeCommand` -/

@[simp] theorem completeCommand_cmd (n x y : Nat) (s : State) :
    (completeCommand n x y s).cmd = s.cmd := rfl

@[simp] theorem completeCommand_status (n x y : Nat) (s : State) :
    (completeCommand n x y s).status = statusDone := rfl

@[simp] theorem completeCommand_srcAddr (n x y : Nat) (s : State) :
    (completeCommand n x y s).srcAddr = s.srcAddr := rfl

@[simp] theorem completeCommand_srcLen (n x y : Nat) (s : State) :
    (completeCommand n x y s).srcLen = s.srcLen := rfl

@[simp] theorem completeCommand_dstAddr (n x y : Nat) (s : State) :
    (completeCommand n x y s).dstAddr = s.dstAddr := rfl

@[simp] theorem completeCommand_dstCap (n x y : Nat) (s : State) :
    (completeCommand n x y s).dstCap = s.dstCap := rfl

@[simp] theorem completeCommand_metaAddr (n x y : Nat) (s : State) :
    (completeCommand n x y s).metaAddr = s.metaAddr := rfl

@[simp] theorem completeCommand_metaLen (n x y : Nat) (s : State) :
    (completeCommand n x y s).metaLen = s.metaLen := rfl

@[simp] theorem completeCommand_outLen (n x y : Nat) (s : State) :
    (completeCommand n x y s).outLen = BitVec.ofNat 32 n := rfl

@[simp] theorem completeCommand_result0 (n x y : Nat) (s : State) :
    (completeCommand n x y s).result0 = BitVec.ofNat 32 x := rfl

@[simp] theorem completeCommand_result1 (n x y : Nat) (s : State) :
    (completeCommand n x y s).result1 = BitVec.ofNat 32 y := rfl

@[simp] theorem completeCommand_mem (n x y : Nat) (s : State) :
    (completeCommand n x y s).mem = s.mem := rfl

@[simp] theorem completeCommand_latched (n x y : Nat) (s : State) :
    (completeCommand n x y s).latched = s.latched := rfl

@[simp] theorem completeCommand_phase (n x y : Nat) (s : State) :
    (completeCommand n x y s).phase = .idle := rfl

@[simp] theorem completeCommand_store (n x y : Nat) (s : State) :
    (completeCommand n x y s).store = s.store := rfl

@[simp] theorem completeCommand_params (n x y : Nat) (s : State) :
    (completeCommand n x y s).params = s.params := rfl

@[simp] theorem completeCommand_bus (n x y : Nat) (s : State) :
    (completeCommand n x y s).bus = s.bus := rfl

@[simp] theorem completeCommand_readData (n x y : Nat) (s : State) :
    (completeCommand n x y s).readData = s.readData := rfl

@[simp] theorem completeCommand_memData (n x y : Nat) (s : State) :
    (completeCommand n x y s).memData = s.memData := rfl

@[simp] theorem completeCommand_raced (n x y : Nat) (s : State) :
    (completeCommand n x y s).raced = false := rfl

@[simp] theorem completeCommand_unseen (n x y : Nat) (s : State) :
    (completeCommand n x y s).unseen = s.unseen := rfl

@[simp] theorem completeCommand_draws (n x y : Nat) (s : State) :
    (completeCommand n x y s).draws = s.draws := rfl

/-! ### `freeDst` -/

@[simp] theorem freeDst_cmd (s : State) :
    (freeDst s).cmd = s.cmd := rfl

@[simp] theorem freeDst_status (s : State) :
    (freeDst s).status = s.status := rfl

@[simp] theorem freeDst_srcAddr (s : State) :
    (freeDst s).srcAddr = s.srcAddr := rfl

@[simp] theorem freeDst_srcLen (s : State) :
    (freeDst s).srcLen = s.srcLen := rfl

@[simp] theorem freeDst_dstAddr (s : State) :
    (freeDst s).dstAddr = s.dstAddr := rfl

@[simp] theorem freeDst_dstCap (s : State) :
    (freeDst s).dstCap = s.dstCap := rfl

@[simp] theorem freeDst_metaAddr (s : State) :
    (freeDst s).metaAddr = s.metaAddr := rfl

@[simp] theorem freeDst_metaLen (s : State) :
    (freeDst s).metaLen = s.metaLen := rfl

@[simp] theorem freeDst_outLen (s : State) :
    (freeDst s).outLen = s.outLen := rfl

@[simp] theorem freeDst_result0 (s : State) :
    (freeDst s).result0 = s.result0 := rfl

@[simp] theorem freeDst_result1 (s : State) :
    (freeDst s).result1 = s.result1 := rfl

@[simp] theorem freeDst_mem (s : State) :
    (freeDst s).mem = freeRange s.params s.draws s.latched.dst s.mem := rfl

@[simp] theorem freeDst_latched (s : State) :
    (freeDst s).latched = s.latched := rfl

@[simp] theorem freeDst_phase (s : State) :
    (freeDst s).phase = s.phase := rfl

@[simp] theorem freeDst_store (s : State) :
    (freeDst s).store = s.store := rfl

@[simp] theorem freeDst_params (s : State) :
    (freeDst s).params = s.params := rfl

@[simp] theorem freeDst_bus (s : State) :
    (freeDst s).bus = s.bus := rfl

@[simp] theorem freeDst_readData (s : State) :
    (freeDst s).readData = s.readData := rfl

@[simp] theorem freeDst_memData (s : State) :
    (freeDst s).memData = s.memData := rfl

@[simp] theorem freeDst_raced (s : State) :
    (freeDst s).raced = s.raced := rfl

@[simp] theorem freeDst_unseen (s : State) :
    (freeDst s).unseen = unsettled s.latched.dst ++ s.unseen := rfl

@[simp] theorem freeDst_draws (s : State) :
    (freeDst s).draws = s.draws + 1 := rfl

/-! ### `writtenBack` -/

@[simp] theorem writtenBack_cmd (n : Nat) (m : Memory) (s : State) :
    (writtenBack n m s).cmd = s.cmd := rfl

@[simp] theorem writtenBack_status (n : Nat) (m : Memory) (s : State) :
    (writtenBack n m s).status = s.status := rfl

@[simp] theorem writtenBack_srcAddr (n : Nat) (m : Memory) (s : State) :
    (writtenBack n m s).srcAddr = s.srcAddr := rfl

@[simp] theorem writtenBack_srcLen (n : Nat) (m : Memory) (s : State) :
    (writtenBack n m s).srcLen = s.srcLen := rfl

@[simp] theorem writtenBack_dstAddr (n : Nat) (m : Memory) (s : State) :
    (writtenBack n m s).dstAddr = s.dstAddr := rfl

@[simp] theorem writtenBack_dstCap (n : Nat) (m : Memory) (s : State) :
    (writtenBack n m s).dstCap = s.dstCap := rfl

@[simp] theorem writtenBack_metaAddr (n : Nat) (m : Memory) (s : State) :
    (writtenBack n m s).metaAddr = s.metaAddr := rfl

@[simp] theorem writtenBack_metaLen (n : Nat) (m : Memory) (s : State) :
    (writtenBack n m s).metaLen = s.metaLen := rfl

@[simp] theorem writtenBack_outLen (n : Nat) (m : Memory) (s : State) :
    (writtenBack n m s).outLen = s.outLen := rfl

@[simp] theorem writtenBack_result0 (n : Nat) (m : Memory) (s : State) :
    (writtenBack n m s).result0 = s.result0 := rfl

@[simp] theorem writtenBack_result1 (n : Nat) (m : Memory) (s : State) :
    (writtenBack n m s).result1 = s.result1 := rfl

@[simp] theorem writtenBack_mem (n : Nat) (m : Memory) (s : State) :
    (writtenBack n m s).mem = m := rfl

@[simp] theorem writtenBack_latched (n : Nat) (m : Memory) (s : State) :
    (writtenBack n m s).latched = s.latched := rfl

@[simp] theorem writtenBack_phase (n : Nat) (m : Memory) (s : State) :
    (writtenBack n m s).phase = s.phase := rfl

@[simp] theorem writtenBack_store (n : Nat) (m : Memory) (s : State) :
    (writtenBack n m s).store = s.store := rfl

@[simp] theorem writtenBack_params (n : Nat) (m : Memory) (s : State) :
    (writtenBack n m s).params = s.params := rfl

@[simp] theorem writtenBack_bus (n : Nat) (m : Memory) (s : State) :
    (writtenBack n m s).bus = s.bus := rfl

@[simp] theorem writtenBack_readData (n : Nat) (m : Memory) (s : State) :
    (writtenBack n m s).readData = s.readData := rfl

@[simp] theorem writtenBack_memData (n : Nat) (m : Memory) (s : State) :
    (writtenBack n m s).memData = s.memData := rfl

@[simp] theorem writtenBack_raced (n : Nat) (m : Memory) (s : State) :
    (writtenBack n m s).raced = s.raced := rfl

@[simp] theorem writtenBack_unseen (n : Nat) (m : Memory) (s : State) :
    (writtenBack n m s).unseen = overwritten s.mem s.latched.dstAddr.toNat n ++ s.unseen := rfl

@[simp] theorem writtenBack_draws (n : Nat) (m : Memory) (s : State) :
    (writtenBack n m s).draws = s.draws := rfl

/-! ### `acceptCommand` -/

@[simp] theorem acceptCommand_cmd (w : Word) (s : State) :
    (acceptCommand w s).cmd = w := rfl

@[simp] theorem acceptCommand_status (w : Word) (s : State) :
    (acceptCommand w s).status = statusBusy := rfl

@[simp] theorem acceptCommand_srcAddr (w : Word) (s : State) :
    (acceptCommand w s).srcAddr = s.srcAddr := rfl

@[simp] theorem acceptCommand_srcLen (w : Word) (s : State) :
    (acceptCommand w s).srcLen = s.srcLen := rfl

@[simp] theorem acceptCommand_dstAddr (w : Word) (s : State) :
    (acceptCommand w s).dstAddr = s.dstAddr := rfl

@[simp] theorem acceptCommand_dstCap (w : Word) (s : State) :
    (acceptCommand w s).dstCap = s.dstCap := rfl

@[simp] theorem acceptCommand_metaAddr (w : Word) (s : State) :
    (acceptCommand w s).metaAddr = s.metaAddr := rfl

@[simp] theorem acceptCommand_metaLen (w : Word) (s : State) :
    (acceptCommand w s).metaLen = s.metaLen := rfl

@[simp] theorem acceptCommand_outLen (w : Word) (s : State) :
    (acceptCommand w s).outLen = s.outLen := rfl

@[simp] theorem acceptCommand_result0 (w : Word) (s : State) :
    (acceptCommand w s).result0 = s.result0 := rfl

@[simp] theorem acceptCommand_result1 (w : Word) (s : State) :
    (acceptCommand w s).result1 = s.result1 := rfl

@[simp] theorem acceptCommand_mem (w : Word) (s : State) :
    (acceptCommand w s).mem = s.mem := rfl

@[simp] theorem acceptCommand_latched (w : Word) (s : State) :
    (acceptCommand w s).latched = s.parameters := rfl

@[simp] theorem acceptCommand_phase (w : Word) (s : State) :
    (acceptCommand w s).phase = .dispatch := rfl

@[simp] theorem acceptCommand_store (w : Word) (s : State) :
    (acceptCommand w s).store = s.store := rfl

@[simp] theorem acceptCommand_params (w : Word) (s : State) :
    (acceptCommand w s).params = s.params := rfl

@[simp] theorem acceptCommand_bus (w : Word) (s : State) :
    (acceptCommand w s).bus = s.bus := rfl

@[simp] theorem acceptCommand_readData (w : Word) (s : State) :
    (acceptCommand w s).readData = s.readData := rfl

@[simp] theorem acceptCommand_memData (w : Word) (s : State) :
    (acceptCommand w s).memData = s.memData := rfl

@[simp] theorem acceptCommand_raced (w : Word) (s : State) :
    (acceptCommand w s).raced = false := rfl

@[simp] theorem acceptCommand_unseen (w : Word) (s : State) :
    (acceptCommand w s).unseen = s.unseen := rfl

@[simp] theorem acceptCommand_draws (w : Word) (s : State) :
    (acceptCommand w s).draws = s.draws := rfl

/-! ### `registerRead` -/

@[simp] theorem registerRead_cmd (r : Reg) (s : State) :
    (registerRead r s).cmd = s.cmd := rfl

@[simp] theorem registerRead_status (r : Reg) (s : State) :
    (registerRead r s).status = s.status := rfl

@[simp] theorem registerRead_srcAddr (r : Reg) (s : State) :
    (registerRead r s).srcAddr = s.srcAddr := rfl

@[simp] theorem registerRead_srcLen (r : Reg) (s : State) :
    (registerRead r s).srcLen = s.srcLen := rfl

@[simp] theorem registerRead_dstAddr (r : Reg) (s : State) :
    (registerRead r s).dstAddr = s.dstAddr := rfl

@[simp] theorem registerRead_dstCap (r : Reg) (s : State) :
    (registerRead r s).dstCap = s.dstCap := rfl

@[simp] theorem registerRead_metaAddr (r : Reg) (s : State) :
    (registerRead r s).metaAddr = s.metaAddr := rfl

@[simp] theorem registerRead_metaLen (r : Reg) (s : State) :
    (registerRead r s).metaLen = s.metaLen := rfl

@[simp] theorem registerRead_outLen (r : Reg) (s : State) :
    (registerRead r s).outLen = s.outLen := rfl

@[simp] theorem registerRead_result0 (r : Reg) (s : State) :
    (registerRead r s).result0 = s.result0 := rfl

@[simp] theorem registerRead_result1 (r : Reg) (s : State) :
    (registerRead r s).result1 = s.result1 := rfl

@[simp] theorem registerRead_mem (r : Reg) (s : State) :
    (registerRead r s).mem = s.mem := rfl

@[simp] theorem registerRead_latched (r : Reg) (s : State) :
    (registerRead r s).latched = s.latched := rfl

@[simp] theorem registerRead_phase (r : Reg) (s : State) :
    (registerRead r s).phase = s.phase := rfl

@[simp] theorem registerRead_store (r : Reg) (s : State) :
    (registerRead r s).store = s.store := rfl

@[simp] theorem registerRead_params (r : Reg) (s : State) :
    (registerRead r s).params = s.params := rfl

@[simp] theorem registerRead_bus (r : Reg) (s : State) :
    (registerRead r s).bus = s.bus := rfl

@[simp] theorem registerRead_readData (r : Reg) (s : State) :
    (registerRead r s).readData = readRegister r s := rfl

@[simp] theorem registerRead_memData (r : Reg) (s : State) :
    (registerRead r s).memData = s.memData := rfl

@[simp] theorem registerRead_raced (r : Reg) (s : State) :
    (registerRead r s).raced = s.raced := rfl

@[simp] theorem registerRead_unseen (r : Reg) (s : State) :
    (registerRead r s).unseen = unseenAfterRead r s := rfl

@[simp] theorem registerRead_draws (r : Reg) (s : State) :
    (registerRead r s).draws = if readsFree r s then s.draws + 1 else s.draws := rfl

/-! ### `spoiled` -/

@[simp] theorem spoiled_cmd (op : Instr) (s : State) :
    (spoiled op s).cmd = s.cmd := by unfold spoiled; split <;> rfl

@[simp] theorem spoiled_status (op : Instr) (s : State) :
    (spoiled op s).status = s.status := by unfold spoiled; split <;> rfl

@[simp] theorem spoiled_srcAddr (op : Instr) (s : State) :
    (spoiled op s).srcAddr = s.srcAddr := by unfold spoiled; split <;> rfl

@[simp] theorem spoiled_srcLen (op : Instr) (s : State) :
    (spoiled op s).srcLen = s.srcLen := by unfold spoiled; split <;> rfl

@[simp] theorem spoiled_dstAddr (op : Instr) (s : State) :
    (spoiled op s).dstAddr = s.dstAddr := by unfold spoiled; split <;> rfl

@[simp] theorem spoiled_dstCap (op : Instr) (s : State) :
    (spoiled op s).dstCap = s.dstCap := by unfold spoiled; split <;> rfl

@[simp] theorem spoiled_metaAddr (op : Instr) (s : State) :
    (spoiled op s).metaAddr = s.metaAddr := by unfold spoiled; split <;> rfl

@[simp] theorem spoiled_metaLen (op : Instr) (s : State) :
    (spoiled op s).metaLen = s.metaLen := by unfold spoiled; split <;> rfl

@[simp] theorem spoiled_outLen (op : Instr) (s : State) :
    (spoiled op s).outLen = s.outLen := by unfold spoiled; split <;> rfl

@[simp] theorem spoiled_result0 (op : Instr) (s : State) :
    (spoiled op s).result0 = s.result0 := by unfold spoiled; split <;> rfl

@[simp] theorem spoiled_result1 (op : Instr) (s : State) :
    (spoiled op s).result1 = s.result1 := by unfold spoiled; split <;> rfl

@[simp] theorem spoiled_latched (op : Instr) (s : State) :
    (spoiled op s).latched = s.latched := by unfold spoiled; split <;> rfl

@[simp] theorem spoiled_phase (op : Instr) (s : State) :
    (spoiled op s).phase = s.phase := by unfold spoiled; split <;> rfl

@[simp] theorem spoiled_store (op : Instr) (s : State) :
    (spoiled op s).store = s.store := by unfold spoiled; split <;> rfl

@[simp] theorem spoiled_params (op : Instr) (s : State) :
    (spoiled op s).params = s.params := by unfold spoiled; split <;> rfl

@[simp] theorem spoiled_bus (op : Instr) (s : State) :
    (spoiled op s).bus = s.bus := by unfold spoiled; split <;> rfl

@[simp] theorem spoiled_readData (op : Instr) (s : State) :
    (spoiled op s).readData = s.readData := by unfold spoiled; split <;> rfl

@[simp] theorem spoiled_memData (op : Instr) (s : State) :
    (spoiled op s).memData = s.memData := by unfold spoiled; split <;> rfl

@[simp] theorem spoiled_raced (op : Instr) (s : State) :
    (spoiled op s).raced = s.raced := by unfold spoiled; split <;> rfl

/-! ### `failAfterAccess` -/

@[simp] theorem failAfterAccess_cmd (op : Instr) (e : ErrorKind) (s : State) :
    (failAfterAccess op e s).cmd = s.cmd := by simp [failAfterAccess]

@[simp] theorem failAfterAccess_status (op : Instr) (e : ErrorKind) (s : State) :
    (failAfterAccess op e s).status = statusError e := rfl

@[simp] theorem failAfterAccess_srcAddr (op : Instr) (e : ErrorKind) (s : State) :
    (failAfterAccess op e s).srcAddr = s.srcAddr := by simp [failAfterAccess]

@[simp] theorem failAfterAccess_srcLen (op : Instr) (e : ErrorKind) (s : State) :
    (failAfterAccess op e s).srcLen = s.srcLen := by simp [failAfterAccess]

@[simp] theorem failAfterAccess_dstAddr (op : Instr) (e : ErrorKind) (s : State) :
    (failAfterAccess op e s).dstAddr = s.dstAddr := by simp [failAfterAccess]

@[simp] theorem failAfterAccess_dstCap (op : Instr) (e : ErrorKind) (s : State) :
    (failAfterAccess op e s).dstCap = s.dstCap := by simp [failAfterAccess]

@[simp] theorem failAfterAccess_metaAddr (op : Instr) (e : ErrorKind) (s : State) :
    (failAfterAccess op e s).metaAddr = s.metaAddr := by simp [failAfterAccess]

@[simp] theorem failAfterAccess_metaLen (op : Instr) (e : ErrorKind) (s : State) :
    (failAfterAccess op e s).metaLen = s.metaLen := by simp [failAfterAccess]

@[simp] theorem failAfterAccess_outLen (op : Instr) (e : ErrorKind) (s : State) :
    (failAfterAccess op e s).outLen = 0 := rfl

@[simp] theorem failAfterAccess_result0 (op : Instr) (e : ErrorKind) (s : State) :
    (failAfterAccess op e s).result0 = 0 := rfl

@[simp] theorem failAfterAccess_result1 (op : Instr) (e : ErrorKind) (s : State) :
    (failAfterAccess op e s).result1 = 0 := rfl

@[simp] theorem failAfterAccess_mem (op : Instr) (e : ErrorKind) (s : State) :
    (failAfterAccess op e s).mem = (spoiled op s).mem := rfl

@[simp] theorem failAfterAccess_latched (op : Instr) (e : ErrorKind) (s : State) :
    (failAfterAccess op e s).latched = s.latched := by simp [failAfterAccess]

@[simp] theorem failAfterAccess_phase (op : Instr) (e : ErrorKind) (s : State) :
    (failAfterAccess op e s).phase = .idle := rfl

@[simp] theorem failAfterAccess_store (op : Instr) (e : ErrorKind) (s : State) :
    (failAfterAccess op e s).store = s.store := by simp [failAfterAccess]

@[simp] theorem failAfterAccess_params (op : Instr) (e : ErrorKind) (s : State) :
    (failAfterAccess op e s).params = s.params := by simp [failAfterAccess]

@[simp] theorem failAfterAccess_bus (op : Instr) (e : ErrorKind) (s : State) :
    (failAfterAccess op e s).bus = s.bus := by simp [failAfterAccess]

@[simp] theorem failAfterAccess_readData (op : Instr) (e : ErrorKind) (s : State) :
    (failAfterAccess op e s).readData = s.readData := by simp [failAfterAccess]

@[simp] theorem failAfterAccess_memData (op : Instr) (e : ErrorKind) (s : State) :
    (failAfterAccess op e s).memData = s.memData := by simp [failAfterAccess]

@[simp] theorem failAfterAccess_raced (op : Instr) (e : ErrorKind) (s : State) :
    (failAfterAccess op e s).raced = false := rfl

@[simp] theorem failAfterAccess_unseen (op : Instr) (e : ErrorKind) (s : State) :
    (failAfterAccess op e s).unseen = (spoiled op s).unseen := rfl

@[simp] theorem failAfterAccess_draws (op : Instr) (e : ErrorKind) (s : State) :
    (failAfterAccess op e s).draws = (spoiled op s).draws := rfl

/-! ### `unspecifiedEnd` -/

@[simp] theorem unspecifiedEnd_cmd (op : Instr) (s : State) :
    (unspecifiedEnd op s).cmd = s.cmd := by simp [unspecifiedEnd]

@[simp] theorem unspecifiedEnd_status (op : Instr) (s : State) :
    (unspecifiedEnd op s).status = freeStatus ((spoiled op s).draws + 3) := rfl

@[simp] theorem unspecifiedEnd_srcAddr (op : Instr) (s : State) :
    (unspecifiedEnd op s).srcAddr = s.srcAddr := by simp [unspecifiedEnd]

@[simp] theorem unspecifiedEnd_srcLen (op : Instr) (s : State) :
    (unspecifiedEnd op s).srcLen = s.srcLen := by simp [unspecifiedEnd]

@[simp] theorem unspecifiedEnd_dstAddr (op : Instr) (s : State) :
    (unspecifiedEnd op s).dstAddr = s.dstAddr := by simp [unspecifiedEnd]

@[simp] theorem unspecifiedEnd_dstCap (op : Instr) (s : State) :
    (unspecifiedEnd op s).dstCap = s.dstCap := by simp [unspecifiedEnd]

@[simp] theorem unspecifiedEnd_metaAddr (op : Instr) (s : State) :
    (unspecifiedEnd op s).metaAddr = s.metaAddr := by simp [unspecifiedEnd]

@[simp] theorem unspecifiedEnd_metaLen (op : Instr) (s : State) :
    (unspecifiedEnd op s).metaLen = s.metaLen := by simp [unspecifiedEnd]

@[simp] theorem unspecifiedEnd_outLen (op : Instr) (s : State) :
    (unspecifiedEnd op s).outLen = Config.freeWord (spoiled op s).draws := rfl

@[simp] theorem unspecifiedEnd_result0 (op : Instr) (s : State) :
    (unspecifiedEnd op s).result0 = Config.freeWord ((spoiled op s).draws + 1) := rfl

@[simp] theorem unspecifiedEnd_result1 (op : Instr) (s : State) :
    (unspecifiedEnd op s).result1 = Config.freeWord ((spoiled op s).draws + 2) := rfl

@[simp] theorem unspecifiedEnd_mem (op : Instr) (s : State) :
    (unspecifiedEnd op s).mem = (spoiled op s).mem := rfl

@[simp] theorem unspecifiedEnd_latched (op : Instr) (s : State) :
    (unspecifiedEnd op s).latched = s.latched := by simp [unspecifiedEnd]

@[simp] theorem unspecifiedEnd_phase (op : Instr) (s : State) :
    (unspecifiedEnd op s).phase = .idle := rfl

@[simp] theorem unspecifiedEnd_store (op : Instr) (s : State) :
    (unspecifiedEnd op s).store = s.store := by simp [unspecifiedEnd]

@[simp] theorem unspecifiedEnd_params (op : Instr) (s : State) :
    (unspecifiedEnd op s).params = s.params := by simp [unspecifiedEnd]

@[simp] theorem unspecifiedEnd_bus (op : Instr) (s : State) :
    (unspecifiedEnd op s).bus = s.bus := by simp [unspecifiedEnd]

@[simp] theorem unspecifiedEnd_readData (op : Instr) (s : State) :
    (unspecifiedEnd op s).readData = s.readData := by simp [unspecifiedEnd]

@[simp] theorem unspecifiedEnd_memData (op : Instr) (s : State) :
    (unspecifiedEnd op s).memData = s.memData := by simp [unspecifiedEnd]

@[simp] theorem unspecifiedEnd_raced (op : Instr) (s : State) :
    (unspecifiedEnd op s).raced = false := rfl

@[simp] theorem unspecifiedEnd_unseen (op : Instr) (s : State) :
    (unspecifiedEnd op s).unseen = (spoiled op s).unseen := rfl

@[simp] theorem unspecifiedEnd_draws (op : Instr) (s : State) :
    (unspecifiedEnd op s).draws = (spoiled op s).draws + 4 := rfl

/-! ### `abandoned` -/

@[simp] theorem abandoned_cmd (s : State) :
    (abandoned s).cmd = s.cmd := by unfold abandoned; split <;> rfl

@[simp] theorem abandoned_status (s : State) :
    (abandoned s).status = s.status := by unfold abandoned; split <;> rfl

@[simp] theorem abandoned_srcAddr (s : State) :
    (abandoned s).srcAddr = s.srcAddr := by unfold abandoned; split <;> rfl

@[simp] theorem abandoned_srcLen (s : State) :
    (abandoned s).srcLen = s.srcLen := by unfold abandoned; split <;> rfl

@[simp] theorem abandoned_dstAddr (s : State) :
    (abandoned s).dstAddr = s.dstAddr := by unfold abandoned; split <;> rfl

@[simp] theorem abandoned_dstCap (s : State) :
    (abandoned s).dstCap = s.dstCap := by unfold abandoned; split <;> rfl

@[simp] theorem abandoned_metaAddr (s : State) :
    (abandoned s).metaAddr = s.metaAddr := by unfold abandoned; split <;> rfl

@[simp] theorem abandoned_metaLen (s : State) :
    (abandoned s).metaLen = s.metaLen := by unfold abandoned; split <;> rfl

@[simp] theorem abandoned_outLen (s : State) :
    (abandoned s).outLen = s.outLen := by unfold abandoned; split <;> rfl

@[simp] theorem abandoned_result0 (s : State) :
    (abandoned s).result0 = s.result0 := by unfold abandoned; split <;> rfl

@[simp] theorem abandoned_result1 (s : State) :
    (abandoned s).result1 = s.result1 := by unfold abandoned; split <;> rfl

@[simp] theorem abandoned_latched (s : State) :
    (abandoned s).latched = s.latched := by unfold abandoned; split <;> rfl

@[simp] theorem abandoned_phase (s : State) :
    (abandoned s).phase = s.phase := by unfold abandoned; split <;> rfl

@[simp] theorem abandoned_store (s : State) :
    (abandoned s).store = s.store := by unfold abandoned; split <;> rfl

@[simp] theorem abandoned_params (s : State) :
    (abandoned s).params = s.params := by unfold abandoned; split <;> rfl

@[simp] theorem abandoned_bus (s : State) :
    (abandoned s).bus = s.bus := by unfold abandoned; split <;> rfl

@[simp] theorem abandoned_readData (s : State) :
    (abandoned s).readData = s.readData := by unfold abandoned; split <;> rfl

@[simp] theorem abandoned_memData (s : State) :
    (abandoned s).memData = s.memData := by unfold abandoned; split <;> rfl

@[simp] theorem abandoned_raced (s : State) :
    (abandoned s).raced = s.raced := by unfold abandoned; split <;> rfl

/-! ### `resetBlock` -/

@[simp] theorem resetBlock_cmd (s : State) :
    (resetBlock s).cmd = 0 := rfl

@[simp] theorem resetBlock_status (s : State) :
    (resetBlock s).status = statusIdle := rfl

@[simp] theorem resetBlock_srcAddr (s : State) :
    (resetBlock s).srcAddr = Config.freeWord (abandoned s).draws := rfl

@[simp] theorem resetBlock_srcLen (s : State) :
    (resetBlock s).srcLen = Config.freeWord ((abandoned s).draws + 1) := rfl

@[simp] theorem resetBlock_dstAddr (s : State) :
    (resetBlock s).dstAddr = Config.freeWord ((abandoned s).draws + 2) := rfl

@[simp] theorem resetBlock_dstCap (s : State) :
    (resetBlock s).dstCap = Config.freeWord ((abandoned s).draws + 3) := rfl

@[simp] theorem resetBlock_metaAddr (s : State) :
    (resetBlock s).metaAddr = Config.freeWord ((abandoned s).draws + 4) := rfl

@[simp] theorem resetBlock_metaLen (s : State) :
    (resetBlock s).metaLen = Config.freeWord ((abandoned s).draws + 5) := rfl

@[simp] theorem resetBlock_outLen (s : State) :
    (resetBlock s).outLen = 0 := rfl

@[simp] theorem resetBlock_result0 (s : State) :
    (resetBlock s).result0 = 0 := rfl

@[simp] theorem resetBlock_result1 (s : State) :
    (resetBlock s).result1 = 0 := rfl

@[simp] theorem resetBlock_mem (s : State) :
    (resetBlock s).mem = (abandoned s).mem := rfl

@[simp] theorem resetBlock_latched (s : State) :
    (resetBlock s).latched = s.latched := by simp [resetBlock]

@[simp] theorem resetBlock_phase (s : State) :
    (resetBlock s).phase = .idle := rfl

@[simp] theorem resetBlock_store (s : State) :
    (resetBlock s).store = s.store := by simp [resetBlock]

@[simp] theorem resetBlock_params (s : State) :
    (resetBlock s).params = s.params := by simp [resetBlock]

@[simp] theorem resetBlock_bus (s : State) :
    (resetBlock s).bus = s.bus := by simp [resetBlock]

@[simp] theorem resetBlock_readData (s : State) :
    (resetBlock s).readData = s.readData := by simp [resetBlock]

@[simp] theorem resetBlock_memData (s : State) :
    (resetBlock s).memData = s.memData := by simp [resetBlock]

@[simp] theorem resetBlock_raced (s : State) :
    (resetBlock s).raced = false := rfl

@[simp] theorem resetBlock_unseen (s : State) :
    (resetBlock s).unseen = (abandoned s).unseen := rfl

@[simp] theorem resetBlock_draws (s : State) :
    (resetBlock s).draws = (abandoned s).draws + 6 := rfl

/-! ### `State.withStore` -/

@[simp] theorem State.withStore_cmd (s : State) (st : Storage) :
    (s.withStore st).cmd = s.cmd := rfl

@[simp] theorem State.withStore_status (s : State) (st : Storage) :
    (s.withStore st).status = s.status := rfl

@[simp] theorem State.withStore_srcAddr (s : State) (st : Storage) :
    (s.withStore st).srcAddr = s.srcAddr := rfl

@[simp] theorem State.withStore_srcLen (s : State) (st : Storage) :
    (s.withStore st).srcLen = s.srcLen := rfl

@[simp] theorem State.withStore_dstAddr (s : State) (st : Storage) :
    (s.withStore st).dstAddr = s.dstAddr := rfl

@[simp] theorem State.withStore_dstCap (s : State) (st : Storage) :
    (s.withStore st).dstCap = s.dstCap := rfl

@[simp] theorem State.withStore_metaAddr (s : State) (st : Storage) :
    (s.withStore st).metaAddr = s.metaAddr := rfl

@[simp] theorem State.withStore_metaLen (s : State) (st : Storage) :
    (s.withStore st).metaLen = s.metaLen := rfl

@[simp] theorem State.withStore_outLen (s : State) (st : Storage) :
    (s.withStore st).outLen = s.outLen := rfl

@[simp] theorem State.withStore_result0 (s : State) (st : Storage) :
    (s.withStore st).result0 = s.result0 := rfl

@[simp] theorem State.withStore_result1 (s : State) (st : Storage) :
    (s.withStore st).result1 = s.result1 := rfl

@[simp] theorem State.withStore_mem (s : State) (st : Storage) :
    (s.withStore st).mem = s.mem := rfl

@[simp] theorem State.withStore_latched (s : State) (st : Storage) :
    (s.withStore st).latched = s.latched := rfl

@[simp] theorem State.withStore_phase (s : State) (st : Storage) :
    (s.withStore st).phase = s.phase := rfl

@[simp] theorem State.withStore_store (s : State) (st : Storage) :
    (s.withStore st).store = st := rfl

@[simp] theorem State.withStore_params (s : State) (st : Storage) :
    (s.withStore st).params = s.params := rfl

@[simp] theorem State.withStore_bus (s : State) (st : Storage) :
    (s.withStore st).bus = s.bus := rfl

@[simp] theorem State.withStore_readData (s : State) (st : Storage) :
    (s.withStore st).readData = s.readData := rfl

@[simp] theorem State.withStore_memData (s : State) (st : Storage) :
    (s.withStore st).memData = s.memData := rfl

@[simp] theorem State.withStore_raced (s : State) (st : Storage) :
    (s.withStore st).raced = s.raced := rfl

@[simp] theorem State.withStore_unseen (s : State) (st : Storage) :
    (s.withStore st).unseen = s.unseen := rfl

@[simp] theorem State.withStore_draws (s : State) (st : Storage) :
    (s.withStore st).draws = s.draws := rfl

/-! ### `State.withBus` -/

@[simp] theorem State.withBus_cmd (s : State) (ops : List BusOp) :
    (s.withBus ops).cmd = s.cmd := rfl

@[simp] theorem State.withBus_status (s : State) (ops : List BusOp) :
    (s.withBus ops).status = s.status := rfl

@[simp] theorem State.withBus_srcAddr (s : State) (ops : List BusOp) :
    (s.withBus ops).srcAddr = s.srcAddr := rfl

@[simp] theorem State.withBus_srcLen (s : State) (ops : List BusOp) :
    (s.withBus ops).srcLen = s.srcLen := rfl

@[simp] theorem State.withBus_dstAddr (s : State) (ops : List BusOp) :
    (s.withBus ops).dstAddr = s.dstAddr := rfl

@[simp] theorem State.withBus_dstCap (s : State) (ops : List BusOp) :
    (s.withBus ops).dstCap = s.dstCap := rfl

@[simp] theorem State.withBus_metaAddr (s : State) (ops : List BusOp) :
    (s.withBus ops).metaAddr = s.metaAddr := rfl

@[simp] theorem State.withBus_metaLen (s : State) (ops : List BusOp) :
    (s.withBus ops).metaLen = s.metaLen := rfl

@[simp] theorem State.withBus_outLen (s : State) (ops : List BusOp) :
    (s.withBus ops).outLen = s.outLen := rfl

@[simp] theorem State.withBus_result0 (s : State) (ops : List BusOp) :
    (s.withBus ops).result0 = s.result0 := rfl

@[simp] theorem State.withBus_result1 (s : State) (ops : List BusOp) :
    (s.withBus ops).result1 = s.result1 := rfl

@[simp] theorem State.withBus_mem (s : State) (ops : List BusOp) :
    (s.withBus ops).mem = s.mem := rfl

@[simp] theorem State.withBus_latched (s : State) (ops : List BusOp) :
    (s.withBus ops).latched = s.latched := rfl

@[simp] theorem State.withBus_phase (s : State) (ops : List BusOp) :
    (s.withBus ops).phase = s.phase := rfl

@[simp] theorem State.withBus_store (s : State) (ops : List BusOp) :
    (s.withBus ops).store = s.store := rfl

@[simp] theorem State.withBus_params (s : State) (ops : List BusOp) :
    (s.withBus ops).params = s.params := rfl

@[simp] theorem State.withBus_bus (s : State) (ops : List BusOp) :
    (s.withBus ops).bus = ops := rfl

@[simp] theorem State.withBus_readData (s : State) (ops : List BusOp) :
    (s.withBus ops).readData = s.readData := rfl

@[simp] theorem State.withBus_memData (s : State) (ops : List BusOp) :
    (s.withBus ops).memData = s.memData := rfl

@[simp] theorem State.withBus_raced (s : State) (ops : List BusOp) :
    (s.withBus ops).raced = s.raced := rfl

@[simp] theorem State.withBus_unseen (s : State) (ops : List BusOp) :
    (s.withBus ops).unseen = s.unseen := rfl

@[simp] theorem State.withBus_draws (s : State) (ops : List BusOp) :
    (s.withBus ops).draws = s.draws := rfl

end Sys2Proof.Machine
end

