-- ==== Sys2Proof/Laws/Memory.lean ====
section
/-! SUPPORT. Buffer memory: reading after a write, the canonical form and the address bound are kept by
every memory operation, and what the multi-byte reads and writes do. -/

namespace Sys2Proof.Machine

/-! ### The canonical form -/

theorem Memory.wf_cons (k : Nat) (v : Byte) (m : Memory) :
    Memory.wf ((k, v) :: m) = true ↔
      v ≠ Memory.unlisted ∧ (∀ c ∈ m, k < c.1) ∧ Memory.wf m = true := by
  simp [Memory.wf, and_assoc]

theorem Memory.below_iff (m : Memory) (n : Nat) :
    Memory.below m n = true ↔ ∀ c ∈ m, c.1 < n := by
  simp [Memory.below]

theorem Memory.mem_cell {a : Nat} {b : Byte} {c : Host.Cell} :
    c ∈ Memory.cell a b ↔ b ≠ Memory.unlisted ∧ c = (a, b) := by
  unfold Memory.cell
  split <;> simp_all

theorem Memory.wf_cell (a : Nat) (b : Byte) : Memory.wf (Memory.cell a b) = true := by
  unfold Memory.cell
  split
  · rfl
  · rw [Memory.wf_cons]; simp_all [Memory.wf]

/-- Two canonical memories, the first wholly below the second, make one. -/
theorem Memory.wf_append {m n : Memory} (hm : Memory.wf m = true) (hn : Memory.wf n = true)
    (h : ∀ c ∈ m, ∀ d ∈ n, c.1 < d.1) : Memory.wf (m ++ n) = true := by
  induction m with
  | nil => simpa using hn
  | cons c m ih =>
    obtain ⟨k, v⟩ := c
    rw [Memory.wf_cons] at hm
    rw [List.cons_append, Memory.wf_cons]
    refine ⟨hm.1, ?_, ih hm.2.2 fun c hc d hd => h c (by simp [hc]) d hd⟩
    intro d hd
    rcases List.mem_append.mp hd with hd | hd
    · exact hm.2.1 d hd
    · exact h (k, v) (by simp) d hd

/-- What a write may list: a cell already there, or the cell written. -/
theorem Memory.mem_write {m : Memory} {a : Nat} {b : Byte} {c : Host.Cell}
    (h : c ∈ Memory.write m a b) : c ∈ m ∨ c = (a, b) := by
  induction m with
  | nil =>
    rw [Memory.write, Memory.mem_cell] at h
    exact .inr h.2
  | cons d m ih =>
    obtain ⟨k, v⟩ := d
    rw [Memory.write] at h
    split at h
    · rcases List.mem_append.mp h with h | h
      · exact .inr (Memory.mem_cell.mp h).2
      · exact .inl h
    · split at h
      · rcases List.mem_append.mp h with h | h
        · exact .inr (Memory.mem_cell.mp h).2
        · exact .inl (List.mem_cons_of_mem _ h)
      · rcases List.mem_cons.mp h with h | h
        · exact .inl (by simp [h])
        · rcases ih h with h | h
          · exact .inl (List.mem_cons_of_mem _ h)
          · exact .inr h

/-- A write keeps the canonical form. -/
theorem Memory.wf_write {m : Memory} (a : Nat) (b : Byte) (h : Memory.wf m = true) :
    Memory.wf (Memory.write m a b) = true := by
  induction m with
  | nil => exact Memory.wf_cell a b
  | cons d m ih =>
    obtain ⟨k, v⟩ := d
    have hm := (Memory.wf_cons k v m).mp h
    rw [Memory.write]
    split
    · rename_i hlt
      refine Memory.wf_append (Memory.wf_cell a b) h fun c hc d hd => ?_
      rw [(Memory.mem_cell.mp hc).2]
      rcases List.mem_cons.mp hd with rfl | hd
      · exact hlt
      · exact Nat.lt_trans hlt (hm.2.1 d hd)
    · split
      · rename_i heq
        refine Memory.wf_append (Memory.wf_cell a b) hm.2.2 fun c hc d hd => ?_
        rw [(Memory.mem_cell.mp hc).2, heq]
        exact hm.2.1 d hd
      · rename_i hlt hne
        rw [Memory.wf_cons]
        refine ⟨hm.1, fun c hc => ?_, ih hm.2.2⟩
        rcases Memory.mem_write hc with hc | rfl
        · exact hm.2.1 c hc
        · exact Nat.lt_of_le_of_ne (Nat.le_of_not_lt hlt) (Ne.symm hne)

/-- A write below the bound keeps the bound. -/
theorem Memory.below_write {m : Memory} {a n : Nat} (b : Byte) (ha : a < n)
    (h : Memory.below m n = true) : Memory.below (Memory.write m a b) n = true := by
  rw [Memory.below_iff] at *
  intro c hc
  rcases Memory.mem_write hc with hc | rfl
  · exact h c hc
  · exact ha

/-! ### Reading -/

theorem Memory.read_cell (a x : Nat) (b : Byte) :
    Memory.read (Memory.cell a b) x = if x = a then b else Memory.unlisted := by
  unfold Memory.cell
  split
  · next h => subst h; simp [Memory.read]
  · simp only [Memory.read]
    split <;> split <;> simp_all

/-- An address below every listed one reads as unlisted. -/
theorem Memory.read_of_lt {m : Memory} {a : Nat} (h : ∀ c ∈ m, a < c.1) :
    Memory.read m a = Memory.unlisted := by
  induction m with
  | nil => rfl
  | cons d m ih =>
    obtain ⟨k, v⟩ := d
    have hk : a < k := h (k, v) (by simp)
    rw [Memory.read, if_neg (by omega)]
    exact ih fun c hc => h c (by simp [hc])

/-- An address that is not listed reads as unlisted. -/
theorem Memory.read_of_ne {m : Memory} {a : Nat} (h : ∀ c ∈ m, c.1 ≠ a) :
    Memory.read m a = Memory.unlisted := by
  induction m with
  | nil => rfl
  | cons d m ih =>
    obtain ⟨k, v⟩ := d
    have hk : k ≠ a := h (k, v) (by simp)
    rw [Memory.read, if_neg hk]
    exact ih fun c hc => h c (by simp [hc])

/-- Reading two memories one after the other: the first decides where it lists the address. -/
theorem Memory.read_append_left {m n : Memory} {a : Nat} (h : ∀ c ∈ n, c.1 ≠ a) :
    Memory.read (m ++ n) a = Memory.read m a := by
  induction m with
  | nil => rw [List.nil_append, Memory.read_of_ne h, Memory.read]
  | cons d m ih =>
    obtain ⟨k, v⟩ := d
    simp only [List.cons_append, Memory.read, ih]

theorem Memory.read_append_right {m n : Memory} {a : Nat} (h : ∀ c ∈ m, c.1 ≠ a) :
    Memory.read (m ++ n) a = Memory.read n a := by
  induction m with
  | nil => rfl
  | cons d m ih =>
    obtain ⟨k, v⟩ := d
    have hk : k ≠ a := h (k, v) (by simp)
    rw [List.cons_append, Memory.read, if_neg hk]
    exact ih fun c hc => h c (by simp [hc])

/-- Reading after a write: the byte written at its address, the byte before elsewhere. -/
theorem Memory.read_write {m : Memory} (a : Nat) (b : Byte) (x : Nat) (h : Memory.wf m = true) :
    Memory.read (Memory.write m a b) x = if x = a then b else Memory.read m x := by
  induction m with
  | nil => rw [Memory.write, Memory.read_cell, Memory.read]
  | cons d m ih =>
    obtain ⟨k, v⟩ := d
    have hm := (Memory.wf_cons k v m).mp h
    rw [Memory.write]
    split
    · rename_i hlt
      by_cases hx : x = a
      · subst hx
        rw [Memory.read_append_left, Memory.read_cell, if_pos rfl, if_pos rfl]
        intro c hc
        rcases List.mem_cons.mp hc with rfl | hc
        · simp only; omega
        · have := hm.2.1 c hc; omega
      · rw [if_neg hx, Memory.read_append_right]
        intro c hc
        rw [(Memory.mem_cell.mp hc).2]
        exact Ne.symm hx
    · split
      · rename_i heq
        subst heq
        by_cases hx : x = a
        · subst hx
          rw [Memory.read_append_left, Memory.read_cell, if_pos rfl, if_pos rfl]
          intro c hc
          have := hm.2.1 c hc; omega
        · rw [if_neg hx, Memory.read_append_right, Memory.read, if_neg (Ne.symm hx)]
          intro c hc
          rw [(Memory.mem_cell.mp hc).2]
          exact Ne.symm hx
      · rename_i hne
        simp only [Memory.read, ih hm.2.2]
        by_cases hx : x = a
        · subst hx
          simp [Ne.symm hne]
        · simp [hx]

/-! ### Filling a range -/

theorem Memory.mem_fill {m : Memory} {a n : Nat} {f : Nat → Byte} {c : Host.Cell}
    (h : c ∈ Memory.fill m a n f) : c ∈ m ∨ (a ≤ c.1 ∧ c.1 < a + n) := by
  simp only [Memory.fill, List.mem_append, List.mem_filter, List.mem_flatMap] at h
  rcases h with (⟨h, -⟩ | ⟨x, hx, hc⟩) | ⟨h, -⟩
  · exact .inl h
  · rw [Memory.mem_cell] at hc
    rw [List.mem_range'_1] at hx
    rw [hc.2]
    exact .inr hx
  · exact .inl h

theorem Memory.wf_filter {m : Memory} (q : Host.Cell → Bool) (h : Memory.wf m = true) :
    Memory.wf (m.filter q) = true := by
  induction m with
  | nil => rfl
  | cons d m ih =>
    obtain ⟨k, v⟩ := d
    have hm := (Memory.wf_cons k v m).mp h
    rw [List.filter_cons]
    split
    · rw [Memory.wf_cons]
      exact ⟨hm.1, fun c hc => hm.2.1 c (List.mem_filter.mp hc).1, ih hm.2.2⟩
    · exact ih hm.2.2

theorem Memory.wf_cells (f : Nat → Byte) (a n : Nat) :
    Memory.wf ((List.range' a n).flatMap fun x => Memory.cell x (f x)) = true := by
  induction n generalizing a with
  | zero => rfl
  | succ n ih =>
    rw [List.range'_succ, List.flatMap_cons]
    refine Memory.wf_append (Memory.wf_cell a (f a)) (ih (a + 1)) fun c hc d hd => ?_
    rw [List.mem_flatMap] at hd
    obtain ⟨x, hx, hd⟩ := hd
    rw [(Memory.mem_cell.mp hc).2, (Memory.mem_cell.mp hd).2]
    rw [List.mem_range'_1] at hx
    simp only
    omega

/-- Filling a range keeps the canonical form. -/
theorem Memory.wf_fill {m : Memory} (a n : Nat) (f : Nat → Byte) (h : Memory.wf m = true) :
    Memory.wf (Memory.fill m a n f) = true := by
  unfold Memory.fill
  refine Memory.wf_append (Memory.wf_append (Memory.wf_filter _ h) (Memory.wf_cells f a n) ?_)
    (Memory.wf_filter _ h) ?_
  · intro c hc d hd
    simp only [List.mem_filter, decide_eq_true_eq, List.mem_flatMap] at hc hd
    obtain ⟨x, hx, hd⟩ := hd
    rw [(Memory.mem_cell.mp hd).2]
    rw [List.mem_range'_1] at hx
    simp only
    omega
  · intro c hc d hd
    simp only [List.mem_append, List.mem_filter, decide_eq_true_eq, List.mem_flatMap] at hc hd
    rcases hc with hc | ⟨x, hx, hc⟩
    · omega
    · rw [(Memory.mem_cell.mp hc).2]
      rw [List.mem_range'_1] at hx
      simp only
      omega

/-- Filling a range inside the bound keeps the bound. -/
theorem Memory.below_fill {m : Memory} {a n k : Nat} (f : Nat → Byte) (hk : a + n ≤ k)
    (h : Memory.below m k = true) : Memory.below (Memory.fill m a n f) k = true := by
  rw [Memory.below_iff] at *
  intro c hc
  rcases Memory.mem_fill hc with hc | hc
  · exact h c hc
  · omega

theorem Memory.read_cells (f : Nat → Byte) (a n x : Nat) :
    Memory.read ((List.range' a n).flatMap fun y => Memory.cell y (f y)) x
      = if a ≤ x ∧ x < a + n then f x else Memory.unlisted := by
  induction n generalizing a with
  | zero => rw [if_neg (by omega)]; rfl
  | succ n ih =>
    rw [List.range'_succ, List.flatMap_cons]
    by_cases hx : x = a
    · subst hx
      rw [Memory.read_append_left, Memory.read_cell, if_pos rfl, if_pos (by omega)]
      intro c hc
      simp only [List.mem_flatMap] at hc
      obtain ⟨y, hy, hc⟩ := hc
      rw [(Memory.mem_cell.mp hc).2]
      rw [List.mem_range'_1] at hy
      simp only
      omega
    · rw [Memory.read_append_right, ih (a + 1)]
      · split <;> split <;> first | rfl | omega
      · intro c hc
        rw [(Memory.mem_cell.mp hc).2]
        exact Ne.symm hx

theorem Memory.read_filter {m : Memory} {q : Host.Cell → Bool} {x : Nat}
    (hq : ∀ v, q (x, v) = true) : Memory.read (m.filter q) x = Memory.read m x := by
  induction m with
  | nil => rfl
  | cons d m ih =>
    obtain ⟨k, v⟩ := d
    rw [List.filter_cons]
    by_cases hk : k = x
    · subst hk
      simp [hq, Memory.read]
    · split
      · simp only [Memory.read, ih]
      · simp only [Memory.read, ih, if_neg hk]

/-- Reading after a fill: what `f` says inside the range, the byte before outside it. -/
theorem Memory.read_fill (m : Memory) (a n : Nat) (f : Nat → Byte) (x : Nat) :
    Memory.read (Memory.fill m a n f) x = if a ≤ x ∧ x < a + n then f x else Memory.read m x := by
  have hmid : ∀ c ∈ (List.range' a n).flatMap (fun y => Memory.cell y (f y)), a ≤ c.1 ∧ c.1 < a + n := by
    intro c hc
    simp only [List.mem_flatMap] at hc
    obtain ⟨y, hy, hc⟩ := hc
    rw [(Memory.mem_cell.mp hc).2]
    rw [List.mem_range'_1] at hy
    exact hy
  unfold Memory.fill
  by_cases h1 : x < a
  · rw [if_neg (by omega), List.append_assoc, Memory.read_append_left, Memory.read_filter]
    · simpa using h1
    · intro c hc
      rcases List.mem_append.mp hc with hc | hc
      · have := hmid c hc; omega
      · have := (List.mem_filter.mp hc).2; simp only [decide_eq_true_eq] at this; omega
  · by_cases h2 : x < a + n
    · rw [if_pos (by omega), List.append_assoc, Memory.read_append_right, Memory.read_append_left,
        Memory.read_cells, if_pos (by omega)]
      · intro c hc
        have := (List.mem_filter.mp hc).2; simp only [decide_eq_true_eq] at this; omega
      · intro c hc
        have := (List.mem_filter.mp hc).2; simp only [decide_eq_true_eq] at this; omega
    · rw [if_neg (by omega), Memory.read_append_right, Memory.read_filter]
      · intro v
        simp only [decide_eq_true_eq]
        omega
      · intro c hc
        rcases List.mem_append.mp hc with hc | hc
        · have := (List.mem_filter.mp hc).2; simp only [decide_eq_true_eq] at this; omega
        · have := hmid c hc; omega

/-- Freeing a range keeps the canonical form. -/
theorem wf_freeRange (p : Params) (k : Nat) (r : AddrRange) {m : Memory} (h : Memory.wf m = true) :
    Memory.wf (freeRange p k r m) = true := Memory.wf_fill _ _ _ h

theorem below_freeRange (p : Params) (k : Nat) {r : AddrRange} {m : Memory} {n : Nat}
    (hr : r.base + r.size ≤ n) (h : Memory.below m n = true) :
    Memory.below (freeRange p k r m) n = true := Memory.below_fill _ hr h

/-- Freeing a range leaves every byte outside it. -/
theorem read_freeRange_outside (p : Params) (k : Nat) {r : AddrRange} (m : Memory) {x : Nat}
    (h : inRange r x = false) : Memory.read (freeRange p k r m) x = Memory.read m x := by
  rw [freeRange, Memory.read_fill, if_neg]
  simpa [inRange] using h

/-! ### Sequences of bytes -/

/-- A successful read of `n` bytes: every address answers, and byte `k` is the one at `a + k`. -/
theorem readBytes_some {p : Params} {m : Memory} {n a : Nat} {bs : List Byte}
    (h : readBytes p m a n = some bs) :
    bs = (List.range' a n).map (Memory.read m) ∧ ∀ k, k < n → backed p (a + k) = true := by
  induction n generalizing a bs with
  | zero => simp [readBytes] at h; simp [h]
  | succ n ih =>
    simp only [readBytes] at h
    split at h
    · rename_i hb
      obtain ⟨bs', h', rfl⟩ := Option.map_eq_some_iff.mp h
      obtain ⟨h1, h2⟩ := ih h'
      refine ⟨by rw [List.range'_succ, List.map_cons, h1], fun k hk => ?_⟩
      cases k with
      | zero => simpa using hb
      | succ k => have := h2 k (by omega); rwa [Nat.add_right_comm] at this
    · simp at h

/-- A read of `n` bytes succeeds when every address answers. -/
theorem readBytes_of_backed {p : Params} (m : Memory) {n a : Nat}
    (h : ∀ k, k < n → backed p (a + k) = true) :
    readBytes p m a n = some ((List.range' a n).map (Memory.read m)) := by
  induction n generalizing a with
  | zero => rfl
  | succ n ih =>
    have h0 : backed p a = true := by simpa using h 0 (by omega)
    rw [readBytes, if_pos h0, ih (a := a + 1) fun k hk => by
      have := h (k + 1) (by omega); rwa [Nat.add_right_comm]]
    rfl

theorem readBytes_length {p : Params} {m : Memory} {n a : Nat} {bs : List Byte}
    (h : readBytes p m a n = some bs) : bs.length = n := by
  rw [(readBytes_some h).1]; simp

/-- The write-back succeeds when every address answers. -/
theorem writeBytes_of_backed {p : Params} {bs : List Byte} {m : Memory} {a : Nat}
    (h : ∀ k, k < bs.length → backed p (a + k) = true) : ∃ m', writeBytes p m a bs = some m' := by
  induction bs generalizing m a with
  | nil => exact ⟨m, rfl⟩
  | cons b bs ih =>
    have h0 : backed p a = true := by simpa using h 0 (by simp)
    rw [writeBytes, if_pos h0]
    refine ih fun k hk => ?_
    have := h (k + 1) (by simpa using hk)
    rwa [Nat.add_right_comm]

/-- A successful write-back keeps the canonical form. -/
theorem wf_writeBytes {p : Params} {bs : List Byte} {m m' : Memory} {a : Nat}
    (h : writeBytes p m a bs = some m') (hm : Memory.wf m = true) : Memory.wf m' = true := by
  induction bs generalizing m a with
  | nil => simp [writeBytes] at h; rwa [← h]
  | cons b bs ih =>
    rw [writeBytes] at h
    split at h
    · exact ih h (Memory.wf_write a b hm)
    · simp at h

/-- A successful write-back inside the bound keeps the bound. -/
theorem below_writeBytes {p : Params} {bs : List Byte} {m m' : Memory} {a n : Nat}
    (h : writeBytes p m a bs = some m') (hn : bs = [] ∨ a + bs.length ≤ n)
    (hm : Memory.below m n = true) : Memory.below m' n = true := by
  induction bs generalizing m a with
  | nil => simp [writeBytes] at h; rwa [← h]
  | cons b bs ih =>
    rw [writeBytes] at h
    have hlen : a + (bs.length + 1) ≤ n := by simpa using hn
    split at h
    · exact ih h (.inr (by omega)) (Memory.below_write b (by omega) hm)
    · simp at h

/-- What a successful write-back leaves at each address. -/
theorem read_writeBytes {p : Params} {bs : List Byte} {m m' : Memory} {a : Nat}
    (h : writeBytes p m a bs = some m') (hm : Memory.wf m = true) (x : Nat) :
    Memory.read m' x = if a ≤ x ∧ x < a + bs.length then bs.getD (x - a) 0 else Memory.read m x := by
  induction bs generalizing m a with
  | nil =>
    simp [writeBytes] at h
    rw [if_neg (by simp), h]
  | cons b bs ih =>
    rw [writeBytes] at h
    split at h
    · rw [ih h (Memory.wf_write a b hm), Memory.read_write a b x hm]
      simp only [List.length_cons]
      by_cases hx : x = a
      · subst hx
        rw [if_neg (by omega), if_pos rfl, if_pos (by omega)]
        simp
      · by_cases h2 : a ≤ x ∧ x < a + (bs.length + 1)
        · rw [if_pos (by omega), if_pos h2]
          obtain ⟨d, hd⟩ : ∃ d, x - a = d + 1 := ⟨x - a - 1, by omega⟩
          rw [hd, List.getD_cons_succ]
          congr 1
          omega
        · rw [if_neg (by omega), if_neg hx, if_neg h2]
    · simp at h

end Sys2Proof.Machine
end

