-- ==== Sys2Proof/Laws/Engine.lean ====
section
/-! SUPPORT. What the shared operations can answer, said once: how a command ends (`conclude_cases`), what it
does before its codec works (`prepare_cases`), a whole command (`runCommand_cases`), a token
(`applyToken_cases`), a register access and the engine's moves; and the fields they all leave alone. -/

namespace Sys2Proof.Machine

/-! ### Spoiled and abandoned ranges -/

theorem freeDst_wf {s : State} (h : Memory.wf s.mem = true) : Memory.wf (freeDst s).mem = true := by
  rw [freeDst_mem]; exact wf_freeRange _ _ _ h

theorem spoiled_cases (op : Instr) (s : State) :
    (usesDst op = true ∧ spoiled op s = freeDst s) ∨ (usesDst op = false ∧ spoiled op s = s) := by
  unfold spoiled
  cases usesDst op <;> simp

theorem spoiled_wf {s : State} (op : Instr) (h : Memory.wf s.mem = true) :
    Memory.wf (spoiled op s).mem = true := by
  rcases spoiled_cases op s with ⟨-, he⟩ | ⟨-, he⟩ <;> rw [he]
  · exact freeDst_wf h
  · exact h

/-- A command that did not succeed leaves every byte outside its DST range as it was. -/
theorem read_spoiled_outside {s : State} (op : Instr) {x : Nat} (h : inRange s.latched.dst x = false) :
    Memory.read (spoiled op s).mem x = Memory.read s.mem x := by
  rcases spoiled_cases op s with ⟨-, he⟩ | ⟨-, he⟩ <;> rw [he]
  rw [freeDst_mem, read_freeRange_outside _ _ _ h]

theorem spoiled_below {s : State} {op : Instr} {n : Nat}
    (hr : usesDst op = true → s.latched.dst.base + s.latched.dst.size ≤ n)
    (h : Memory.below s.mem n = true) : Memory.below (spoiled op s).mem n = true := by
  rcases spoiled_cases op s with ⟨hd, he⟩ | ⟨-, he⟩ <;> rw [he]
  · rw [freeDst_mem]; exact below_freeRange _ _ (hr hd) h
  · exact h

theorem abandoned_cases (s : State) :
    (writesDst s = true ∧ abandoned s = freeDst s) ∨ (writesDst s = false ∧ abandoned s = s) := by
  unfold abandoned
  cases writesDst s <;> simp

/-! ### How a command ends -/

/-- The three ways a command ends once its codec function has answered `r`. -/
theorem conclude_cases (op : Instr) (r : Except ErrorKind Output) (s : State) :
    (disturbed op s = true ∧ conclude op r s = unspecifiedEnd op s)
      ∨ (disturbed op s = false ∧ ∃ e, conclude op r s = failAfterAccess op e s
          ∧ (r = .error e ∨ ∃ o, r = .ok o ∧ (e = .outputOverflow ∨ e = .invalidInput)))
      ∨ (disturbed op s = false ∧ ∃ o m, r = .ok o
          ∧ (usesDst op = true → o.out.length ≤ s.latched.dstCap.toNat)
          ∧ writeBytes s.params s.mem s.latched.dstAddr.toNat o.out.toList = some m
          ∧ conclude op r s = completeCommand o.out.length o.res0 o.res1 (writtenBack o.out.length m s)) := by
  unfold conclude
  cases hd : disturbed op s
  · simp only [Bool.false_eq_true, false_and, if_false, true_and, false_or]
    cases r with
    | error e => exact .inl ⟨e, rfl, .inl rfl⟩
    | ok o =>
      simp only
      split
      · exact .inl ⟨_, rfl, .inr ⟨o, rfl, .inl rfl⟩⟩
      · rename_i hlen
        cases hw : writeBytes s.params s.mem s.latched.dstAddr.toNat o.out.toList with
        | none => exact .inl ⟨_, rfl, .inr ⟨o, rfl, .inr rfl⟩⟩
        | some m =>
          refine .inr ⟨o, m, rfl, fun hu => ?_, hw, rfl⟩
          simpa [hu] using hlen
  · exact .inl ⟨rfl, rfl⟩

/-- A success, from the conditions on the state: not disturbed, the output fits and the bus answers. -/
theorem conclude_ok {op : Instr} {o : Output} {s : State} {m : Memory} (hd : disturbed op s = false)
    (hlen : usesDst op = true → o.out.length ≤ s.latched.dstCap.toNat)
    (hw : writeBytes s.params s.mem s.latched.dstAddr.toNat o.out.toList = some m) :
    conclude op (.ok o) s = completeCommand o.out.length o.res0 o.res1 (writtenBack o.out.length m s) := by
  have hn : ¬ (decide (s.latched.dstCap.toNat < o.out.length) && usesDst op) = true := by
    cases hu : usesDst op
    · simp
    · simpa using hlen hu
  simp only [conclude, hd, Bool.false_eq_true, if_false, hn, hw]

/-- A codec error, where nothing disturbs the command. -/
theorem conclude_error {op : Instr} {e : ErrorKind} {s : State} (hd : disturbed op s = false) :
    conclude op (.error e) s = failAfterAccess op e s := by simp [conclude, hd]

/-- What happens before the codec function works. -/
theorem prepare_cases (op : Instr) (u : CodecUnit) (s : State) :
    (validRanges op s.params s.latched = false ∧ prepare op u s = .error (failCommand .invalidInput s))
      ∨ (validRanges op s.params s.latched = true ∧ disturbed op s = true
          ∧ prepare op u s = .error (unspecifiedEnd op s))
      ∨ (validRanges op s.params s.latched = true ∧ disturbed op s = false
          ∧ ∃ e, prepare op u s = .error (failAfterAccess op e s))
      ∨ (validRanges op s.params s.latched = true ∧ disturbed op s = false
          ∧ ∃ inp st, readInputs op s = some inp ∧ u.init s.params inp s.store = .ok st
            ∧ prepare op u s = .ok st) := by
  cases hv : validRanges op s.params s.latched
  · exact .inl ⟨rfl, by simp [prepare, hv]⟩
  · cases hd : disturbed op s
    · refine .inr (.inr ?_)
      cases hr : readInputs op s with
      | none => exact .inl ⟨rfl, rfl, .invalidInput, by simp [prepare, hv, hd, hr]⟩
      | some inp =>
        cases hi : u.init s.params inp s.store with
        | error e => exact .inl ⟨rfl, rfl, e, by simp [prepare, hv, hd, hr, hi, Except.mapError]⟩
        | ok st => exact .inr ⟨rfl, rfl, inp, st, rfl, hi, by simp [prepare, hv, hd, hr, hi, Except.mapError]⟩
    · exact .inr (.inl ⟨rfl, rfl, by simp [prepare, hv, hd]⟩)

/-- The four ways a whole command ends. -/
theorem runCommand_cases (op : Instr) (u : CodecUnit) (s : State) :
    (validRanges op s.params s.latched = false ∧ runCommand op u s = failCommand .invalidInput s)
      ∨ (validRanges op s.params s.latched = true ∧ disturbed op s = true
          ∧ runCommand op u s = unspecifiedEnd op s)
      ∨ (validRanges op s.params s.latched = true ∧ disturbed op s = false
          ∧ ∃ e, runCommand op u s = failAfterAccess op e s)
      ∨ (validRanges op s.params s.latched = true ∧ disturbed op s = false
          ∧ ∃ r st, runCommand op u s = conclude op r (s.withStore st)) := by
  rcases prepare_cases op u s with ⟨hv, h⟩ | ⟨hv, hd, h⟩ | ⟨hv, hd, e, h⟩ | ⟨hv, hd, inp, st, -, -, h⟩
  · exact .inl ⟨hv, by rw [runCommand, h]⟩
  · exact .inr (.inl ⟨hv, hd, by rw [runCommand, h]⟩)
  · exact .inr (.inr (.inl ⟨hv, hd, e, by rw [runCommand, h]⟩))
  · refine .inr (.inr (.inr ⟨hv, hd, ?_⟩))
    rw [runCommand, h]
    exact ⟨_, _, rfl⟩

/-- A token works on the storage, or ends the command. -/
theorem applyToken_cases (op : Instr) (f : Params → Storage → Except ErrorKind Storage) (s : State) :
    (∃ st, f s.params s.store = .ok st ∧ applyToken op f s = s.withStore st)
      ∨ (∃ e, f s.params s.store = .error e ∧ applyToken op f s = conclude op (.error e) s) := by
  unfold applyToken
  cases h : f s.params s.store with
  | error e => exact .inr ⟨e, rfl, by simp only⟩
  | ok st => exact .inl ⟨st, rfl, by simp only⟩

/-! ### Fields that no end of a command touches -/

/-- However a command ends, the block is idle and no command is marked as disturbed. -/
@[simp] theorem conclude_phase (op : Instr) (r : Except ErrorKind Output) (s : State) :
    (conclude op r s).phase = .idle := by
  rcases conclude_cases op r s with ⟨-, h⟩ | ⟨-, e, h, -⟩ | ⟨-, o, m, -, -, -, h⟩ <;> simp [h]

@[simp] theorem conclude_raced (op : Instr) (r : Except ErrorKind Output) (s : State) :
    (conclude op r s).raced = false := by
  rcases conclude_cases op r s with ⟨-, h⟩ | ⟨-, e, h, -⟩ | ⟨-, o, m, -, -, -, h⟩ <;> simp [h]

@[simp] theorem runCommand_phase (op : Instr) (u : CodecUnit) (s : State) :
    (runCommand op u s).phase = .idle := by
  rcases runCommand_cases op u s with ⟨-, h⟩ | ⟨-, -, h⟩ | ⟨-, -, e, h⟩ | ⟨-, -, r, st, h⟩ <;> simp [h]

@[simp] theorem runCommand_raced (op : Instr) (u : CodecUnit) (s : State) :
    (runCommand op u s).raced = false := by
  rcases runCommand_cases op u s with ⟨-, h⟩ | ⟨-, -, h⟩ | ⟨-, -, e, h⟩ | ⟨-, -, r, st, h⟩ <;> simp [h]

@[simp] theorem conclude_cmd (op : Instr) (r : Except ErrorKind Output) (s : State) :
    (conclude op r s).cmd = s.cmd := by
  rcases conclude_cases op r s with ⟨-, h⟩ | ⟨-, e, h, -⟩ | ⟨-, o, m, -, -, -, h⟩ <;> simp [h]

@[simp] theorem conclude_srcAddr (op : Instr) (r : Except ErrorKind Output) (s : State) :
    (conclude op r s).srcAddr = s.srcAddr := by
  rcases conclude_cases op r s with ⟨-, h⟩ | ⟨-, e, h, -⟩ | ⟨-, o, m, -, -, -, h⟩ <;> simp [h]

@[simp] theorem conclude_srcLen (op : Instr) (r : Except ErrorKind Output) (s : State) :
    (conclude op r s).srcLen = s.srcLen := by
  rcases conclude_cases op r s with ⟨-, h⟩ | ⟨-, e, h, -⟩ | ⟨-, o, m, -, -, -, h⟩ <;> simp [h]

@[simp] theorem conclude_dstAddr (op : Instr) (r : Except ErrorKind Output) (s : State) :
    (conclude op r s).dstAddr = s.dstAddr := by
  rcases conclude_cases op r s with ⟨-, h⟩ | ⟨-, e, h, -⟩ | ⟨-, o, m, -, -, -, h⟩ <;> simp [h]

@[simp] theorem conclude_dstCap (op : Instr) (r : Except ErrorKind Output) (s : State) :
    (conclude op r s).dstCap = s.dstCap := by
  rcases conclude_cases op r s with ⟨-, h⟩ | ⟨-, e, h, -⟩ | ⟨-, o, m, -, -, -, h⟩ <;> simp [h]

@[simp] theorem conclude_metaAddr (op : Instr) (r : Except ErrorKind Output) (s : State) :
    (conclude op r s).metaAddr = s.metaAddr := by
  rcases conclude_cases op r s with ⟨-, h⟩ | ⟨-, e, h, -⟩ | ⟨-, o, m, -, -, -, h⟩ <;> simp [h]

@[simp] theorem conclude_metaLen (op : Instr) (r : Except ErrorKind Output) (s : State) :
    (conclude op r s).metaLen = s.metaLen := by
  rcases conclude_cases op r s with ⟨-, h⟩ | ⟨-, e, h, -⟩ | ⟨-, o, m, -, -, -, h⟩ <;> simp [h]

@[simp] theorem conclude_latched (op : Instr) (r : Except ErrorKind Output) (s : State) :
    (conclude op r s).latched = s.latched := by
  rcases conclude_cases op r s with ⟨-, h⟩ | ⟨-, e, h, -⟩ | ⟨-, o, m, -, -, -, h⟩ <;> simp [h]

@[simp] theorem conclude_params (op : Instr) (r : Except ErrorKind Output) (s : State) :
    (conclude op r s).params = s.params := by
  rcases conclude_cases op r s with ⟨-, h⟩ | ⟨-, e, h, -⟩ | ⟨-, o, m, -, -, -, h⟩ <;> simp [h]

@[simp] theorem conclude_bus (op : Instr) (r : Except ErrorKind Output) (s : State) :
    (conclude op r s).bus = s.bus := by
  rcases conclude_cases op r s with ⟨-, h⟩ | ⟨-, e, h, -⟩ | ⟨-, o, m, -, -, -, h⟩ <;> simp [h]

@[simp] theorem conclude_readData (op : Instr) (r : Except ErrorKind Output) (s : State) :
    (conclude op r s).readData = s.readData := by
  rcases conclude_cases op r s with ⟨-, h⟩ | ⟨-, e, h, -⟩ | ⟨-, o, m, -, -, -, h⟩ <;> simp [h]

@[simp] theorem conclude_memData (op : Instr) (r : Except ErrorKind Output) (s : State) :
    (conclude op r s).memData = s.memData := by
  rcases conclude_cases op r s with ⟨-, h⟩ | ⟨-, e, h, -⟩ | ⟨-, o, m, -, -, -, h⟩ <;> simp [h]

@[simp] theorem conclude_store (op : Instr) (r : Except ErrorKind Output) (s : State) :
    (conclude op r s).store = s.store := by
  rcases conclude_cases op r s with ⟨-, h⟩ | ⟨-, e, h, -⟩ | ⟨-, o, m, -, -, -, h⟩ <;> simp [h]

@[simp] theorem runCommand_cmd (op : Instr) (u : CodecUnit) (s : State) :
    (runCommand op u s).cmd = s.cmd := by
  rcases runCommand_cases op u s with ⟨-, h⟩ | ⟨-, -, h⟩ | ⟨-, -, e, h⟩ | ⟨-, -, r, st, h⟩ <;> simp [h]

@[simp] theorem runCommand_srcAddr (op : Instr) (u : CodecUnit) (s : State) :
    (runCommand op u s).srcAddr = s.srcAddr := by
  rcases runCommand_cases op u s with ⟨-, h⟩ | ⟨-, -, h⟩ | ⟨-, -, e, h⟩ | ⟨-, -, r, st, h⟩ <;> simp [h]

@[simp] theorem runCommand_srcLen (op : Instr) (u : CodecUnit) (s : State) :
    (runCommand op u s).srcLen = s.srcLen := by
  rcases runCommand_cases op u s with ⟨-, h⟩ | ⟨-, -, h⟩ | ⟨-, -, e, h⟩ | ⟨-, -, r, st, h⟩ <;> simp [h]

@[simp] theorem runCommand_dstAddr (op : Instr) (u : CodecUnit) (s : State) :
    (runCommand op u s).dstAddr = s.dstAddr := by
  rcases runCommand_cases op u s with ⟨-, h⟩ | ⟨-, -, h⟩ | ⟨-, -, e, h⟩ | ⟨-, -, r, st, h⟩ <;> simp [h]

@[simp] theorem runCommand_dstCap (op : Instr) (u : CodecUnit) (s : State) :
    (runCommand op u s).dstCap = s.dstCap := by
  rcases runCommand_cases op u s with ⟨-, h⟩ | ⟨-, -, h⟩ | ⟨-, -, e, h⟩ | ⟨-, -, r, st, h⟩ <;> simp [h]

@[simp] theorem runCommand_metaAddr (op : Instr) (u : CodecUnit) (s : State) :
    (runCommand op u s).metaAddr = s.metaAddr := by
  rcases runCommand_cases op u s with ⟨-, h⟩ | ⟨-, -, h⟩ | ⟨-, -, e, h⟩ | ⟨-, -, r, st, h⟩ <;> simp [h]

@[simp] theorem runCommand_metaLen (op : Instr) (u : CodecUnit) (s : State) :
    (runCommand op u s).metaLen = s.metaLen := by
  rcases runCommand_cases op u s with ⟨-, h⟩ | ⟨-, -, h⟩ | ⟨-, -, e, h⟩ | ⟨-, -, r, st, h⟩ <;> simp [h]

@[simp] theorem runCommand_latched (op : Instr) (u : CodecUnit) (s : State) :
    (runCommand op u s).latched = s.latched := by
  rcases runCommand_cases op u s with ⟨-, h⟩ | ⟨-, -, h⟩ | ⟨-, -, e, h⟩ | ⟨-, -, r, st, h⟩ <;> simp [h]

@[simp] theorem runCommand_params (op : Instr) (u : CodecUnit) (s : State) :
    (runCommand op u s).params = s.params := by
  rcases runCommand_cases op u s with ⟨-, h⟩ | ⟨-, -, h⟩ | ⟨-, -, e, h⟩ | ⟨-, -, r, st, h⟩ <;> simp [h]

@[simp] theorem runCommand_bus (op : Instr) (u : CodecUnit) (s : State) :
    (runCommand op u s).bus = s.bus := by
  rcases runCommand_cases op u s with ⟨-, h⟩ | ⟨-, -, h⟩ | ⟨-, -, e, h⟩ | ⟨-, -, r, st, h⟩ <;> simp [h]

@[simp] theorem runCommand_readData (op : Instr) (u : CodecUnit) (s : State) :
    (runCommand op u s).readData = s.readData := by
  rcases runCommand_cases op u s with ⟨-, h⟩ | ⟨-, -, h⟩ | ⟨-, -, e, h⟩ | ⟨-, -, r, st, h⟩ <;> simp [h]

@[simp] theorem runCommand_memData (op : Instr) (u : CodecUnit) (s : State) :
    (runCommand op u s).memData = s.memData := by
  rcases runCommand_cases op u s with ⟨-, h⟩ | ⟨-, -, h⟩ | ⟨-, -, e, h⟩ | ⟨-, -, r, st, h⟩ <;> simp [h]

/-- A whole command keeps the host's side. -/
theorem runCommand_sameHostSide (op : Instr) (u : CodecUnit) (s : State) :
    SameHostSide s (runCommand op u s) := by simp [SameHostSide]

/-! ### Running a unit -/

theorem drain_finished {u : CodecUnit} {p : Params} {st : Storage} (n : Nat)
    (h : u.turn p st = .finished) : drain u p n st = (.ok (), st) := by
  cases n <;> simp [drain, h]

theorem drain_failed {u : CodecUnit} {p : Params} {st : Storage} {e : ErrorKind} (n : Nat)
    (h : u.turn p st = .failed e) : drain u p (n + 1) st = (.error e, st) := by
  simp [drain, h]

theorem drain_work {u : CodecUnit} {p : Params} {st st' : Storage} (n : Nat)
    (h : u.turn p st = .work st') : drain u p (n + 1) st = drain u p n st' := by
  simp [drain, h]

theorem drain_token {u : CodecUnit} {p : Params} {st st' : Storage} {i : Instr} (n : Nat)
    (h : u.turn p st = .token i) (ht : u.token p i st = .ok st') :
    drain u p (n + 1) st = drain u p n st' := by
  simp [drain, h, ht]

theorem drain_token_error {u : CodecUnit} {p : Params} {st : Storage} {i : Instr} {e : ErrorKind} (n : Nat)
    (h : u.turn p st = .token i) (ht : u.token p i st = .error e) :
    drain u p (n + 1) st = (.error e, st) := by
  simp [drain, h, ht]

@[simp] theorem OutSeq.length_toList (o : OutSeq) : o.toList.length = o.length := by
  cases o <;> simp [OutSeq.toList, OutSeq.length]

/-! ### What a bus agent sees of memory -/

@[simp] theorem mem_overwritten (m : Memory) (a n : Nat) (u : Unseen) :
    u ∈ overwritten m a n ↔ (a ≤ u.addr ∧ u.addr < a + n) ∧ u.earlier = some (Memory.read m u.addr) := by
  simp only [overwritten, List.mem_map, List.mem_range'_1]
  constructor
  · rintro ⟨x, hx, rfl⟩
    exact ⟨hx, rfl⟩
  · rintro ⟨hx, he⟩
    exact ⟨u.addr, hx, by rw [← he]⟩

@[simp] theorem mem_unsettled (r : AddrRange) (u : Unseen) :
    u ∈ unsettled r ↔ (r.base ≤ u.addr ∧ u.addr < r.base + r.size) ∧ u.earlier = none := by
  simp only [unsettled, List.mem_map, List.mem_range'_1]
  constructor
  · rintro ⟨x, hx, rfl⟩
    exact ⟨hx, rfl⟩
  · rintro ⟨hx, he⟩
    exact ⟨u.addr, hx, by rw [← he]⟩

@[simp] theorem mem_earlierBytes (a : Nat) (s : State) (b : Option Byte) :
    b ∈ earlierBytes a s ↔ (⟨a, b⟩ : Unseen) ∈ s.unseen := by
  simp only [earlierBytes, List.mem_map, List.mem_filter, beq_iff_eq]
  constructor
  · rintro ⟨u, ⟨hu, rfl⟩, rfl⟩
    exact hu
  · exact fun h => ⟨_, ⟨h, rfl⟩, rfl⟩

/-- When a load returns a free byte. -/
theorem readsFreeByte_iff (a : Nat) (s : State) :
    readsFreeByte a s = true ↔
      inRunningDst s a = true ∨ (⟨a, none⟩ : Unseen) ∈ s.unseen ∨ deviceAt s.params a = true := by
  simp [readsFreeByte, or_assoc]

/-- A load that is not free returns the byte in memory or an earlier one that may still show. -/
theorem byteRead_visible {a : Nat} {s : State} (h : readsFreeByte a s = false) :
    byteRead a s = Memory.read s.mem a ∨ (⟨a, some (byteRead a s)⟩ : Unseen) ∈ s.unseen := by
  cases he : (earlierBytes a s).isEmpty
  case true => simp [byteRead, h, he]
  have hlen : Config.freePick s.draws a % (visibleBytes a s).length < (visibleBytes a s).length :=
    Nat.mod_lt _ (by simp [visibleBytes])
  have hmem : byteRead a s ∈ visibleBytes a s := by
    rw [byteRead, if_neg (by simp [h]), if_neg (by simp [he]), List.getD_eq_getElem _ _ hlen]
    exact List.getElem_mem _
  generalize byteRead a s = b at hmem ⊢
  simpa [visibleBytes] using hmem

/-- Where no end of a command is still to be seen, a load returns the byte in memory. -/
theorem byteRead_settled {a : Nat} {s : State} (h : readsFreeByte a s = false)
    (hu : ∀ u ∈ s.unseen, u.addr ≠ a) : byteRead a s = Memory.read s.mem a :=
  (byteRead_visible h).resolve_right fun hm => hu _ hm rfl

/-- A load answers a byte, or there is no memory at the address. -/
theorem memoryRead_cases (a : Nat) (s : State) :
    (memoryAt s.params a = true ∧ memoryRead a s = .next
        { s with
          memData := byteRead a s, draws := s.draws + 1, raced := s.raced || inRunningDst s a })
      ∨ (memoryAt s.params a = false ∧ memoryRead a s = .fault (.noMemoryAtAddress a)) := by
  unfold memoryRead
  cases memoryAt s.params a <;> simp

/-- A store changes one byte, or there is no memory at the address. -/
theorem memoryWrite_cases (a : Nat) (v : Byte) (s : State) :
    (memoryAt s.params a = true ∧ ∃ m us, memoryWrite a v s = .next
        { s with mem := m, raced := s.raced || inRunningRanges s a, unseen := us }
        ∧ (deviceAt s.params a = true → m = s.mem ∧ us = s.unseen)
        ∧ (deviceAt s.params a = false →
            m = Memory.write s.mem a v ∧ us = s.unseen.filter fun u => u.addr != a))
      ∨ (memoryAt s.params a = false ∧ memoryWrite a v s = .fault (.noMemoryAtAddress a)) := by
  unfold memoryWrite
  cases memoryAt s.params a
  · simp
  · exact .inl ⟨rfl, _, _, rfl, fun h => by simp [h], fun h => by simp [h]⟩

/-! ### The bus and the engine -/

/-- A register access acts on the register, or is refused by name. -/
theorem registerAccess_cases (addr bytes : Nat) (f : Reg → State → State) (s : State) :
    registerAccess addr bytes f s = .refused (.outsideRegisterBlock addr)
      ∨ registerAccess addr bytes f s = .refused (.registerAccess addr bytes)
      ∨ (bytes = 4 ∧ addr % 4 = 0 ∧ s.params.regBase ≤ addr + 3 ∧ addr < s.params.regBase + 64
          ∧ registerAccess addr bytes f s = .next (f (regAt (addr - s.params.regBase)) s)) := by
  unfold registerAccess
  split
  · exact .inl rfl
  · rename_i hout
    split
    · rename_i hw
      simp only [Bool.and_eq_true, decide_eq_true_eq] at hw
      simp only [Bool.or_eq_true, decide_eq_true_eq, not_or, not_le] at hout
      exact .inr (.inr ⟨hw.1, hw.2, by omega, hout.2, rfl⟩)
    · exact .inr (.inl rfl)

/-- An idle engine does nothing. -/
theorem engineMove_idle (whole : Bool) {s : State} (h : s.phase = .idle) :
    engineMove whole s = .next s := by simp [engineMove, h]

/-- A dispatched command that runs to its end is its `exec`. -/
theorem engineMove_dispatch {s : State} {i : Instr} (h : s.phase = .dispatch)
    (hd : decodeCommand s.cmd = .ok i) : engineMove true s = exec i s := by
  simp [engineMove, dispatchCommand, h, hd]

/-- A running command takes one turn of its unit. -/
theorem engineMove_running (whole : Bool) {s : State} {op : Instr} {u : CodecUnit}
    (h : s.phase = .running op) (hu : unitOf op = some u) :
    engineMove whole s = continueCommand op u s := by
  simp [engineMove, h, hu]

/-- A step whose next bus traffic is `op`. -/
theorem step_bus {s : State} {op : BusOp} {rest : List BusOp} (hp : s.params.legal = true)
    (hb : s.bus = op :: rest) : step s = busMove op (s.withBus rest) := by
  simp [step, move, hp, hb]

/-- A step with no bus traffic pending is the engine's. -/
theorem step_quiet {s : State} (hp : s.params.legal = true) (hb : s.bus = []) :
    step s = engineMove true s := by
  simp [step, move, hp, hb]

/-- A step with illegal parameters is refused (00_scope.md R8). -/
theorem step_illegal {s : State} (hp : s.params.legal = false) :
    step s = .refused .illegalParameters := by
  simp [step, move, hp]

end Sys2Proof.Machine
end

