-- ==== Sys2Proof/Laws/PerInstr.lean ====
section
/-! SUPPORT. Statements made once for each instruction. `EncodedSize`: the length of every instruction's
encoding, as 30_encoding.md R100 gives it. -/

namespace Sys2Proof.Laws

/-- The length in bits that 30_encoding.md R100 gives: 32 for a command word, 2 bytes for an RLE run, an LZ77
pointer and an LZW code, 1 byte for an LZ77 control byte and literal, and `1 + L` bytes for an RLE
literal of `L` bytes, 1 to 128. -/
def EncodedSize.Statement (i : Instr) : Prop :=
  i.wellFormed = true →
    (i.isCommand = true → (encode i).bits = 32)
    ∧ (∀ lits, i = .rleLit lits →
        (encode i).bits = 8 * (1 + lits.length) ∧ 1 ≤ lits.length ∧ lits.length ≤ 128)
    ∧ (∀ n b, i = .rleRun n b → (encode i).bits = 16)
    ∧ (∀ k, i = .lz77Ctrl k → (encode i).bits = 8)
    ∧ (∀ b, i = .lz77Lit b → (encode i).bits = 8)
    ∧ (∀ d l, i = .lz77Ptr d l → (encode i).bits = 16)
    ∧ (∀ c, i = .lzwCode c → (encode i).bits = 16)

/-- Commands: 32 bits. -/
theorem EncodedSize.hufC : EncodedSize.Statement .hufC := by simp [EncodedSize.Statement, encode, Image.bits]

theorem EncodedSize.hufD : EncodedSize.Statement .hufD := by simp [EncodedSize.Statement, encode, Image.bits]

theorem EncodedSize.rleC : EncodedSize.Statement .rleC := by simp [EncodedSize.Statement, encode, Image.bits]

theorem EncodedSize.rleD : EncodedSize.Statement .rleD := by simp [EncodedSize.Statement, encode, Image.bits]

theorem EncodedSize.lz77C : EncodedSize.Statement .lz77C := by simp [EncodedSize.Statement, encode, Image.bits]

theorem EncodedSize.lz77D : EncodedSize.Statement .lz77D := by simp [EncodedSize.Statement, encode, Image.bits]

theorem EncodedSize.lzwC : EncodedSize.Statement .lzwC := by simp [EncodedSize.Statement, encode, Image.bits]

theorem EncodedSize.lzwD : EncodedSize.Statement .lzwD := by simp [EncodedSize.Statement, encode, Image.bits]

theorem EncodedSize.broC : EncodedSize.Statement .broC := by simp [EncodedSize.Statement, encode, Image.bits]

theorem EncodedSize.broD : EncodedSize.Statement .broD := by simp [EncodedSize.Statement, encode, Image.bits]

theorem EncodedSize.contSer : EncodedSize.Statement .contSer := by
  simp [EncodedSize.Statement, encode, Image.bits]

theorem EncodedSize.contParse : EncodedSize.Statement .contParse := by
  simp [EncodedSize.Statement, encode, Image.bits]

/-- Tokens. -/
theorem EncodedSize.rleRun (n : BitVec 7) (b : Byte) : EncodedSize.Statement (.rleRun n b) := by
  simp [EncodedSize.Statement, encode, Image.bits, Instr.isCommand]

theorem EncodedSize.rleLit (lits : List Byte) : EncodedSize.Statement (.rleLit lits) := by
  simp only [EncodedSize.Statement, Instr.wellFormed, literalCountOk, Config.rleMaxLiteral, Bool.and_eq_true,
    decide_eq_true_eq]
  rintro ⟨h1, h2⟩
  refine ⟨by simp [Instr.isCommand], ?_, by simp, by simp, by simp, by simp, by simp⟩
  intro l hl
  cases hl
  refine ⟨?_, h1, of_decide_eq_true h2⟩
  simp [encode, Image.bits]
  omega

theorem EncodedSize.lz77Ctrl (k : Byte) : EncodedSize.Statement (.lz77Ctrl k) := by
  simp [EncodedSize.Statement, encode, Image.bits, Instr.isCommand]

theorem EncodedSize.lz77Lit (b : Byte) : EncodedSize.Statement (.lz77Lit b) := by
  simp [EncodedSize.Statement, encode, Image.bits, Instr.isCommand]

theorem EncodedSize.lz77Ptr (d : BitVec 12) (l : BitVec 4) : EncodedSize.Statement (.lz77Ptr d l) := by
  simp [EncodedSize.Statement, encode, Image.bits, Instr.isCommand, toBE16]

theorem EncodedSize.lzwCode (c : BitVec 16) : EncodedSize.Statement (.lzwCode c) := by
  simp [EncodedSize.Statement, encode, Image.bits, Instr.isCommand, toBE16]

end Sys2Proof.Laws
end

