-- ==== Sys2Proof/Tests/Slice0.lean ====
section
/-! SUPPORT. Small tests whose expected values come from the encodings of 30_encoding.md and the vectors of
95_test_vectors.md, and one witness for the hypotheses of each statement that has some. -/

namespace Sys2Proof.Tests

open Sys2Proof Sys2Proof.Machine

/- The tests run in the kernel; one after another they need few threads. -/
set_option Elab.async false

/-! ### Helpers -/

/-- Memory with bytes stored from an address on. -/
def putBytes (m : Memory) (a : Nat) : List Byte → Memory
  | [] => m
  | b :: bs => putBytes (m.write a b) (a + 1) bs

/-- The block of the vectors: `ADDR_WIDTH = 16` (95_test_vectors.md section 8). -/
def params16 : Params := { Params.default with addrWidth := 16 }

/-- A command that has been accepted: SRC at 0x100, DST at 0x200 with `cap` bytes, META at 0x180. -/
def dispatched (op : Instr) (src : List Byte) (cap : Word) : State :=
  { State.reset with
    cmd := commandWord op
    status := statusBusy
    phase := .dispatch
    params := params16
    mem := putBytes (putBytes [] 0x100 src) 0x180 [0x01, 0x02]
    latched := ⟨0x100, BitVec.ofNat 32 src.length, 0x200, cap, 0x180, 2⟩ }

/-- A decoder that is running, with `src` to read and `out` written so far. -/
def running (op : Instr) (src out : List Byte) : State :=
  { dispatched op src 0x40 with
    phase := .running op
    store := { Storage.blank with input := src, out := out, lz77 := ⟨0, 0, 8⟩ } }

/-- An idle block with one piece of bus traffic to come. -/
def withTraffic (op : BusOp) : State := { State.reset with params := params16, bus := [op] }

/-- What a test looks at: STATUS, `RESULT0`, `RESULT1` and the `OUT_LEN` bytes at 0x200. -/
def seen : Host.Outcome State Fault Refusal → Option (Word × Word × Word × List Byte)
  | .next t =>
    some (t.status, t.result0, t.result1, (List.range' 0x200 t.outLen.toNat).map (Memory.read t.mem))
  | .fault _ => none
  | .refused _ => none

/-- What a token leaves: the decoder's output, or STATUS when the token ended the command. -/
def tokenSeen : Host.Outcome State Fault Refusal → Option (Word × List Byte × Nat)
  | .next t => some (t.status, t.store.out, t.store.ip)
  | .fault _ => none
  | .refused _ => none

/-! ### Well-formedness: terms without an encoding are refused -/

theorem test_literal_of_no_bytes_refused : (Instr.rleLit []).wellFormed = false := by decide

theorem test_literal_of_129_bytes_refused :
    (Instr.rleLit (List.replicate 129 0)).wellFormed = false := by decide +kernel

theorem test_literal_of_128_bytes_accepted :
    (Instr.rleLit (List.replicate 128 0)).wellFormed = true := by decide +kernel

/-! ### Decoding, from words written out from 30_encoding.md R103, R110, R111, R113 to R116, R118 -/

theorem test_decode_huffman_words :
    decodeCommand 0b00000000000000000000000000000000#32 = .ok .hufC
      ∧ decodeCommand 0b00000000000000000000000000010000#32 = .ok .hufD := by decide

theorem test_decode_rle_words :
    decodeCommand 0b00000000000000000000000000000001#32 = .ok .rleC
      ∧ decodeCommand 0b00000000000000000000000000010001#32 = .ok .rleD := by decide

theorem test_decode_lz77_words :
    decodeCommand 0b00000000000000000000000000000010#32 = .ok .lz77C
      ∧ decodeCommand 0b00000000000000000000000000010010#32 = .ok .lz77D := by decide

theorem test_decode_lzw_words :
    decodeCommand 0b00000000000000000000000000000011#32 = .ok .lzwC
      ∧ decodeCommand 0b00000000000000000000000000010011#32 = .ok .lzwD := by decide

theorem test_decode_brotli_words :
    decodeCommand 0b00000000000000000000000000000100#32 = .ok .broC
      ∧ decodeCommand 0b00000000000000000000000000010100#32 = .ok .broD := by decide

theorem test_decode_container_words :
    decodeCommand 0b00000000000000000000000000000101#32 = .ok .contSer
      ∧ decodeCommand 0b00000000000000000000000000010101#32 = .ok .contParse := by decide

theorem test_decode_illegal_words :
    decodeCommand 0x00000006#32 = .error .illegalCommand
      ∧ decodeCommand 0x0000001F#32 = .error .illegalCommand
      ∧ decodeCommand 0x00000020#32 = .error .illegalCommand
      ∧ decodeCommand 0x80000000#32 = .error .illegalCommand := by decide

/-- `0nnnnnnn bbbbbbbb` with n = 3, b = 0x41 (RLE-S1). -/
theorem test_decode_rle_run :
    decodeToken .rle [0b00000011#8, 0b01000001#8, 0xFF] = .ok (.rleRun 3 0x41, [0xFF]) := by decide

/-- `1mmmmmmm` = 256 - 2, then two literals (RLE-V4). -/
theorem test_decode_rle_literal :
    decodeToken .rle [0b11111110#8, 0x41, 0x42, 0x01] = .ok (.rleLit [0x41, 0x42], [0x01]) := by decide

theorem test_decode_lz77_control :
    decodeToken .lz77Ctrl [0b00001000#8, 0x41] = .ok (.lz77Ctrl 0x08, [0x41]) := by decide

theorem test_decode_lz77_literal :
    decodeToken .lz77Lit [0b01000001#8] = .ok (.lz77Lit 0x41, []) := by decide

/-- `dddddddd ddddllll` with distance 4095 and length 3 (LZ-V12). -/
theorem test_decode_lz77_pointer :
    decodeToken .lz77Ptr [0b11111111#8, 0b11110011#8] = .ok (.lz77Ptr 4095 3, []) := by decide

theorem test_decode_lzw_code :
    decodeToken .lzw [0b00000001#8, 0b00000010#8] = .ok (.lzwCode 0x0102, []) := by decide

/-! ### The commands, on vectors of 95_test_vectors.md -/

/-- HUF-V3. -/
theorem test_hufC_two_symbols :
    seen (exec .hufC (dispatched .hufC [0x41, 0x42] 0x40))
      = some (2, 6, 2, [0, 0, 0, 0x0D, 6, 0, 2, 0x41, 0, 0, 0, 1, 0x42, 0, 0, 0, 1, 0x40]) := by
  decide +kernel

/-- HUF-E10: 18 bytes do not fit in 17. -/
theorem test_hufC_overflow :
    seen (exec .hufC (dispatched .hufC [0x41, 0x42] 17)) = some (0x66, 0, 0, []) := by decide +kernel

/-- HUF-V2: one symbol, repeated. -/
theorem test_hufD_single_symbol :
    seen (exec .hufD (dispatched .hufD [0, 0, 0, 8, 5, 0, 1, 0x41, 0, 0, 0, 3, 0] 0x40))
      = some (2, 5, 1, [0x41, 0x41, 0x41]) := by decide +kernel

/-- HUF-E8: more padding than payload. -/
theorem test_hufD_padding :
    seen (exec .hufD (dispatched .hufD
        [0, 0, 0, 0x0D, 1, 0, 2, 0x41, 0, 0, 0, 1, 0x42, 0, 0, 0, 1] 0x40))
      = some (0x56, 0, 0, []) := by decide +kernel

/-- RLE-S1. -/
theorem test_rleC_sample :
    seen (exec .rleC (dispatched .rleC [0x41, 0x41, 0x41, 0x41, 0x42] 0x40))
      = some (2, 0, 0, [0x03, 0x41, 0xFF, 0x42]) := by decide +kernel

/-- ENG-V3: DST at 0x102 overlaps SRC at 0x100. -/
theorem test_rleC_overlap :
    seen (exec .rleC { dispatched .rleC [1, 2, 3] 8 with latched := ⟨0x100, 3, 0x102, 8, 0, 0⟩ })
      = some (0x16, 0, 0, []) := by decide +kernel

theorem test_rleD_sample :
    seen (exec .rleD (dispatched .rleD [0x03, 0x41, 0xFF, 0x42] 0x40))
      = some (2, 0, 0, [0x41, 0x41, 0x41, 0x41, 0x42]) := by decide +kernel

/-- RLE-E2: a literal of 2 with 1 byte. -/
theorem test_rleD_truncated :
    seen (exec .rleD (dispatched .rleD [0xFE, 0x41] 0x40)) = some (0x56, 0, 0, []) := by decide +kernel

/-- LZ-V2: the tie at length 3 keeps the earliest start. -/
theorem test_lz77C_tie :
    seen (exec .lz77C (dispatched .lz77C
        [0x41, 0x42, 0x43, 0x78, 0x41, 0x42, 0x43, 0x79, 0x41, 0x42, 0x43] 0x40))
      = some (2, 0, 0, [0x50, 0x41, 0x42, 0x43, 0x78, 0x00, 0x43, 0x79, 0x00, 0x83]) := by decide +kernel

/-- LZ-V17: an overlapping copy. -/
theorem test_lz77D_overlap :
    seen (exec .lz77D (dispatched .lz77D [0x02, 0x41, 0x00, 0x15] 0x40))
      = some (2, 0, 0, [0x41, 0x41, 0x41, 0x41, 0x41, 0x41]) := by decide +kernel

/-- LZ-V14: a truncated pointer ends the stream. -/
theorem test_lz77D_lenient :
    seen (exec .lz77D (dispatched .lz77D [0xFF, 0x00] 0x40)) = some (2, 0, 0, []) := by decide +kernel

/-- LZW-V2. -/
theorem test_lzwC_sample :
    seen (exec .lzwC (dispatched .lzwC [0x41, 0x42, 0x41, 0x42, 0x41, 0x42, 0x41] 0x40))
      = some (2, 3, 4, [0x00, 0x41, 0x00, 0x42, 0x01, 0x00, 0x01, 0x02]) := by decide +kernel

/-- LZW-E5: no room for a first insertion. -/
theorem test_lzwC_full :
    seen (exec .lzwC { dispatched .lzwC [0x41, 0x42] 0x40 with
        params := { params16 with lzwDictCapacity := 256 } })
      = some (0x46, 0, 0, []) := by decide +kernel

/-- LZW-V6: the code that names the entry being inserted. -/
theorem test_lzwD_not_yet_known :
    seen (exec .lzwD (dispatched .lzwD [0x00, 0x41, 0x01, 0x00] 0x40))
      = some (2, 1, 2, [0x41, 0x41, 0x41]) := by decide +kernel

/-- LZW-E3. -/
theorem test_lzwD_beyond :
    seen (exec .lzwD (dispatched .lzwD [0x00, 0x41, 0x01, 0x01] 0x40)) = some (0x56, 0, 0, []) := by
  decide +kernel

/-- BRO-V1. -/
theorem test_brotli_words :
    seen (exec .broC (dispatched .broC [1] 8)) = some (0x36, 0, 0, [])
      ∧ seen (exec .broD (dispatched .broD [1] 8)) = some (0x36, 0, 0, []) := by decide +kernel

/-- CONT-V1. -/
theorem test_contSer_sample :
    seen (exec .contSer (dispatched .contSer [0xAA] 0x40))
      = some (2, 2, 1, [0x00, 0x00, 0x00, 0x02, 0x01, 0x02, 0xAA]) := by decide +kernel

/-- CONT-V1, the way back. -/
theorem test_contParse_sample :
    seen (exec .contParse (dispatched .contParse [0x00, 0x00, 0x00, 0x02, 0x01, 0x02, 0xAA] 0x40))
      = some (2, 2, 1, []) := by decide +kernel

/-- CONT-E2. -/
theorem test_contParse_too_long :
    seen (exec .contParse (dispatched .contParse [0x00, 0x00, 0x00, 0x04, 0x01, 0x02, 0x03] 0x40))
      = some (0x26, 0, 0, []) := by decide +kernel

/-! ### The tokens -/

/-- RLE-V12: control byte 0 is a run of 1. -/
theorem test_rleRun_of_one :
    tokenSeen (exec (.rleRun 0 0x41) (running .rleD [0x00, 0x41] [])) = some (1, [0x41], 2) := by decide

theorem test_rleLit_two :
    tokenSeen (exec (.rleLit [0x41, 0x42]) (running .rleD [0xFE, 0x41, 0x42] [0x40]))
      = some (1, [0x40, 0x41, 0x42], 3) := by decide

theorem test_lz77Ctrl_then_literal :
    tokenSeen (exec (.lz77Ctrl 0x02) (running .lz77D [0x02, 0x41] [])) = some (1, [], 1)
      ∧ tokenSeen (exec (.lz77Lit 0x41) (running .lz77D [0x41] [])) = some (1, [0x41], 1) := by decide

/-- LZ-V17's P(1, 5). -/
theorem test_lz77Ptr_overlap :
    tokenSeen (exec (.lz77Ptr 1 5) (running .lz77D [0x00, 0x15] [0x41]))
      = some (1, [0x41, 0x41, 0x41, 0x41, 0x41, 0x41], 2) := by decide

/-- LZ-E3: distance 0. -/
theorem test_lz77Ptr_distance_zero :
    (tokenSeen (exec (.lz77Ptr 0 3) (running .lz77D [0x00, 0x03] []))).map (·.1) = some 0x56 := by
  decide +kernel

/-- LZW-E2: a first code of 256. -/
theorem test_lzwCode_first :
    tokenSeen (exec (.lzwCode 0x0041) (running .lzwD [0x00, 0x41] [])) = some (1, [0x41], 2)
      ∧ (tokenSeen (exec (.lzwCode 0x0100) (running .lzwD [0x01, 0x00] []))).map (·.1) = some 0x56 := by
  decide +kernel

/-! ### Placing an instruction, and the step -/

/-- The very next step runs a placed command word. -/
theorem test_placed_command_runs :
    (match step (State.reset.withFetchWord 32 0x00000004) with
      | .next t => some (t.status, t.cmd)
      | _ => none) = some (0x36, 0x4) := by decide +kernel

/-- The very next step runs a placed token. -/
theorem test_placed_token_runs :
    tokenSeen (step (State.reset.withFetchWord 16 0x0341)) = some (1, [0x41, 0x41, 0x41, 0x41], 2) := by
  decide +kernel

/-- HAZ-V1: a write of `SRC_LEN` while BUSY is ignored. -/
theorem test_write_while_busy :
    (match step { dispatched .rleC [1] 8 with bus := [.regWrite 0x0C 4 7] } with
      | .next t => some (t.srcLen, t.phase)
      | _ => none) = some (0, .dispatch) := by decide

/-- A sub-word access is refused (20_memory.md R75). -/
theorem test_byte_access_refused :
    (match step (withTraffic (.regRead 0x04 1)) with
      | .refused (.registerAccess a n) => some (a, n)
      | _ => none) = some (4, 1) := by decide

/-- After RLE.C of one byte (RLE-V5) the two output bytes may still show what they held, the byte past them
may not, and a load while the command runs disturbs it (20_memory.md R81, R85). -/
theorem test_bus_agent_loads :
    (match exec .rleC (dispatched .rleC [0x41] 8) with
      | .next t => some (earlierBytes 0x201 t, earlierBytes 0x202 t)
      | _ => none) = some ([some 0], [])
      ∧ (match step { dispatched .rleC [0x41] 8 with bus := [.memRead 0x207] } with
          | .next t => some t.raced
          | _ => none) = some true := by decide +kernel

/-- A dictionary capacity below the seed is rejected (00_scope.md R8). -/
theorem test_small_dictionary_rejected :
    (match step { State.reset with params := { params16 with lzwDictCapacity := 255 } } with
      | .refused .illegalParameters => true
      | _ => false) = true := by decide

/-- The state of reset lists no memory, in canonical form. -/
theorem test_reset_memory : Memory.wf State.reset.mem = true := by decide

/-! ### Witnesses: the hypotheses of each statement, met together -/

theorem witness_EncodedInstructionDecodesBack :
    (Instr.rleLit [0xFF]).wellFormed = true ∧ (Instr.rleLit (List.replicate 128 1)).wellFormed = true := by
  decide +kernel

theorem witness_DecodedTokenIsItsEncoding :
    decodeToken .rle (0x80 :: List.replicate 129 0x07)
        = .ok (.rleLit (List.replicate 128 0x07), [0x07])
      ∧ decodeToken .rle [0x7F, 0x00] = .ok (.rleRun 127 0x00, []) := by decide +kernel

/-- An accepted RLE.C, with no bus traffic and with a turn left to the engine. -/
theorem witness_StepRunsDispatchedCommand :
    (dispatched .rleC [1] 8).params.legal = true ∧ (dispatched .rleC [1] 8).phase = .dispatch
      ∧ decodeCommand (dispatched .rleC [1] 8).cmd = .ok .rleC ∧ (dispatched .rleC [1] 8).bus = []
      ∧ ((dispatched .rleC [1] 8).withBus [.engine]).bus = [.engine] := by decide

/-- Each of the three running decoders before a token, with each kind of engine turn. -/
theorem witness_StepRunsDecodedToken :
    ((running .rleD [0x00, 0x41] []).withBus [.engine]).params.legal = true
      ∧ (running .rleD [0x00, 0x41] []).phase = .running .rleD
      ∧ decodeToken .rle [0x00, 0x41] = .ok (.rleRun 0 0x41, [])
      ∧ (running .lz77D [0x02] []).phase = .running .lz77D
      ∧ decodeToken (lz77Format (running .lz77D [0x02] []).store) [0x02] = .ok (.lz77Ctrl 0x02, [])
      ∧ (running .lzwD [0x00, 0x41] []).phase = .running .lzwD
      ∧ decodeToken .lzw [0x00, 0x41] = .ok (.lzwCode 0x41, [])
      ∧ ((running .lzwD [0x00, 0x41] []).withBus [.engineStep]).bus = [.engineStep] := by decide

/-- An accepted CONT.SER keeps the invariant and takes a step; so does the idle block. -/
theorem witness_EveryStepKeepsInvariant :
    (dispatched .contSer [0xAA] 0x40).inv = true
      ∧ step (dispatched .contSer [0xAA] 0x40) = exec .contSer (dispatched .contSer [0xAA] 0x40)
      ∧ State.reset.inv = true ∧ step State.reset = .next State.reset := by
  refine ⟨by decide +kernel, rfl, by decide, rfl⟩

theorem witness_StatusStaysLegal :
    statusLegal (dispatched .broC [] 0).status = true
      ∧ step (dispatched .broC [] 0) = .next (failCommand .unsupportedAlgorithm (dispatched .broC [] 0)) := by
  refine ⟨by decide, rfl⟩

theorem witness_ResetSetsEveryRegister :
    (withTraffic .reset).params.legal = true ∧ (withTraffic .reset).bus = [.reset] := by decide

/-- A running RLE.D is reset: the last byte of its DST range, the byte after it, and a byte of SRC. -/
theorem witness_ResetTouchesOnlyTheAbandonedDst :
    ((running .rleD [0x00, 0x41] []).withBus [.reset]).params.legal = true
      ∧ inRunningDst ((running .rleD [0x00, 0x41] []).withBus [.reset]) 0x23F = true
      ∧ backed params16 0x23F = true
      ∧ inRunningDst ((running .rleD [0x00, 0x41] []).withBus [.reset]) 0x240 = false
      ∧ accessingOp ((running .rleD [0x00, 0x41] []).withBus [.reset]) = some .rleD
      ∧ inRange (running .rleD [0x00, 0x41] []).latched.src 0x100 = true
      ∧ accessingOp ((dispatched .contSer [0xAA] 0x40).withBus [.reset]) = some .contSer
      ∧ usesMeta .contSer = true
      ∧ inRange (dispatched .contSer [0xAA] 0x40).latched.metadata 0x181 = true := by decide

/-- Offsets 0x00, 0x08, 0x1C, 0x20 and 0x3C, on an idle block and on a busy one. -/
theorem witness_RegisterWritesAndLatching :
    (withTraffic (.regWrite 0x00 4 0x11)).params.legal = true
      ∧ (withTraffic (.regWrite 0x08 4 7)).busy = false ∧ (withTraffic (.regWrite 0x1C 4 7)).busy = false
      ∧ (withTraffic (.regWrite 0x04 4 7)).busy = false ∧ (withTraffic (.regWrite 0x20 4 7)).busy = false
      ∧ (withTraffic (.regWrite 0x3C 4 7)).busy = false
      ∧ ((dispatched .rleC [1] 8).withBus [.regWrite 0x3C 4 7]).busy = true
      ∧ (withTraffic (.regWrite 0x1C 4 7)).bus
          = [.regWrite ((withTraffic (.regWrite 0x1C 4 7)).params.regBase + 0x1C) 4 7] := by decide

theorem witness_CommandWriteStartsOrIsIgnored :
    (withTraffic (.regWrite 0x00 4 0xFFFFFFFF)).params.legal = true
      ∧ (withTraffic (.regWrite 0x00 4 0xFFFFFFFF)).bus
          = [.regWrite (withTraffic (.regWrite 0x00 4 0xFFFFFFFF)).params.regBase 4 0xFFFFFFFF]
      ∧ (withTraffic (.regWrite 0x00 4 0xFFFFFFFF)).busy = false
      ∧ ((dispatched .rleC [1] 8).withBus [.regWrite 0 4 0x11]).busy = true := by decide

/-- The busy block and the idle one, read at the first offset, at a result, and at the last. -/
theorem witness_RegisterReadsBusyAndIdle :
    ((dispatched .rleC [1] 8).withBus [.regRead 0x00 4]).inv = true
      ∧ ((dispatched .rleC [1] 8).withBus [.regRead 0x28 4]).busy = true
      ∧ ((dispatched .rleC [1] 8).withBus [.regRead 0x3C 4]).bus
          = [.regRead ((dispatched .rleC [1] 8).params.regBase + 0x3C) 4]
      ∧ (withTraffic (.regRead 0x28 4)).inv = true ∧ (withTraffic (.regRead 0x28 4)).busy = false
      ∧ (withTraffic (.regRead 0x04 4)).bus
          = [.regRead ((withTraffic (.regRead 0x04 4)).params.regBase + 0x04) 4] := by decide +kernel

/-- A byte read, a misaligned write, an 8-byte write that begins below the block, and a dictionary of 255. -/
theorem witness_OddAccessAndIllegalParametersRefused :
    (withTraffic (.regRead 0x04 1)).params.legal = true
      ∧ (withTraffic (.regRead 0x04 1)).params.regBase < 0x04 + 1
      ∧ ({ withTraffic (.regWrite 0x3C 8 0) with params := { params16 with regBase := 0x40 } } : State).params.regBase
          < 0x3C + 8
      ∧ ({ params16 with lzwDictCapacity := 255 } : Params).lzwDictCapacity < 256
      ∧ (0x3C : Nat) < 0x40 + 64 ∧ (0x05 : Nat) % 4 ≠ 0 ∧ (0x05 : Nat) < 0 + 64 := by decide

/-- An idle block polled by WAIT. -/
theorem witness_IdleBlockStaysIdle :
    (withTraffic .wait).inv = true ∧ (withTraffic .wait).phase = .idle
      ∧ step (withTraffic .wait) = .next (registerRead .status (State.withBus (withTraffic .wait) []))
      ∧ (∀ a n v rest, (withTraffic .wait).bus ≠ .regWrite a n v :: rest)
      ∧ (∀ rest, (withTraffic .wait).bus ≠ .reset :: rest)
      ∧ (∀ a v rest, (withTraffic .wait).bus ≠ .memWrite a v :: rest) := by
  refine ⟨by decide, by decide, rfl, ?_, ?_, ?_⟩ <;> simp [withTraffic]

/-- The lowest reserved bit, and ALG = 6 with DIR = 1. -/
theorem witness_IllegalWordFails :
    (withTraffic (.regWrite 0 4 0x20)).params.legal = true ∧ (withTraffic (.regWrite 0 4 0x20)).busy = false
      ∧ (withTraffic (.regWrite 0 4 0x20)).bus = [.regWrite params16.regBase 4 0x20]
      ∧ 32 ≤ (0x20#32).toNat ∧ 6 ≤ (0x16#32).toNat % 16 := by decide

theorem witness_EveryDispatchedWordCompletes :
    (dispatched .lzwD [] 0).params.legal = true ∧ (dispatched .lzwD [] 0).phase = .dispatch
      ∧ (dispatched .lzwD [] 0).bus = [] := by decide

theorem witness_StepwiseRunReachesWholeRun :
    (dispatched .rleD [0x00, 0x41] 8).params.legal = true ∧ (dispatched .rleD [0x00, 0x41] 8).phase = .dispatch
      ∧ decodeCommand (dispatched .rleD [0x00, 0x41] 8).cmd = .ok .rleD := by decide

theorem witness_NoInternalStateSurvives : Instr.isCommand .hufD = true := by decide

theorem witness_PseudoInstructionRunsItsCommand :
    Instr.isCommand .contSer = true ∧ (withTraffic .wait).inv = true ∧ (withTraffic .wait).phase = .idle := by
  decide

/-- DST overlaps SRC. -/
theorem witness_RangeChecksFailInvalidInput :
    Instr.rleC ∈ implemented ∧ validRanges .rleC params16 ⟨0x100, 3, 0x102, 8, 0, 0⟩ = false
      ∧ validRanges .contParse params16 ⟨0x100, 3, 0x102, 8, 0, 0⟩ = true
      ∧ validRanges .contSer params16 ⟨0xFFFF, 1, 0x200, 0, 0x10000, 0⟩ = true
      ∧ validRanges .contSer params16 ⟨0xFFFF, 1, 0x200, 0, 0x10000, 1⟩ = false := by decide

/-- What `Ready` asks of an accepted RLE.C. -/
theorem ready_rleC : Ready .rleC (dispatched .rleC [0x41] 2) ⟨[], [0x41]⟩ := by
  refine ⟨?_, ?_, ?_⟩ <;> decide +kernel

/-- The output of two bytes fits exactly. -/
theorem witness_ReadyCommandCompletes :
    unitOf .rleC = some rleCUnit ∧ Ready .rleC (dispatched .rleC [0x41] 2) ⟨[], [0x41]⟩
      ∧ rleCUnit.codec params16 ⟨[], [0x41]⟩ = .ok ⟨.bytes [0xFF, 0x41], 0, 0⟩
      ∧ 2 ≤ (dispatched .rleC [0x41] 2).latched.dstCap.toNat
      ∧ OutputBacked (dispatched .rleC [0x41] 2) 2
      ∧ Memory.wf (dispatched .rleC [0x41] 2).mem = true := by
  refine ⟨rfl, ready_rleC, by decide +kernel, by decide, fun k _ => rfl, by decide⟩

/-- A codec error, and an output one byte too long. -/
theorem witness_CodecErrorsAndOverflowAreReported :
    unitOf .rleD = some rleDUnit ∧ Ready .rleD (dispatched .rleD [0x7F] 8) ⟨[], [0x7F]⟩
      ∧ rleDUnit.codec params16 ⟨[], [0x7F]⟩ = .error .malformedPayload
      ∧ Ready .rleC (dispatched .rleC [0x41] 1) ⟨[], [0x41]⟩
      ∧ rleCUnit.codec params16 ⟨[], [0x41]⟩ = .ok ⟨.bytes [0xFF, 0x41], 0, 0⟩
      ∧ (dispatched .rleC [0x41] 1).latched.dstCap.toNat < (OutSeq.bytes [0xFF, 0x41]).length := by
  refine ⟨rfl, ⟨?_, ?_, ?_⟩, ?_, ⟨?_, ?_, ?_⟩, ?_, ?_⟩ <;> decide +kernel

/-- An accepted RLE.C on a platform that leaves one address unbacked. -/
def unbackedAt (a : Nat) : State :=
  { dispatched .rleC [0x41] 2 with params := { params16 with unbacked := [⟨a, 1⟩] } }

theorem witness_BusErrorsFailInvalidInput :
    unitOf .rleC = some rleCUnit ∧ validRanges .rleC (unbackedAt 0x100).params (unbackedAt 0x100).latched = true
      ∧ disturbed .rleC (unbackedAt 0x100) = false ∧ readInputs .rleC (unbackedAt 0x100) = none
      ∧ readInputs .rleC (unbackedAt 0x201) = some ⟨[], [0x41]⟩
      ∧ rleCUnit.codec (unbackedAt 0x201).params ⟨[], [0x41]⟩ = .ok ⟨.bytes [0xFF, 0x41], 0, 0⟩
      ∧ ¬ OutputBacked (unbackedAt 0x201) (OutSeq.bytes [0xFF, 0x41]).length := by
  refine ⟨rfl, ?_, ?_, ?_, ?_, ?_, fun h => absurd (h 1 (by decide)) (by decide)⟩ <;> decide +kernel

theorem witness_DisturbedCommandEndsUnspecified :
    Instr.hufC ∈ implemented ∧ validRanges .hufC params16 (dispatched .hufC [1] 8).latched = true
      ∧ disturbed .hufC { dispatched .hufC [1] 8 with raced := true } = true
      ∧ disturbed .hufC { dispatched .hufC [1] 8 with params := { params16 with devices := [⟨0x207, 1⟩] } }
          = true := by decide

/-- A store to the last byte of a running command's DST range, a load of it, of the byte after it, of a byte
that a command left any value and of one it overwrote, and an address with no memory. -/
theorem witness_MemoryAccessDisturbsOnlyItsCommand :
    ((dispatched .rleC [1] 8).withBus [.memWrite 0x207 5]).inv = true
      ∧ 0x207 < 2 ^ params16.addrWidth ∧ backed params16 0x207 = true ∧ deviceAt params16 0x207 = false
      ∧ accessingOp ((dispatched .rleC [1] 8).withBus [.memWrite 0x207 5]) = some .rleC
      ∧ inRange (dispatched .rleC [1] 8).latched.dst 0x207 = true
      ∧ inRange (dispatched .rleC [1] 8).latched.dst 0x208 = false
      ∧ ((dispatched .rleC [1] 8).withBus [.memRead 0x207]).params.legal = true
      ∧ inRunningDst ((dispatched .rleC [1] 8).withBus [.memRead 0x207]) 0x207 = true
      ∧ inRunningDst ((dispatched .rleC [1] 8).withBus [.memRead 0x208]) 0x208 = false
      ∧ (⟨0x207, none⟩ : Unseen)
          ∈ (failAfterAccess .rleC .outputOverflow (dispatched .rleC [1] 8)).unseen
      ∧ (⟨0x207, none⟩ : Unseen) ∉ ({ withTraffic (.memRead 0x207) with unseen := [⟨0x207, some 5⟩] } : State).unseen
      ∧ 2 ^ params16.addrWidth ≤ 0x10000 ∧ (withTraffic (.memRead 0x10000)).params.legal = true := by
  decide +kernel

/-- The clause about a success. -/
theorem witness_MemoryAccess_success :
    unitOf .rleC = some rleCUnit ∧ Ready .rleC (dispatched .rleC [0x41] 2) ⟨[], [0x41]⟩
      ∧ rleCUnit.codec params16 ⟨[], [0x41]⟩ = .ok ⟨.bytes [0xFF, 0x41], 0, 0⟩
      ∧ OutputBacked (dispatched .rleC [0x41] 2) 2 :=
  ⟨rfl, ready_rleC, by decide +kernel, fun _ _ => rfl⟩

theorem witness_HuffmanRoundTrip : ([0x41, 0x42] : List Byte).length < 2 ^ 32 := by decide

/-- One symbol with the largest count, and two symbols. -/
theorem witness_CodeTableIsPrefixFree :
    rowsLegal [(0x41, 0xFFFFFFFF)] = true ∧ rowsLegal [(0x00, 1), (0xFF, 2)] = true
      ∧ codeTable (buildTree [(0x41, 0xFFFFFFFF)]) = [(0x41, [false])]
      ∧ ((0x00, [false]) : Byte × List Bool) ∈ codeTable (buildTree [(0x00, 1), (0xFF, 2)])
      ∧ ((0xFF, [true]) : Byte × List Bool) ∈ codeTable (buildTree [(0x00, 1), (0xFF, 2)]) := by decide

theorem witness_CodeLengthsAreBounded :
    rowsLegal [(0x00, 1), (0xFF, 2)] = true
      ∧ ((0xFF, [true]) : Byte × List Bool) ∈ codeTable (buildTree [(0x00, 1), (0xFF, 2)])
      ∧ rowsLegal [(0x41, 1)] = true
      ∧ ((0x41, [false]) : Byte × List Bool) ∈ codeTable (buildTree [(0x41, 1)]) := by decide

theorem witness_TreeFrequencyIsExact :
    rowsLegal [(0x00, 0xFFFFFFFF), (0xFF, 0xFFFFFFFF)] = true
      ∧ (buildTree [(0x00, 0xFFFFFFFF), (0xFF, 0xFFFFFFFF)]).freq.toNat = 0x1FFFFFFFE := by decide

theorem witness_ExtractMinTakesTheFirstNode :
    extractMin [.leaf 0x41 2 0, .leaf 0x42 1 1] = some (.leaf 0x42 1 1, [.leaf 0x41 2 0]) := by decide

/-- Legal alphabets, a blob that decodes and one that does not (HUF-E4), and payloads of two symbols: the codes
of both, bits that end inside a code (HUF-E9's way), and padding without a payload (HUF-E8). -/
theorem witness_MetadataAndMalformedHuffmanInputs :
    (7 : Nat) ≤ 7 ∧ rowsLegal [(0x41, 1)] = true ∧ rowsLegal [(0x00, 1), (0xFF, 0xFFFFFFFF)] = true
      ∧ metaDecode [0x00, 0x00, 0x01, 0x41, 0, 0, 0, 1] = .ok (0, [(0x41, 1)])
      ∧ metaDecode [0x08, 0x00, 0x01, 0x41, 0, 0, 0, 1] = .error .malformedContainer
      ∧ parse [0x00, 0x00, 0x00] = .error .malformedContainer
      ∧ parse [0x00, 0x00, 0x00, 0x00, 0x05] = .ok ⟨0, [], [0x05]⟩
      ∧ metaDecode [] = .error .malformedContainer
      ∧ payloadBits [0x40] 6
          = [0x41, 0x42].flatMap (codeOf (codeTable (buildTree [(0x41, 1), (0x42, 1)])))
      ∧ 8 * ([] : List Byte).length < 1
      ∧ codeTable (buildTree [(0x41, 1), (0x42, 1), (0x43, 1)])
          = [(0x43, [false]), (0x41, [true, false]), (0x42, [true, true])]
      ∧ payloadBits [0x80] 7 = [true] := by decide +kernel

/-- The bit 1 alone is no sequence of the codes 0, 10 and 11. -/
theorem witness_MalformedHuffman_inside_a_code :
    ¬ ∃ xs : List Byte, (∀ x ∈ xs, x ∈ [(0x41, (1 : Word)), (0x42, 1), (0x43, 1)].map Prod.fst)
      ∧ payloadBits [0x80] 7 = xs.flatMap (codeOf (codeTable (buildTree [(0x41, 1), (0x42, 1), (0x43, 1)]))) := by
  have hb : payloadBits [0x80] 7 = [true] := by decide
  have hc : codeTable (buildTree [(0x41, 1), (0x42, 1), (0x43, 1)])
      = [(0x43, [false]), (0x41, [true, false]), (0x42, [true, true])] := by decide
  rw [hb, hc]
  rintro ⟨xs, hx, h⟩
  cases xs with
  | nil => simp at h
  | cons x xs =>
    have hx' := hx x (by simp)
    simp only [List.map_cons, List.map_nil, List.mem_cons, List.not_mem_nil, or_false] at hx'
    rcases hx' with rfl | rfl | rfl <;> simp [codeOf] at h

theorem witness_SingleSymbolRepeats : (3 : Word) ≠ 0 ∧ (5 : Nat) ≤ 7 := by decide

theorem witness_HufCReportsLengthPaddingAndK :
    ([0x41] : List Byte) ≠ [] ∧ ([0x41] : List Byte).length < 2 ^ 32 := by decide

theorem witness_EmptyInputGivesEmptyOutput :
    lzwDUnit ∈ [hufCUnit, hufDUnit, rleCUnit, rleDUnit, lz77CUnit, lz77DUnit, lzwCUnit, lzwDUnit] := by simp

/-- A run of 128 in 129 equal bytes, and a run of 1. -/
theorem witness_RunLengthIsMaximal :
    0 < (List.replicate 129 (0x00 : Byte)).length ∧ runLen (List.replicate 129 0x00) = 128
      ∧ runLen ([0x41, 0x42].drop 0) = 1 := by decide +kernel

/-- A literal that stops before a pair, one at the end of the input, and one of 128 bytes. -/
theorem witness_LiteralStopsBeforeAPair :
    runLen ([0x41, 0x42, 0x43, 0x43].drop 0) = 1 ∧ litLen 128 ([0x41, 0x42, 0x43, 0x43].drop 0) = 2
      ∧ runLen ([0x41, 0x41, 0x42].drop 2) = 1 ∧ litLen 128 ([0x41, 0x41, 0x42].drop 2) = 1
      ∧ runLen ((List.range 129).map (BitVec.ofNat 8)) = 1
      ∧ litLen 128 ((List.range 129).map (BitVec.ofNat 8)) = 128 := by decide +kernel

/-- Control bytes 0x7F and 0x80, whole and truncated. -/
theorem witness_RleStepFollowsItsControlByte :
    (running .rleD [0x7F, 0x41] []).params.legal = true ∧ (running .rleD [0x7F, 0x41] []).bus = []
      ∧ (running .rleD [0x7F, 0x41] []).phase = .running .rleD
      ∧ (running .rleD [0x7F, 0x41] []).store.input.drop (running .rleD [0x7F, 0x41] []).store.ip
          = [0x7F, 0x41]
      ∧ (0x7F#8).toNat ≤ 127 ∧ 128 ≤ (0x80#8).toNat
      ∧ 256 - (0x80#8).toNat ≤ (List.replicate 128 (0x01 : Byte)).length
      ∧ (List.replicate 127 (0x01 : Byte)).length < 256 - (0x80#8).toNat
      ∧ disturbed .rleD (running .rleD [0x7F] []) = false := by decide +kernel

theorem witness_MatchLengthIsMaximal :
    (0 : Nat) < 1 ∧ 1 < (List.replicate 20 (0x41 : Byte)).length
      ∧ matchLen (List.replicate 20 0x41) 0 1 = 15 := by decide

/-- LZ-V2's tie, and the empty window at position 0. -/
theorem witness_BestMatchIsLongestAndEarliest :
    bestMatch [0x41, 0x42, 0x43, 0x78, 0x41, 0x42, 0x43, 0x79, 0x41, 0x42, 0x43] 8 = (3, 8)
      ∧ bestMatch [0x41] 0 = (0, 0) := by decide

/-- A pointer to the first byte of the output, one beyond it, and one of distance 0. -/
theorem witness_PointerCopiesOrIsMalformed :
    1 ≤ (2#12).toNat ∧ (2#12).toNat ≤ (running .lz77D [0x00, 0x23] [0x41, 0x42]).store.out.length
      ∧ (running .lz77D [0x00, 0x33] [0x41, 0x42]).store.out.length < (3#12).toNat
      ∧ (0#12).toNat = 0 ∧ disturbed .lz77D (running .lz77D [0x00, 0x33] [0x41, 0x42]) = false := by decide

/-- A running LZ77.D with nothing left, and one with half a pointer left. -/
theorem witness_TruncatedLz77StreamEndsWell :
    (running .lz77D [] [0x41]).params.legal = true ∧ (running .lz77D [] [0x41]).bus = []
      ∧ (running .lz77D [] [0x41]).phase = .running .lz77D
      ∧ (running .lz77D [] [0x41]).store.input.length ≤ (running .lz77D [] [0x41]).store.ip
      ∧ (lz77CtrlEffect 0xFF params16 (running .lz77D [0xFF, 0x00] [0x41]).store).toOption.map
          (fun st => (st.ip + 1 == st.input.length && decide (st.lz77.decision < 8)
            && st.lz77.ctrl.getLsbD st.lz77.decision)) = some true
      ∧ disturbed .lz77D (running .lz77D [] [0x41]) = false
      ∧ (running .lz77D [] [0x41]).store.out.length ≤ (running .lz77D [] [0x41]).latched.dstCap.toNat
      ∧ OutputBacked (running .lz77D [] [0x41]) 1
      ∧ Memory.wf (running .lz77D [] [0x41]).mem = true := by
  refine ⟨?_, ?_, ?_, ?_, ?_, ?_, ?_, fun k _ => rfl, ?_⟩ <;> decide

/-- LZW.C's answer on `AB`. -/
theorem witness_LzwRoundTrip :
    lzwCUnit.codec params16 (srcOnly [0x41, 0x42]) = .ok ⟨.bytes [0x00, 0x41, 0x00, 0x42], 1, 2⟩
      ∧ (2 : Nat) ≤ 65281 := by decide +kernel

theorem witness_LzwCountsAgree :
    lzwCUnit.codec params16 (srcOnly [0x41]) = .ok ⟨.bytes [0x00, 0x41], 0, 1⟩ ∧ ([0x41] : List Byte) ≠ [] := by
  decide +kernel

/-- The two errors, each with a dictionary that holds the seed only, and an odd length. -/
theorem witness_LzwErrorsNeedAFullStoreOrABadStream :
    lzwCUnit.codec { params16 with lzwDictCapacity := 256 } (srcOnly [0x41, 0x42]) = .error .dictionaryOverflow
      ∧ lzwDUnit.codec { params16 with lzwDictCapacity := 256 } (srcOnly [0x00, 0x41, 0x00, 0x42])
          = .error .dictionaryOverflow
      ∧ ([0x00, 0x41, 0x01] : List Byte).length % 2 = 1 := by decide +kernel

/-- An entry whose prefix is the last seed, and one whose prefix is that entry. -/
theorem witness_DictionaryStringFollowsItsPrefix :
    ∀ k pid c, ([(255, 0x41), (256, 0x42)] : List (Nat × Byte))[k]? = some (pid, c) → pid < 256 + k := by
  intro k pid c h
  match k, h with
  | 0, h => simp at h; omega
  | 1, h => simp at h; omega
  | k + 2, h => simp at h

theorem witness_FirstCodeNamesASeed :
    (running .lzwD [0x00, 0xFF] []).store.lzw.ncodes = 0 ∧ (0x00FF#16).toNat < 256
      ∧ 256 ≤ (0x0100#16).toNat ∧ disturbed .lzwD (running .lzwD [0x01, 0x00] []) = false := by decide

/-- A running LZW.D that has taken the code of `A`. -/
def afterFirst (capacity : Nat) : State :=
  { running .lzwD [] [0x41] with
    params := { params16 with lzwDictCapacity := capacity }
    store := { Storage.blank with out := [0x41], lzw := ⟨[], none, [], [0x41], 0x41, 1⟩ } }

/-- The last known code, the entry being inserted, one beyond it; with room and without. -/
theorem witness_LaterCodeExtendsTheDictionary :
    (afterFirst 257).store.lzw.ncodes ≠ 0
      ∧ (0x00FF#16).toNat < 256 + (afterFirst 257).store.lzw.entries.length
      ∧ (0x0100#16).toNat = 256 + (afterFirst 257).store.lzw.entries.length
      ∧ 256 + (afterFirst 257).store.lzw.entries.length < (0x0101#16).toNat
      ∧ 256 + (afterFirst 257).store.lzw.entries.length ≠ (afterFirst 257).params.lzwDictCapacity
      ∧ 256 + (afterFirst 256).store.lzw.entries.length = (afterFirst 256).params.lzwDictCapacity
      ∧ disturbed .lzwD (afterFirst 256) = false := by decide

theorem witness_ParseInvertsSerialize :
    ([0x01, 0x02] : List Byte).length ≤ 2 ^ 32 - 1
      ∧ Ready .contParse (dispatched .contParse (serialize [0x01, 0x02] [0xAA]) 0)
          ⟨[], serialize [0x01, 0x02] [0xAA]⟩ := by
  refine ⟨?_, ?_, ?_, ?_⟩ <;> decide +kernel

/-- Seven bytes into a DST range of seven, and into one of six. -/
theorem witness_ContSerFramesMetaAndSrc :
    Ready .contSer (dispatched .contSer [0xAA] 7) ⟨[0x01, 0x02], [0xAA]⟩
      ∧ Memory.wf (dispatched .contSer [0xAA] 7).mem = true
      ∧ 4 + 2 + 1 ≤ (dispatched .contSer [0xAA] 7).latched.dstCap.toNat
      ∧ OutputBacked (dispatched .contSer [0xAA] 7) 7
      ∧ Ready .contSer (dispatched .contSer [0xAA] 6) ⟨[0x01, 0x02], [0xAA]⟩
      ∧ (dispatched .contSer [0xAA] 6).latched.dstCap.toNat < 4 + 2 + 1 := by
  refine ⟨⟨?_, ?_, ?_⟩, ?_, ?_, fun k _ => rfl, ⟨?_, ?_, ?_⟩, ?_⟩ <;> decide +kernel

/-- A container that holds just its metadata, one that declares a byte too many, and one of three bytes. -/
theorem witness_ContParseReportsLengths :
    Ready .contParse (dispatched .contParse [0x00, 0x00, 0x00, 0x01, 0x05] 0) ⟨[], [0x00, 0x00, 0x00, 0x01, 0x05]⟩
      ∧ (be32 0x00 0x00 0x00 0x01).toNat ≤ ([0x05] : List Byte).length
      ∧ Ready .contParse (dispatched .contParse [0x00, 0x00, 0x00, 0x01] 0) ⟨[], [0x00, 0x00, 0x00, 0x01]⟩
      ∧ ([] : List Byte).length < (be32 0x00 0x00 0x00 0x01).toNat
      ∧ Ready .contParse (dispatched .contParse [0x00, 0x00, 0x00] 0) ⟨[], [0x00, 0x00, 0x00]⟩
      ∧ ([0x00, 0x00, 0x00] : List Byte).length < 4 := by
  refine ⟨⟨?_, ?_, ?_⟩, ?_, ⟨?_, ?_, ?_⟩, ?_, ⟨?_, ?_, ?_⟩, ?_⟩ <;> decide +kernel

end Sys2Proof.Tests
end

section
/-! SUPPORT. Internal storage does not reach the end of a command (10_state.md R55). A codec unit works on a
part of the storage, which its initialisation sets (`FactorsThrough`); so the answer of its codec function is
`CodecUnit.codec`, whatever the storage held (`Stateless`), and a command ends as that answer says
(`runCommand_ready`, `exec_unit`). -/

namespace Sys2Proof.Machine

/-! ### Ends of a command, with other storage -/

theorem sameButStore_withStore (s : State) (a b : Storage) :
    SameButStore (s.withStore a) (s.withStore b) := rfl

theorem State.withStore_self (s : State) : s.withStore s.store = s := rfl

@[simp] theorem disturbed_withStore (op : Instr) (s : State) (st : Storage) :
    disturbed op (s.withStore st) = disturbed op s := rfl

@[simp] theorem failCommand_withStore (e : ErrorKind) (s : State) (st : Storage) :
    failCommand e (s.withStore st) = (failCommand e s).withStore st := rfl

@[simp] theorem spoiled_withStore (op : Instr) (s : State) (st : Storage) :
    spoiled op (s.withStore st) = (spoiled op s).withStore st := by
  unfold spoiled
  cases usesDst op <;> rfl

@[simp] theorem failAfterAccess_withStore (op : Instr) (e : ErrorKind) (s : State) (st : Storage) :
    failAfterAccess op e (s.withStore st) = (failAfterAccess op e s).withStore st := by
  simp [failAfterAccess]

@[simp] theorem unspecifiedEnd_withStore (op : Instr) (s : State) (st : Storage) :
    unspecifiedEnd op (s.withStore st) = (unspecifiedEnd op s).withStore st := by
  simp only [unspecifiedEnd, spoiled_withStore]
  rfl

/-- An output longer than `DST_CAP` (44_container.md R285). -/
theorem conclude_overflow {op : Instr} {o : Output} {s : State} (hd : disturbed op s = false)
    (hu : usesDst op = true) (hlen : s.latched.dstCap.toNat < o.out.length) :
    conclude op (.ok o) s = failAfterAccess op .outputOverflow s := by
  simp [conclude, hd, hu, hlen]

/-- A bus error on an output write (44_container.md R284). -/
theorem conclude_unwritten {op : Instr} {o : Output} {s : State} (hd : disturbed op s = false)
    (hlen : ¬ (usesDst op = true ∧ s.latched.dstCap.toNat < o.out.length))
    (hw : writeBytes s.params s.mem s.latched.dstAddr.toNat o.out.toList = none) :
    conclude op (.ok o) s = failAfterAccess op .invalidInput s := by
  have hn : ¬ (decide (s.latched.dstCap.toNat < o.out.length) && usesDst op) = true := by
    simpa [and_comm] using hlen
  simp only [conclude, hd, Bool.false_eq_true, if_false, hn, hw]

/-- How a command ends does not depend on the storage, and leaves it. -/
@[simp] theorem conclude_withStore (op : Instr) (r : Except ErrorKind Output) (s : State) (st : Storage) :
    conclude op r (s.withStore st) = (conclude op r s).withStore st := by
  cases hd : disturbed op s
  case true => simp [conclude, hd]
  cases r with
  | error e => simp [conclude, hd]
  | ok o =>
    by_cases hlen : usesDst op = true ∧ s.latched.dstCap.toNat < o.out.length
    · rw [conclude_overflow hd hlen.1 hlen.2, conclude_overflow (s := s.withStore st) hd hlen.1 hlen.2,
        failAfterAccess_withStore]
    · cases hw : writeBytes s.params s.mem s.latched.dstAddr.toNat o.out.toList with
      | none =>
        rw [conclude_unwritten hd hlen hw, conclude_unwritten (s := s.withStore st) hd hlen hw,
          failAfterAccess_withStore]
      | some m =>
        have hfit : usesDst op = true → o.out.length ≤ s.latched.dstCap.toNat :=
          fun hu => not_lt.mp fun hlt => hlen ⟨hu, hlt⟩
        rw [conclude_ok hd hfit hw, conclude_ok (s := s.withStore st) hd hfit hw]
        rfl

/-! ### The part of the storage that a unit works on -/

/-- A turn, seen through a view of the storage. -/
def Turn.map (view : Storage → Storage) : Turn → Turn
  | .finished => .finished
  | .failed e => .failed e
  | .work st => .work (view st)
  | .token i => .token i

/-- A unit works on what `view` keeps of the storage: initialised from any storage that part is the same, and
every step, token and result depends on it alone. So does the bound on the steps, where one is to be taken. -/
structure CodecUnit.FactorsThrough (u : CodecUnit) (view : Storage → Storage) : Prop where
  init : ∀ p inp st, (u.init p inp st).map view = (u.init p inp .blank).map view
  turn : ∀ p st, u.turn p (view st) = (u.turn p st).map view
  token : ∀ p i st, u.token p i (view st) = (u.token p i st).map view
  output : ∀ st, u.output (view st) = u.output st
  fuel : ∀ p st, u.turn p st = .finished ∨ u.fuel (view st) = u.fuel st

/-- The answer of a unit's codec function, initialised from storage that holds `st`. -/
def CodecUnit.codecFrom (u : CodecUnit) (p : Params) (inp : Inputs) (st : Storage) : Except ErrorKind Output :=
  match u.init p inp st with
  | .error e => .error e
  | .ok st' => u.answer (drain u p (u.fuel st') st')

theorem CodecUnit.codecFrom_blank (u : CodecUnit) (p : Params) (inp : Inputs) :
    u.codecFrom p inp .blank = u.codec p inp := rfl

/-- A unit's codec function is the pure function of 00_scope.md R12, whatever the storage held before. -/
def CodecUnit.Stateless (u : CodecUnit) : Prop :=
  ∀ p inp st, u.codecFrom p inp st = u.codec p inp

namespace CodecUnit.FactorsThrough

variable {u : CodecUnit} {view : Storage → Storage}

/-- Running a unit commutes with the view. -/
theorem drain_view (h : u.FactorsThrough view) (p : Params) (n : Nat) (st : Storage) :
    drain u p n (view st) = ((drain u p n st).1, view (drain u p n st).2) := by
  induction n generalizing st with
  | zero => rfl
  | succ n ih =>
    have hv := h.turn p st
    cases ht : u.turn p st with
    | finished =>
      rw [ht] at hv
      rw [drain_finished _ hv, drain_finished _ ht]
    | failed e =>
      rw [ht] at hv
      rw [drain_failed _ hv, drain_failed _ ht]
    | work st' =>
      rw [ht] at hv
      rw [drain_work _ hv, drain_work _ ht, ih]
    | token i =>
      rw [ht] at hv
      have hk := h.token p i st
      cases hi : u.token p i st with
      | error e =>
        rw [hi] at hk
        rw [drain_token_error _ hv hk, drain_token_error _ ht hi]
      | ok st' =>
        rw [hi] at hk
        rw [drain_token _ hv hk, drain_token _ ht hi, ih]

/-- The answer of a run does not change when the run starts from the view. -/
theorem answer_drain_view (h : u.FactorsThrough view) (p : Params) (n : Nat) (st : Storage) :
    u.answer (drain u p n (view st)) = u.answer (drain u p n st) := by
  rw [h.drain_view, CodecUnit.answer, CodecUnit.answer, h.output]

/-- A whole run, its own bound on the steps included, depends on the view alone. -/
theorem answer_run_view (h : u.FactorsThrough view) (p : Params) (st : Storage) :
    u.answer (drain u p (u.fuel (view st)) (view st)) = u.answer (drain u p (u.fuel st) st) := by
  rw [h.answer_drain_view]
  rcases h.fuel p st with ht | hf
  · rw [drain_finished _ ht, drain_finished _ ht]
  · rw [hf]

theorem stateless (h : u.FactorsThrough view) : u.Stateless := by
  intro p inp st
  rw [← u.codecFrom_blank]
  unfold codecFrom
  have hi := h.init p inp st
  cases h1 : u.init p inp st <;> cases h2 : u.init p inp .blank <;> rw [h1, h2] at hi
  case error.error e e' =>
    injection hi with he
    rw [he]
  case ok.ok a b =>
    injection hi with hab
    simp only
    rw [← h.answer_run_view, hab, h.answer_run_view]
  all_goals contradiction

end CodecUnit.FactorsThrough

/-! ### The part that each unit works on -/

/-- The input, the input cursor and the output sequence. -/
def streamView (st : Storage) : Storage := { Storage.blank with input := st.input, ip := st.ip, out := st.out }

/-- RLE.C and RLE.D: a stream and the RLE store. -/
def rleView (st : Storage) : Storage := { streamView st with rle := st.rle }

/-- LZ77.C and LZ77.D: a stream and the LZ77 store. -/
def lz77View (st : Storage) : Storage := { streamView st with lz77 := st.lz77 }

/-- LZW.C and LZW.D: a stream and the LZW store. -/
def lzwView (st : Storage) : Storage := { streamView st with lzw := st.lzw }

/-- CONT.SER: the two inputs and the output. -/
def contSerView (st : Storage) : Storage := { streamView st with metaIn := st.metaIn }

/-- CONT.PARSE: the input, its cursor and the declared metadata length. -/
def contParseView (st : Storage) : Storage := { streamView st with contML := st.contML }

/-- HUF.C: the input, its cursor, the alphabet, the code table and the bit packer. -/
def hufCView (st : Storage) : Storage :=
  { streamView st with
    huf :=
      { Storage.blank.huf with
        alphabet := st.huf.alphabet, code := st.huf.code, packer := st.huf.packer } }

/-- HUF.D: the output, the alphabet and the padding, and where there are two symbols or more the tree, the
reader and the walk; an empty input and a one-symbol alphabet leave those three as they were
(40_huffman.md R159, R161). -/
def hufDView (st : Storage) : Storage :=
  { Storage.blank with
    out := st.out
    huf :=
      if st.huf.alphabet.length ≤ 1 then
        { Storage.blank.huf with alphabet := st.huf.alphabet, padding := st.huf.padding }
      else
        { Storage.blank.huf with
          alphabet := st.huf.alphabet, padding := st.huf.padding
          root := st.huf.root, reader := st.huf.reader, node := st.huf.node } }

theorem rleCUnit_factorsThrough : rleCUnit.FactorsThrough rleView where
  init _ _ _ := rfl
  turn p st := by
    simp only [rleCUnit, rleCTurn, rleView, streamView]
    cases st.input.drop st.ip with
    | nil => rfl
    | cons b bs => simp only; split <;> rfl
  token _ _ _ := rfl
  output _ := rfl
  fuel _ _ := .inr rfl

theorem rleDUnit_factorsThrough : rleDUnit.FactorsThrough rleView where
  init _ _ _ := rfl
  turn p st := by
    simp only [rleDUnit, rleDTurn, rleView, streamView]
    split <;> rfl
  token p i st := by cases i <;> rfl
  output _ := rfl
  fuel _ _ := .inr rfl

theorem lz77CUnit_factorsThrough : lz77CUnit.FactorsThrough lz77View where
  init _ _ _ := rfl
  turn p st := by
    simp only [lz77CUnit, lz77CTurn, lz77View, streamView]
    split <;> rfl
  token _ _ _ := rfl
  output _ := rfl
  fuel _ _ := .inr rfl

/-- A pointer to before the start of the output, or of distance 0 (42_lz77.md R221). -/
theorem lz77PtrEffect_malformed {d : BitVec 12} {st : Storage} (l : BitVec 4) (p : Params)
    (h : d.toNat = 0 ∨ st.out.length < d.toNat) :
    lz77PtrEffect d l p st = .error .malformedPayload := by
  simp [lz77PtrEffect, h]

/-- A pointer into the output copies (42_lz77.md R221). -/
theorem lz77PtrEffect_copies {d : BitVec 12} {st : Storage} (l : BitVec 4) (p : Params)
    (h : ¬ (d.toNat = 0 ∨ st.out.length < d.toNat)) :
    lz77PtrEffect d l p st = .ok
      { st with
        ip := st.ip + 2
        out := copyBack d.toNat l.toNat st.out
        lz77 := { st.lz77 with decision := st.lz77.decision + 1 } } := by
  simp [lz77PtrEffect, h]

/-- A pointer of an LZ77 stream works on the stream and the LZ77 store. -/
theorem lz77PtrEffect_view (d : BitVec 12) (l : BitVec 4) (p : Params) (st : Storage) :
    lz77PtrEffect d l p (lz77View st) = (lz77PtrEffect d l p st).map lz77View := by
  by_cases h : d.toNat = 0 ∨ st.out.length < d.toNat
  · rw [lz77PtrEffect_malformed l p h, lz77PtrEffect_malformed (st := lz77View st) l p h]
    rfl
  · rw [lz77PtrEffect_copies l p h, lz77PtrEffect_copies (st := lz77View st) l p h]
    rfl

theorem lz77DUnit_factorsThrough : lz77DUnit.FactorsThrough lz77View where
  init _ _ _ := rfl
  turn p st := by
    have hf : lz77Format (lz77View st) = lz77Format st := rfl
    simp only [lz77DUnit, lz77DTurn, hf]
    simp only [lz77View, streamView]
    split <;> rfl
  token p i st := by
    cases i with
    | lz77Ptr d l => exact lz77PtrEffect_view d l p st
    | _ => rfl
  output _ := rfl
  fuel _ _ := .inr rfl

theorem lzwCUnit_factorsThrough : lzwCUnit.FactorsThrough lzwView where
  init _ _ _ := rfl
  turn p st := by
    simp only [lzwCUnit, lzwCTurn, lzwView, streamView]
    cases st.input[st.ip]? with
    | none => rfl
    | some c => simp only; cases lzwStep p c st.lzw <;> rfl
  token _ _ _ := rfl
  output _ := rfl
  fuel _ _ := .inr rfl

theorem lzwFirst_view (x : Nat) (st : Storage) :
    lzwFirst x (lzwView st) = (lzwFirst x st).map lzwView := by
  simp only [lzwFirst, lzwView, streamView]
  split <;> rfl

theorem lzwNext_view (p : Params) (x : Nat) (st : Storage) :
    lzwNext p x (lzwView st) = (lzwNext p x st).map lzwView := by
  have hl : (lzwView st).lzw = st.lzw := rfl
  simp only [lzwNext, hl]
  cases lzwCurrent st.lzw x with
  | error e => rfl
  | ok cur => simp only; cases lzwInsert p st.lzw.entries st.lzw.prevId (cur.headD 0) <;> rfl

/-- A code of an LZW stream works on the stream and the LZW store. -/
theorem lzwCodeEffect_view (c : BitVec 16) (p : Params) (st : Storage) :
    lzwCodeEffect c p (lzwView st) = (lzwCodeEffect c p st).map lzwView := by
  have hl : (lzwView st).lzw = st.lzw := rfl
  simp only [lzwCodeEffect, hl]
  by_cases h : st.lzw.ncodes = 0
  · simp only [h, if_true, lzwFirst_view]
  · simp only [h, if_false, lzwNext_view]

theorem lzwDUnit_factorsThrough : lzwDUnit.FactorsThrough lzwView where
  init p inp st := by
    simp only [lzwDUnit, lzwDInit]
    split <;> rfl
  turn p st := by
    simp only [lzwDUnit, lzwDTurn, lzwView, streamView]
    split <;> rfl
  token p i st := by
    cases i with
    | lzwCode c => exact lzwCodeEffect_view c p st
    | _ => rfl
  output _ := rfl
  fuel _ _ := .inr rfl

theorem contSerUnit_factorsThrough : contSerUnit.FactorsThrough contSerView where
  init _ _ _ := rfl
  turn _ _ := rfl
  token _ _ _ := rfl
  output _ := rfl
  fuel _ _ := .inr rfl

theorem contParseUnit_factorsThrough : contParseUnit.FactorsThrough contParseView where
  init p inp st := by
    simp only [contParseUnit, contParseInit]
    cases parse inp.srcBytes <;> rfl
  turn _ _ := rfl
  token _ _ _ := rfl
  output _ := rfl
  fuel _ _ := .inr rfl

theorem hufCUnit_factorsThrough : hufCUnit.FactorsThrough hufCView where
  init p inp st := by
    simp only [hufCUnit, hufCInit]
    split <;> rfl
  turn p st := by
    simp only [hufCUnit, hufCTurn, hufCView, streamView]
    cases st.input[st.ip]? <;> rfl
  token _ _ _ := rfl
  output _ := rfl
  fuel _ _ := .inr rfl

/-- With at most one symbol HUF.D reads no bit (40_huffman.md R161). -/
theorem hufDTurn_finished (p : Params) {st : Storage} (h : st.huf.alphabet.length ≤ 1) :
    hufDTurn p st = .finished := if_pos h

/-- What HUF.D works on where it reads no bit. -/
theorem hufDView_short {st : Storage} (h : st.huf.alphabet.length ≤ 1) :
    hufDView st = { Storage.blank with
      out := st.out
      huf := { Storage.blank.huf with alphabet := st.huf.alphabet, padding := st.huf.padding } } := by
  rw [hufDView, if_pos h]

/-- What HUF.D works on where it walks the tree. -/
theorem hufDView_long {st : Storage} (h : ¬ st.huf.alphabet.length ≤ 1) :
    hufDView st = { Storage.blank with
      out := st.out
      huf :=
        { Storage.blank.huf with
          alphabet := st.huf.alphabet, padding := st.huf.padding
          root := st.huf.root, reader := st.huf.reader, node := st.huf.node } } := by
  rw [hufDView, if_neg h]

@[simp] theorem hufDView_alphabet (st : Storage) : (hufDView st).huf.alphabet = st.huf.alphabet := by
  simp only [hufDView]; split <;> rfl

@[simp] theorem hufDView_padding (st : Storage) : (hufDView st).huf.padding = st.huf.padding := by
  simp only [hufDView]; split <;> rfl

theorem hufDInit_view (p : Params) (inp : Inputs) (st : Storage) :
    (hufDInit p inp st).map hufDView = (hufDInit p inp .blank).map hufDView := by
  simp only [hufDInit]
  split
  · rfl
  cases parse inp.srcBytes with
  | error e => rfl
  | ok c =>
    simp only
    cases metaDecode c.metadata with
    | error e => rfl
    | ok r =>
      simp only
      split
      · rename_i hone
        simp only [Except.map, hufDView, hone, le_refl, if_true]
        rfl
      · cases brInit c.payload r.1 <;> rfl

theorem hufDTurn_view (p : Params) (st : Storage) :
    hufDTurn p (hufDView st) = (hufDTurn p st).map hufDView := by
  by_cases h : st.huf.alphabet.length ≤ 1
  · rw [hufDTurn_finished p h, hufDTurn_finished p (by simpa using h)]
    rfl
  · rw [hufDView_long h]
    simp only [hufDTurn, if_neg h]
    cases brNext st.huf.reader with
    | none => simp only; split <;> rfl
    | some br =>
      simp only
      split <;> (rw [Turn.map, hufDView_long]; exact h)

theorem hufDUnit_factorsThrough : hufDUnit.FactorsThrough hufDView where
  init := hufDInit_view
  turn := hufDTurn_view
  token _ _ _ := rfl
  output st := by
    have ho : (hufDView st).out = st.out := rfl
    simp only [hufDUnit, hufDOutput, hufDView_alphabet, hufDView_padding, ho]
  fuel p st := by
    by_cases h : st.huf.alphabet.length ≤ 1
    · exact .inl (hufDTurn_finished p h)
    · exact .inr (by rw [hufDView_long h]; rfl)

/-- No unit's codec function depends on what the storage held (10_state.md R55). -/
theorem unitOf_stateless {i : Instr} {u : CodecUnit} (h : unitOf i = some u) : u.Stateless := by
  cases i <;> cases h
  case hufC => exact hufCUnit_factorsThrough.stateless
  case hufD => exact hufDUnit_factorsThrough.stateless
  case rleC => exact rleCUnit_factorsThrough.stateless
  case rleD => exact rleDUnit_factorsThrough.stateless
  case lz77C => exact lz77CUnit_factorsThrough.stateless
  case lz77D => exact lz77DUnit_factorsThrough.stateless
  case lzwC => exact lzwCUnit_factorsThrough.stateless
  case lzwD => exact lzwDUnit_factorsThrough.stateless
  case contSer => exact contSerUnit_factorsThrough.stateless
  case contParse => exact contParseUnit_factorsThrough.stateless

/-! ### A whole command -/

/-- A command that fails its range checks. -/
theorem runCommand_invalid {op : Instr} {s : State} (u : CodecUnit)
    (hv : validRanges op s.params s.latched = false) :
    runCommand op u s = failCommand .invalidInput s := by
  simp [runCommand, prepare, hv]

/-- A disturbed command. -/
theorem runCommand_disturbed {op : Instr} {s : State} (u : CodecUnit)
    (hv : validRanges op s.params s.latched = true) (hd : disturbed op s = true) :
    runCommand op u s = unspecifiedEnd op s := by
  simp [runCommand, prepare, hv, hd]

/-- A bus error on an input read. -/
theorem runCommand_unreadable {op : Instr} {s : State} (u : CodecUnit)
    (hv : validRanges op s.params s.latched = true) (hd : disturbed op s = false)
    (hr : readInputs op s = none) : runCommand op u s = failAfterAccess op .invalidInput s := by
  simp [runCommand, prepare, hv, hd, hr]

/-- A command that may run its codec function ends as the answer of that function says, whatever the storage
held when it was dispatched. -/
theorem runCommand_ready {op : Instr} {u : CodecUnit} {s : State} {inp : Inputs} (hu : u.Stateless)
    (h : Ready op s inp) :
    ∃ st, runCommand op u s = (conclude op (u.codec s.params inp) s).withStore st := by
  obtain ⟨hv, hd, hr⟩ := h
  rw [← hu s.params inp s.store, CodecUnit.codecFrom]
  cases hi : u.init s.params inp s.store with
  | error e =>
    refine ⟨s.store, ?_⟩
    simp only [conclude_error hd, ← failAfterAccess_withStore, State.withStore_self]
    simp [runCommand, prepare, hv, hd, hr, hi, Except.mapError]
  | ok st =>
    refine ⟨(drain u s.params (u.fuel st) st).2, ?_⟩
    rw [← conclude_withStore]
    simp only [runCommand, prepare, hv, hd, hr, hi, Except.mapError]
    rfl

/-- A whole command ends in the same state but for internal storage. -/
theorem runCommand_sameButStore {op : Instr} {u : CodecUnit} (hu : u.Stateless) (s : State) (st : Storage) :
    SameButStore (runCommand op u s) (runCommand op u (s.withStore st)) := by
  cases hv : validRanges op s.params s.latched
  case false =>
    rw [runCommand_invalid u hv, runCommand_invalid (s := s.withStore st) u hv]
    rfl
  cases hd : disturbed op s
  case true =>
    rw [runCommand_disturbed u hv hd, runCommand_disturbed (s := s.withStore st) u hv hd,
      unspecifiedEnd_withStore]
    rfl
  cases hr : readInputs op s with
  | none =>
    rw [runCommand_unreadable u hv hd hr, runCommand_unreadable (s := s.withStore st) u hv hd hr,
      failAfterAccess_withStore]
    rfl
  | some inp =>
    have hready : Ready op s inp := ⟨hv, hd, hr⟩
    obtain ⟨a, ha⟩ := runCommand_ready hu hready
    obtain ⟨b, hb⟩ := runCommand_ready (s := s.withStore st) hu hready
    rw [ha, hb, conclude_withStore]
    exact sameButStore_withStore _ a b

/-- An implemented command word runs its unit (44_container.md R281). -/
theorem exec_unit {i : Instr} {u : CodecUnit} (h : unitOf i = some u) (s : State) :
    exec i s = .next (runCommand i u s) := by
  cases i <;> cases h <;> rfl

/-- A Brotli word fails (44_container.md R280). -/
theorem exec_brotli {i : Instr} (h : isBrotli i = true) (s : State) :
    exec i s = .next (failCommand .unsupportedAlgorithm s) := by
  cases i
  case broC | broD => rfl
  all_goals contradiction

/-- A command word has a codec unit, or is one of the two Brotli words. -/
theorem isCommand_cases {i : Instr} (h : i.isCommand = true) :
    (∃ u, unitOf i = some u) ∨ isBrotli i = true := by
  cases i
  case broC | broD => exact .inr rfl
  case rleRun | rleLit | lz77Ctrl | lz77Lit | lz77Ptr | lzwCode => contradiction
  all_goals exact .inl ⟨_, rfl⟩

/-- Settles O21: the codec units are stateless, so a command ends alike whatever the storage held; the Brotli
words do not look at it. -/
theorem noInternalStateSurvives : Obligations.NoInternalStateSurvives := by
  intro i s st hi
  rcases isCommand_cases hi with ⟨u, hu⟩ | hb
  · exact ⟨_, _, exec_unit hu s, exec_unit hu _, runCommand_sameButStore (unitOf_stateless hu) s st⟩
  · exact ⟨_, _, exec_brotli hb s, exec_brotli hb _, rfl⟩

end Sys2Proof.Machine
end

section
/-! SUPPORT. Writes to the register block (10_state.md R32, R34, R41 to R45): the step that a register write
takes, and what the write does to each register. -/

namespace Sys2Proof.Machine

/-- An aligned word access inside the register block reaches the register at its offset. -/
theorem registerAccess_word {s : State} {off : Nat} (f : Reg → State → State) (hp : s.params.legal = true)
    (hlt : off < 64) (hal : off % 4 = 0) :
    registerAccess (s.params.regBase + off) 4 f s = .next (f (regAt off) s) := by
  have hbase : s.params.regBase % 64 = 0 := by
    simp only [Params.legal, Bool.and_eq_true, decide_eq_true_eq] at hp
    exact hp.2
  have hin : ¬ (s.params.regBase + off + 4 ≤ s.params.regBase
      ∨ s.params.regBase + 64 ≤ s.params.regBase + off) := by omega
  have hword : (s.params.regBase + off) % 4 = 0 := by omega
  simp only [registerAccess, Bool.or_eq_true, Bool.and_eq_true, decide_eq_true_eq, hin, hword, if_false,
    true_and, if_true, Nat.add_sub_cancel_left]

/-- The step of a register write. -/
theorem step_regWrite {s : State} {off : Nat} {v : Word} {rest : List BusOp} (hp : s.params.legal = true)
    (hlt : off < 64) (hal : off % 4 = 0) (hb : s.bus = .regWrite (s.params.regBase + off) 4 v :: rest) :
    step s = .next (registerWrite (regAt off) v (s.withBus rest)) := by
  rw [step_bus hp hb]
  exact registerAccess_word (s := s.withBus rest) (fun r t => registerWrite r v t) hp hlt hal

/-- A register write while BUSY is ignored (10_state.md R45). -/
theorem registerWrite_busy {s : State} (r : Reg) (v : Word) (h : s.busy = true) :
    registerWrite r v s = s := if_pos h

/-- The registers that a write can change: `CMD` and the six parameter registers (10_state.md R32). -/
def Reg.writable : Reg → Bool
  | .cmd | .srcAddr | .srcLen | .dstAddr | .dstCap | .metaAddr | .metaLen => true
  | .status | .outLen | .result0 | .result1 | .reserved => false

/-- A write of a read-only or reserved register is ignored (10_state.md R34, R41 to R44). -/
theorem registerWrite_readOnly {r : Reg} (v : Word) (s : State) (h : r.writable = false) :
    registerWrite r v s = s := by
  cases r
  case status | outLen | result0 | result1 | reserved => exact ite_self s
  all_goals contradiction

/-- STATUS, the three results and the reserved offsets are not writable. -/
theorem regAt_readOnly {off : Nat} (h : off = 0x04 ∨ 0x20 ≤ off) : (regAt off).writable = false := by
  rcases h with rfl | h
  · rfl
  · unfold regAt
    iterate 8 rw [if_neg (by omega)]
    split_ifs <;> rfl

/-! ### Writes while idle: a parameter register stores the value, `CMD` starts a command -/

section

variable {s : State} (v : Word) (h : s.busy = false)
include h

theorem registerWrite_cmd : registerWrite .cmd v s = acceptCommand v s := by
  simp [registerWrite, h]

theorem registerWrite_srcAddr : registerWrite .srcAddr v s = { s with srcAddr := v } := by
  simp [registerWrite, h]

theorem registerWrite_srcLen : registerWrite .srcLen v s = { s with srcLen := v } := by
  simp [registerWrite, h]

theorem registerWrite_dstAddr : registerWrite .dstAddr v s = { s with dstAddr := v } := by
  simp [registerWrite, h]

theorem registerWrite_dstCap : registerWrite .dstCap v s = { s with dstCap := v } := by
  simp [registerWrite, h]

theorem registerWrite_metaAddr : registerWrite .metaAddr v s = { s with metaAddr := v } := by
  simp [registerWrite, h]

theorem registerWrite_metaLen : registerWrite .metaLen v s = { s with metaLen := v } := by
  simp [registerWrite, h]

end

/-- Settles O12: a register write is one step (`step_regWrite`), ignored while BUSY and at a read-only offset;
while idle each register has its own rule. -/
theorem registerWritesAndLatching : Obligations.RegisterWritesAndLatching := by
  intro s off v rest hp hlt hal hb
  rw [step_regWrite hp hlt hal hb]
  constructor
  · intro hbusy
    rw [registerWrite_busy (s := s.withBus rest) _ v hbusy]
  · intro hidle
    have hi : (s.withBus rest).busy = false := hidle
    refine ⟨?_, ?_, ?_, ?_, ?_, ?_, ?_, ?_⟩
    · rintro rfl
      exact congrArg _ (registerWrite_srcAddr v hi)
    · rintro rfl
      exact congrArg _ (registerWrite_srcLen v hi)
    · rintro rfl
      exact congrArg _ (registerWrite_dstAddr v hi)
    · rintro rfl
      exact congrArg _ (registerWrite_dstCap v hi)
    · rintro rfl
      exact congrArg _ (registerWrite_metaAddr v hi)
    · rintro rfl
      exact congrArg _ (registerWrite_metaLen v hi)
    · intro hro
      rw [registerWrite_readOnly v _ (regAt_readOnly hro)]
    · rintro rfl
      exact ⟨_, congrArg _ (registerWrite_cmd v hi), rfl⟩

end Sys2Proof.Machine
end

section
/-! SUPPORT. The command words (30_encoding.md R101 to R104): a word decodes to a command exactly when it is
that command's encoding, and an illegal word written to `CMD` fails. -/

namespace Sys2Proof

/-- A word whose reserved bits are 0 is given by its two fields (30_encoding.md R101). -/
theorem eq_ofNat_of_fields {w : Word} {alg dir : Nat} (hrsv : rsvField w = 0)
    (halg : (algField w).toNat = alg) (hdir : (dirField w).toNat = dir) :
    w = BitVec.ofNat 32 (16 * dir + alg) := by
  have hrsvNat : (rsvField w).toNat = 0 := by rw [hrsv]; rfl
  simp only [rsvField, algField, dirField, BitVec.extractLsb'_toNat, Nat.shiftRight_eq_div_pow]
    at hrsvNat halg hdir
  apply BitVec.eq_of_toNat_eq
  rw [BitVec.toNat_ofNat]
  omega

/-- What a word decodes to is a command, and the word is its encoding. -/
theorem isCommand_encode_of_decodeCommand {w : Word} {i : Instr} (h : decodeCommand w = .ok i) :
    i.isCommand = true ∧ encode i = .command w := by
  unfold decodeCommand at h
  split at h
  · contradiction
  · next hrsv =>
    have hzero : rsvField w = 0 := not_not.mp hrsv
    split at h <;> cases h
    all_goals
      rename_i halg hdir
      rw [eq_ofNat_of_fields hzero halg hdir]
      exact ⟨rfl, rfl⟩

/-- A command's word decodes to the command. -/
theorem decodeCommand_encode {i : Instr} {c : Word} (h : encode i = .command c) :
    decodeCommand c = .ok i := by
  cases i
  case rleRun | rleLit | lz77Ctrl | lz77Lit | lz77Ptr | lzwCode => contradiction
  all_goals
    cases h
    rfl

/-- A word decodes to a command exactly when it is the command's word (30_encoding.md R103). -/
theorem decodeCommand_eq_ok_iff {i : Instr} {c w : Word} (h : encode i = .command c) :
    decodeCommand w = .ok i ↔ w = c := by
  constructor
  · intro hw
    obtain ⟨-, henc⟩ := isCommand_encode_of_decodeCommand hw
    exact Image.command.inj (henc.symm.trans h)
  · rintro rfl
    exact decodeCommand_encode h

/-- The word of a command has no reserved bit set, and its ALG is at most 5 (30_encoding.md R101, R102). -/
theorem encode_command_lt {i : Instr} {c : Word} (h : encode i = .command c) :
    c.toNat < 32 ∧ c.toNat % 16 < 6 := by
  cases i
  case rleRun | rleLit | lz77Ctrl | lz77Lit | lz77Ptr | lzwCode => contradiction
  all_goals
    cases h
    decide

/-- A word with a reserved bit set or ALG above 5 is rejected (30_encoding.md R104). -/
theorem decodeCommand_illegal {w : Word} (h : 32 ≤ w.toNat ∨ 6 ≤ w.toNat % 16) :
    ∃ r, decodeCommand w = .error r := by
  cases hd : decodeCommand w with
  | error r => exact ⟨r, rfl⟩
  | ok i =>
    obtain ⟨-, henc⟩ := isCommand_encode_of_decodeCommand hd
    have hlegal := encode_command_lt henc
    omega

/-- Settles O1: each word is the encoding of its command (`decodeCommand_eq_ok_iff`), and what a word decodes
to is a command. -/
theorem onlyTwelveWordsAreCommands : Obligations.OnlyTwelveWordsAreCommands := by
  intro w
  refine ⟨?hufC, ?hufD, ?rleC, ?rleD, ?lz77C, ?lz77D, ?lzwC, ?lzwD, ?broC, ?broD, ?contSer, ?contParse, ?only⟩
  case only => exact fun i h => (isCommand_encode_of_decodeCommand h).1
  all_goals exact decodeCommand_eq_ok_iff rfl

end Sys2Proof

namespace Sys2Proof.Machine

/-- The STATUS of an error, as a sum (10_state.md R34). -/
theorem statusError_eq (e : ErrorKind) : statusError e = BitVec.ofNat 32 (6 + 16 * e.code) := by
  cases e <;> rfl

/-- `Fail(e)` leaves the block idle with the error reported (44_container.md R286). -/
theorem failCommand_failedWith (e : ErrorKind) (s : State) : FailedWith e s (failCommand e s) :=
  ⟨statusError_eq e, rfl, rfl, rfl, rfl, rfl, rfl, rfl, rfl, rfl, rfl, rfl, rfl, rfl, rfl, rfl, rfl⟩

/-- Dispatching a word that is no command fails (30_encoding.md R104). -/
theorem engineMove_dispatch_illegal (whole : Bool) {s : State} {r : Reject} (h : s.phase = .dispatch)
    (hd : decodeCommand s.cmd = .error r) :
    engineMove whole s = .next (failCommand .unsupportedAlgorithm s) := by
  simp [engineMove, dispatchCommand, h, hd]

/-- The step of a `CMD` write while idle (10_state.md R33). -/
theorem step_cmdWrite {s : State} {w : Word} {rest : List BusOp} (hp : s.params.legal = true)
    (hidle : s.busy = false) (hb : s.bus = .regWrite s.params.regBase 4 w :: rest) :
    step s = .next (acceptCommand w (s.withBus rest)) :=
  (step_regWrite (off := 0) hp (by decide) rfl hb).trans (congrArg _ (registerWrite_cmd w hidle))

/-- Settles O17: the write starts a command (`step_cmdWrite`), and the engine's next step finds that the word
is no command (`decodeCommand_illegal`) and fails. -/
theorem illegalWordFails : Obligations.IllegalWordFails := by
  intro s w hp hidle hb hw
  obtain ⟨r, hr⟩ := decodeCommand_illegal hw
  have hquiet : step (acceptCommand w (s.withBus [])) = engineMove true (acceptCommand w (s.withBus [])) :=
    step_quiet hp rfl
  have hfail := hquiet.trans (engineMove_dispatch_illegal true rfl hr)
  exact ⟨_, _, step_cmdWrite hp hidle hb, hfail, rfl, failCommand_failedWith _ _, rfl, rfl, rfl, rfl⟩

end Sys2Proof.Machine
end

section
/-! SUPPORT. The code table of a Huffman tree (40_huffman.md R147 to R155): what the merges of the queue keep,
and what the walk makes of the finished tree. -/

namespace Sys2Proof.Machine

/-! ### The code table of a tree (R153) -/

/-- The path a walk starts with stands in front of every code. -/
theorem walk_path (n : HuffNode) (path : List Bool) :
    walk n path = (codeTable n).map fun r => (r.1, path ++ r.2) := by
  induction n generalizing path with
  | leaf sym f q => simp [codeTable, walk]
  | internal f l r q ihl ihr =>
    rw [codeTable, walk, walk, ihl, ihr, ihl ([] ++ [false]), ihr ([] ++ [true])]
    simp [Function.comp_def]
  | synthetic => rfl

@[simp] theorem codeTable_leaf (sym : Byte) (f : BitVec 40) (q : BitVec 10) :
    codeTable (.leaf sym f q) = [(sym, [])] := rfl

@[simp] theorem codeTable_synthetic : codeTable .synthetic = [] := rfl

theorem codeTable_internal (f : BitVec 40) (l r : HuffNode) (q : BitVec 10) :
    codeTable (.internal f l r q)
      = (codeTable l).map (fun x => (x.1, false :: x.2))
        ++ (codeTable r).map (fun x => (x.1, true :: x.2)) := by
  rw [codeTable, walk, walk_path l, walk_path r]
  rfl

/-- A code below an internal node is a bit and a code of the child that the bit chooses. -/
theorem mem_codeTable_internal {f : BitVec 40} {l r : HuffNode} {q : BitVec 10} {a : Byte} {c : List Bool} :
    (a, c) ∈ codeTable (.internal f l r q)
      ↔ ∃ bit c', c = bit :: c' ∧ (a, c') ∈ codeTable ((HuffNode.internal f l r q).child bit) := by
  simp [codeTable_internal, HuffNode.child, eq_comm, and_comm]

/-- Only codes of the same symbol are prefixes of each other. -/
theorem eq_of_code_prefix {n : HuffNode} {a b : Byte} {c d : List Bool} (hc : (a, c) ∈ codeTable n)
    (hd : (b, d) ∈ codeTable n) (h : c <+: d) : a = b := by
  induction n generalizing c d with
  | leaf sym f q => simp_all
  | internal f l r q ihl ihr =>
    obtain ⟨x, c', rfl, hc'⟩ := mem_codeTable_internal.mp hc
    obtain ⟨y, d', rfl, hd'⟩ := mem_codeTable_internal.mp hd
    obtain ⟨rfl, h'⟩ := List.cons_prefix_cons.mp h
    cases x with
    | false => exact ihl hc' hd' h'
    | true => exact ihr hc' hd' h'
  | synthetic => cases hc

/-- In a table with no symbol twice, a symbol's code is the one that is looked up. -/
theorem codeOf_eq_of_mem {table : List (Byte × List Bool)} {a : Byte} {c : List Bool}
    (hnd : (table.map Prod.fst).Nodup) (h : (a, c) ∈ table) : codeOf table a = c := by
  induction table with
  | nil => cases h
  | cons r rest ih =>
    rw [List.map_cons, List.nodup_cons] at hnd
    rcases List.mem_cons.mp h with rfl | hmem
    · exact if_pos rfl
    · have hne : r.1 ≠ a := fun heq => hnd.1 (List.mem_map.mpr ⟨_, hmem, heq.symm⟩)
      exact (if_neg hne).trans (ih hnd.2 hmem)

/-! ### The symbols of a tree, and how deep they stand -/

/-- The symbols of a tree's leaves, in the order of the walk. -/
def HuffNode.symbols (n : HuffNode) : List Byte := (codeTable n).map Prod.fst

@[simp] theorem HuffNode.symbols_leaf (sym : Byte) (f : BitVec 40) (q : BitVec 10) :
    (HuffNode.leaf sym f q).symbols = [sym] := rfl

@[simp] theorem HuffNode.symbols_internal (f : BitVec 40) (l r : HuffNode) (q : BitVec 10) :
    (HuffNode.internal f l r q).symbols = l.symbols ++ r.symbols := by
  simp [symbols, codeTable_internal, Function.comp_def]

/-- A tree without the synthetic sibling: every internal node has two children that lead to symbols. -/
def HuffNode.Full : HuffNode → Prop
  | .leaf _ _ _ => True
  | .internal _ l r _ => l.Full ∧ r.Full
  | .synthetic => False

theorem HuffNode.Full.symbols_length_pos {n : HuffNode} (h : n.Full) : 0 < n.symbols.length := by
  induction n with
  | leaf sym f q => simp
  | internal f l r q ihl ihr =>
    have hl := ihl h.1
    rw [symbols_internal, List.length_append]
    omega
  | synthetic => cases h

/-- Each node on the way to a symbol leaves at least one other symbol aside. -/
theorem HuffNode.Full.code_length_lt {n : HuffNode} (h : n.Full) {a : Byte} {c : List Bool}
    (hc : (a, c) ∈ codeTable n) : c.length < n.symbols.length := by
  induction n generalizing c with
  | leaf sym f q => simp_all
  | internal f l r q ihl ihr =>
    obtain ⟨hl, hr⟩ := h
    obtain ⟨bit, c', rfl, hc'⟩ := mem_codeTable_internal.mp hc
    have hlpos := hl.symbols_length_pos
    have hrpos := hr.symbols_length_pos
    rw [symbols_internal, List.length_append, List.length_cons]
    cases bit with
    | false =>
      have := ihl hl hc'
      omega
    | true =>
      have := ihr hr hc'
      omega
  | synthetic => cases h

/-- With two symbols or more the root is no leaf. -/
theorem code_length_pos {n : HuffNode} (h : 2 ≤ n.symbols.length) {a : Byte} {c : List Bool}
    (hc : (a, c) ∈ codeTable n) : 1 ≤ c.length := by
  cases n with
  | leaf sym f q => simp at h
  | internal f l r q =>
    obtain ⟨bit, c', rfl, -⟩ := mem_codeTable_internal.mp hc
    simp
  | synthetic => cases hc

/-! ### The queue and its merges (R147 to R150) -/

/-- `ExtractMin` answers on every non-empty queue, and takes one node out of it. -/
theorem extractMin_perm (x : HuffNode) (xs : List HuffNode) :
    ∃ m rest, extractMin (x :: xs) = some (m, rest) ∧ (x :: xs).Perm (m :: rest) := by
  induction xs generalizing x with
  | nil => exact ⟨x, [], rfl, .refl _⟩
  | cons y ys ih =>
    obtain ⟨m, rest, hm, hperm⟩ := ih y
    rw [extractMin, hm]
    by_cases hbefore : m.before x
    · exact ⟨m, x :: rest, if_pos hbefore, (hperm.cons x).trans (.swap m x rest)⟩
    · exact ⟨x, y :: ys, if_neg hbefore, .refl _⟩

/-- A merge takes two nodes out of the queue and puts their parent in; one node alone stays. -/
theorem mergeOnce_cases (q : List HuffNode) (k : BitVec 10) :
    (q.length ≤ 1 ∧ mergeOnce q k = none)
      ∨ ∃ a b rest, q.Perm (a :: b :: rest)
          ∧ mergeOnce q k = some (.internal (a.freq + b.freq) a b k :: rest) := by
  cases q with
  | nil => exact .inl ⟨Nat.zero_le 1, rfl⟩
  | cons x xs =>
    obtain ⟨a, q1, ha, hperm⟩ := extractMin_perm x xs
    cases q1 with
    | nil => exact .inl ⟨hperm.length_eq.le, by rw [mergeOnce, ha]; rfl⟩
    | cons y ys =>
      obtain ⟨b, q2, hb, hperm'⟩ := extractMin_perm y ys
      exact .inr ⟨a, b, q2, hperm.trans (hperm'.cons a), by simp only [mergeOnce, ha, hb]⟩

/-- What the order of the queue does not matter to, and every merge keeps. -/
structure MergeInvariant (P : List HuffNode → Prop) : Prop where
  perm : ∀ {q q'}, q.Perm q' → P q → P q'
  merge : ∀ {a b rest} k, P (a :: b :: rest) → P (.internal (a.freq + b.freq) a b k :: rest)

/-- The merge loop ends with one node, of which holds what the merges keep. -/
theorem MergeInvariant.root_of_mergeLoop {P : List HuffNode → Prop} (hP : MergeInvariant P) {n : Nat}
    {q : List HuffNode} (k : BitVec 10) (hne : q ≠ []) (hn : q.length ≤ n + 1) (h : P q) :
    ∃ root, (mergeLoop n q k).1 = [root] ∧ P [root] := by
  have hpos := List.length_pos_of_ne_nil hne
  induction n generalizing q k with
  | zero =>
    obtain ⟨root, rfl⟩ := List.length_eq_one_iff.mp (Nat.le_antisymm hn hpos)
    exact ⟨root, rfl, h⟩
  | succ n ih =>
    rw [mergeLoop]
    rcases mergeOnce_cases q k with ⟨hone, hm⟩ | ⟨a, b, rest, hperm, hm⟩
    · obtain ⟨root, rfl⟩ := List.length_eq_one_iff.mp (Nat.le_antisymm hone hpos)
      rw [hm]
      exact ⟨root, rfl, h⟩
    · have hlen := hperm.length_eq
      simp only [List.length_cons] at hlen
      rw [hm]
      exact ih (k + 1) (List.cons_ne_nil _ _) (by rw [List.length_cons]; omega)
        (hP.merge k (hP.perm hperm h)) (Nat.succ_pos _)

@[simp] theorem makeLeaves_length (k : BitVec 10) (list : List (Byte × Word)) :
    (makeLeaves k list).length = list.length := by
  induction list generalizing k with
  | nil => rfl
  | cons r rest ih => exact congrArg (· + 1) (ih (k + 1))

/-- With two symbols or more, what holds of the leaves and is kept by every merge holds of the tree. -/
theorem MergeInvariant.of_leaves {P : List HuffNode → Prop} (hP : MergeInvariant P)
    {list : List (Byte × Word)} (hlen : 2 ≤ list.length) (h : P (makeLeaves 0 list)) :
    P [buildTree list] := by
  match list, hlen with
  | r :: s :: rest, _ =>
    have hleaves := makeLeaves_length 0 (r :: s :: rest)
    obtain ⟨root, hroot, hProot⟩ := hP.root_of_mergeLoop (n := (r :: s :: rest).length)
      (BitVec.ofNat 10 (r :: s :: rest).length) (List.ne_nil_of_length_pos (by rw [hleaves]; simp))
      (by rw [hleaves]; omega) h
    have htree : buildTree (r :: s :: rest) = root := by
      rw [buildTree, hroot]
      · rfl
      · simp
    rwa [htree]

/-! ### The symbols of the finished tree (R154) -/

/-- The nodes of a queue have no synthetic sibling below them, and hold these symbols, each as often. -/
def Covers (symbols : List Byte) (q : List HuffNode) : Prop :=
  (∀ n ∈ q, n.Full) ∧ (q.flatMap HuffNode.symbols).Perm symbols

theorem covers_mergeInvariant (symbols : List Byte) : MergeInvariant (Covers symbols) where
  perm hperm h :=
    ⟨fun n hn => h.1 n (hperm.mem_iff.mpr hn), (hperm.flatMap_right HuffNode.symbols).symm.trans h.2⟩
  merge k h := by
    obtain ⟨hfull, hsym⟩ := h
    simp only [List.forall_mem_cons] at hfull
    obtain ⟨ha, hb, hrest⟩ := hfull
    refine ⟨List.forall_mem_cons.mpr ⟨⟨ha, hb⟩, hrest⟩, ?_⟩
    simpa using hsym

theorem makeLeaves_covers (k : BitVec 10) (list : List (Byte × Word)) :
    Covers (list.map Prod.fst) (makeLeaves k list) := by
  induction list generalizing k with
  | nil => simp [Covers, makeLeaves]
  | cons r rest ih =>
    obtain ⟨hfull, hsym⟩ := ih (k + 1)
    exact ⟨List.forall_mem_cons.mpr ⟨trivial, hfull⟩, hsym.cons r.1⟩

/-- The tree of two symbols or more is full and has the alphabet's symbols, each once. -/
theorem buildTree_full_symbols {list : List (Byte × Word)} (h : 2 ≤ list.length) :
    (buildTree list).Full ∧ (buildTree list).symbols.Perm (list.map Prod.fst) := by
  obtain ⟨hfull, hsym⟩ := (covers_mergeInvariant _).of_leaves h (makeLeaves_covers 0 list)
  exact ⟨hfull _ (List.mem_singleton_self _), by simpa using hsym⟩

/-- One symbol's code is the bit 0 (R150). -/
theorem codeTable_buildTree_singleton (a : Byte) (f : Word) :
    codeTable (buildTree [(a, f)]) = [(a, [false])] := rfl

/-- An alphabet has one symbol or more than one. -/
theorem alphabet_cases {list : List (Byte × Word)} (h : list ≠ []) :
    (∃ a f, list = [(a, f)]) ∨ 2 ≤ list.length := by
  match list, h with
  | [(a, f)], _ => exact .inl ⟨a, f, rfl⟩
  | _ :: _ :: _, _ => exact .inr (by simp)

/-- The code table has the alphabet's symbols, each once (R154). -/
theorem codeTable_symbols_perm {list : List (Byte × Word)} (h : list ≠ []) :
    ((codeTable (buildTree list)).map Prod.fst).Perm (list.map Prod.fst) := by
  rcases alphabet_cases h with ⟨a, f, rfl⟩ | h2
  · rfl
  · exact (buildTree_full_symbols h2).2

/-! ### Legal alphabets (R160) -/

theorem rowsLegal_tail {r : Byte × Word} {rest : List (Byte × Word)} (h : rowsLegal (r :: rest) = true) :
    rowsLegal rest = true := by
  cases rest with
  | nil => rfl
  | cons s rest =>
    simp only [rowsLegal, Bool.and_eq_true] at h
    exact h.2

/-- The symbols of a legal alphabet rise. -/
theorem rowsLegal_lt {r s : Byte × Word} {rest : List (Byte × Word)} (h : rowsLegal (r :: rest) = true)
    (hs : s ∈ rest) : r.1 < s.1 := by
  induction rest generalizing r with
  | nil => cases hs
  | cons x rest ih =>
    have hrx : r.1 < x.1 := by
      simp only [rowsLegal, Bool.and_eq_true, decide_eq_true_eq] at h
      exact h.1.2
    rcases List.mem_cons.mp hs with rfl | hs'
    · exact hrx
    · exact BitVec.lt_trans hrx (ih (rowsLegal_tail h) hs')

theorem rowsLegal_nodup {list : List (Byte × Word)} (h : rowsLegal list = true) :
    (list.map Prod.fst).Nodup := by
  induction list with
  | nil => exact List.nodup_nil
  | cons r rest ih =>
    refine List.nodup_cons.mpr ⟨fun hmem => ?_, ih (rowsLegal_tail h)⟩
    obtain ⟨s, hs, heq⟩ := List.mem_map.mp hmem
    exact BitVec.lt_irrefl _ (heq ▸ rowsLegal_lt h hs)

/-- There are 256 byte values, so a legal alphabet has at most 256 symbols. -/
theorem rowsLegal_length_le {list : List (Byte × Word)} (h : rowsLegal list = true) : list.length ≤ 256 := by
  have hnd : ((list.map Prod.fst).map BitVec.toFin).Nodup :=
    (rowsLegal_nodup h).map fun _ _ => BitVec.eq_of_toFin_eq
  simpa using hnd.length_le_card

/-- Settles O30: the symbols by `codeTable_symbols_perm`, prefixes by `eq_of_code_prefix`; the lookup finds a
symbol's one code because the symbols are distinct. -/
theorem codeTableIsPrefixFree : Obligations.CodeTableIsPrefixFree := by
  intro list hne hlegal
  have hperm := codeTable_symbols_perm hne
  have hnd := hperm.nodup_iff.mpr (rowsLegal_nodup hlegal)
  refine ⟨hperm, fun a c b d hc hd hab hp => hab (eq_of_code_prefix hc hd hp), fun a c hc => ?_, ?_⟩
  · refine ⟨?_, codeOf_eq_of_mem hnd hc⟩
    rcases alphabet_cases hne with ⟨a, f, rfl⟩ | h2
    · rw [codeTable_buildTree_singleton, List.mem_singleton] at hc
      cases hc
      exact Nat.le_refl 1
    · exact code_length_pos (by simpa [(buildTree_full_symbols h2).2.length_eq] using h2) hc
  · rintro a f rfl
    exact codeTable_buildTree_singleton a f

/-- Settles O31: a code of a full tree is shorter than the number of its symbols (`HuffNode.Full.code_length_lt`),
and a legal alphabet has at most 256. -/
theorem codeLengthsAreBounded : Obligations.CodeLengthsAreBounded := by
  intro list a c hlegal hc
  constructor
  · intro hone
    obtain ⟨⟨b, f⟩, rfl⟩ := List.length_eq_one_iff.mp hone
    rw [codeTable_buildTree_singleton, List.mem_singleton] at hc
    cases hc
    rfl
  · intro h2
    obtain ⟨hfull, hsym⟩ := buildTree_full_symbols h2
    have hlt := hfull.code_length_lt hc
    rw [hsym.length_eq, List.length_map] at hlt
    have hmax := rowsLegal_length_le hlegal
    omega

end Sys2Proof.Machine
end

section
/-! SUPPORT. The container's metadata of a legal alphabet is read back as it was written (30_encoding.md R105,
R106; 40_huffman.md R157, R160), and a one-symbol container is not decoded bit by bit (R161). -/

namespace Sys2Proof

/-! ### Big-endian fields -/

theorem be16_toBE16 (v : BitVec 16) : be16 (v.extractLsb' 8 8) (v.extractLsb' 0 8) = v := by
  rw [be16, BitVec.extractLsb'_append_extractLsb'_eq_extractLsb' (by rfl)]
  simp

theorem be32_toBE32 (v : BitVec 32) :
    be32 (v.extractLsb' 24 8) (v.extractLsb' 16 8) (v.extractLsb' 8 8) (v.extractLsb' 0 8) = v := by
  rw [be32, be16, be16, BitVec.extractLsb'_append_extractLsb'_eq_extractLsb' (by rfl),
    BitVec.extractLsb'_append_extractLsb'_eq_extractLsb' (by rfl)]
  exact (BitVec.extractLsb'_append_extractLsb'_eq_extractLsb' (by rfl)).trans (by simp)

end Sys2Proof

namespace Sys2Proof.Machine

/-- PARSE takes apart what SERIALIZE framed (44_container.md R270, R273). -/
theorem parse_serialize {m : List Byte} (payload : List Byte) (hm : m.length < 2 ^ 32) :
    parse (serialize m payload) = .ok ⟨BitVec.ofNat 32 m.length, m, payload⟩ := by
  have hlen : (BitVec.ofNat 32 m.length).toNat = m.length := by
    rw [BitVec.toNat_ofNat, Nat.mod_eq_of_lt hm]
  simp [serialize, toBE32, parse, be32_toBE32, hlen]

theorem serialize_ne_nil (m payload : List Byte) : serialize m payload ≠ [] := List.cons_ne_nil _ _

/-- The rows of a metadata blob are read back as they were written. -/
theorem metaRows_flatMap (list : List (Byte × Word)) : metaRows (list.flatMap metaRow) = list := by
  induction list with
  | nil => rfl
  | cons r rest ih =>
    rw [List.flatMap_cons, metaRow, toBE32]
    simp only [List.cons_append, List.nil_append, metaRows, be32_toBE32, ih]

theorem length_flatMap_metaRow (list : List (Byte × Word)) :
    (list.flatMap metaRow).length = 5 * list.length := by
  induction list with
  | nil => rfl
  | cons r rest ih =>
    have hrow : (metaRow r).length = 5 := rfl
    rw [List.flatMap_cons, List.length_append, hrow, ih, List.length_cons, Nat.mul_add, Nat.add_comm]

/-- The metadata has 3 bytes before its rows of 5 bytes (30_encoding.md R106). -/
theorem metaEncode_length (padding : Nat) (list : List (Byte × Word)) :
    (metaEncode padding list).length = 3 + 5 * list.length := by
  rw [metaEncode, List.length_cons, List.length_append, length_flatMap_metaRow, toBE16]
  simp only [List.length_cons, List.length_nil]
  omega

/-- The metadata of a legal alphabet decodes to the padding and the alphabet (R160). -/
theorem metaDecode_metaEncode {padding : Nat} {list : List (Byte × Word)} (hpad : padding ≤ 7)
    (hne : list ≠ []) (hlegal : rowsLegal list = true) :
    metaDecode (metaEncode padding list) = .ok (padding, list) := by
  have hpos := List.length_pos_of_ne_nil hne
  have hmax := rowsLegal_length_le hlegal
  have hp : (BitVec.ofNat 8 padding).toNat = padding := by
    rw [BitVec.toNat_ofNat]
    omega
  have hk : (BitVec.ofNat 16 list.length).toNat = list.length := by
    rw [BitVec.toNat_ofNat]
    omega
  have hrange : ¬ (list.length = 0 || decide (list.length > 256)) = true := by
    simp only [Bool.or_eq_true, decide_eq_true_eq]
    omega
  simp only [metaEncode, toBE16, List.cons_append, List.nil_append, metaDecode, be16_toBE16, hp, hk,
    length_flatMap_metaRow, metaRows_flatMap]
  rw [if_neg (Nat.not_lt.mpr hpad), if_neg hrange, if_neg (not_not.mpr rfl), if_pos hlegal]

/-! ### HUF.D on a one-symbol container (R161) -/

/-- HUF.D starts on a container with one symbol without a look at the payload. -/
theorem hufD_init_single (p : Params) (st : Storage) {c : List Byte} {r : Parsed} {padding : Nat}
    {sym : Byte} {f : Word} (hc : c ≠ []) (hparse : parse c = .ok r)
    (hmeta : metaDecode r.metadata = .ok (padding, [(sym, f)])) :
    ∃ st', hufDUnit.init p (srcOnly c) st = .ok st'
      ∧ st'.huf.alphabet = [(sym, f)] ∧ st'.huf.padding = padding := by
  have hsrc : (srcOnly c).srcBytes = c := rfl
  have hempty : c.isEmpty = false := List.isEmpty_eq_false_iff.mpr hc
  simp [hufDUnit, hufDInit, hsrc, hempty, hparse, hmeta]

/-- HUF.D with one symbol in its storage reads no bit and answers the symbol, repeated. -/
theorem hufD_answer_single (p : Params) (n : Nat) {st : Storage} {sym : Byte} {f : Word}
    (h : st.huf.alphabet = [(sym, f)]) :
    hufDUnit.answer (drain hufDUnit p n st) = .ok ⟨.fill sym f.toNat, st.huf.padding, 1⟩ := by
  have hturn : hufDUnit.turn p st = .finished := hufDTurn_finished p (by simp [h])
  rw [drain_finished n hturn]
  simp [CodecUnit.answer, hufDUnit, hufDOutput, h]

/-- Settles O37: the container parses and its metadata decodes to the one symbol, so HUF.D starts with that
alphabet and has finished before it reads a bit. -/
theorem singleSymbolRepeats : Obligations.SingleSymbolRepeats := by
  intro p sym f padding payload hf hpad
  have hlegal : rowsLegal [(sym, f)] = true := by simpa [rowsLegal] using hf
  have hsmall : (metaEncode padding [(sym, f)]).length < 2 ^ 32 := by simp [metaEncode_length]
  obtain ⟨st, hinit, halphabet, hpadding⟩ := hufD_init_single p .blank (serialize_ne_nil _ _)
    (parse_serialize payload hsmall) (metaDecode_metaEncode hpad (List.cons_ne_nil _ _) hlegal)
  refine ⟨⟨.fill sym f.toNat, padding, 1⟩, ?_, rfl, rfl, rfl⟩
  rw [CodecUnit.codec, hinit, ← hpadding]
  exact hufD_answer_single p _ halphabet

end Sys2Proof.Machine
end

section
/-! SUPPORT. What RLE.C measures of its input (41_rle.md R190, R192): how far a run and a literal stretch reach,
and what stops them. -/

namespace Sys2Proof.Machine

/-! ### The bytes of a run (R190) -/

theorem sameRun_le_cap (b : Byte) (cap : Nat) (xs : List Byte) : sameRun b cap xs ≤ cap := by
  fun_induction sameRun b cap xs <;> omega

theorem sameRun_le_length (b : Byte) (cap : Nat) (xs : List Byte) : sameRun b cap xs ≤ xs.length := by
  fun_induction sameRun b cap xs with
  | case1 | case2 | case4 => exact Nat.zero_le _
  | case3 cap xs ih => rw [List.length_cons]; omega

/-- Every byte that is counted is `b`. -/
theorem getElem?_of_lt_sameRun {b : Byte} {cap : Nat} {xs : List Byte} {k : Nat}
    (h : k < sameRun b cap xs) : xs[k]? = some b := by
  fun_induction sameRun b cap xs generalizing k with
  | case1 | case2 | case4 => contradiction
  | case3 cap xs ih =>
    cases k with
    | zero => rfl
    | succ k => exact ih (by omega)

/-- A count below the cap ends at the end of the bytes or at another byte. -/
theorem getElem?_sameRun_ne {b : Byte} {cap : Nat} {xs : List Byte} (h : sameRun b cap xs < cap) :
    xs[sameRun b cap xs]? ≠ some b := by
  fun_induction sameRun b cap xs with
  | case1 => contradiction
  | case2 => simp
  | case3 cap xs ih =>
    rw [Nat.add_comm, List.getElem?_cons_succ]
    exact ih (by omega)
  | case4 cap x xs hne => simpa using hne

theorem runLen_cons (b : Byte) (bs : List Byte) : runLen (b :: bs) = sameRun b 127 bs + 1 := Nat.add_comm _ _

/-- A run has at least its first byte. -/
theorem runLen_pos {xs : List Byte} (h : xs ≠ []) : 1 ≤ runLen xs := by
  cases xs with
  | nil => contradiction
  | cons b bs => rw [runLen_cons]; omega

theorem runLen_le (xs : List Byte) : runLen xs ≤ 128 := by
  cases xs with
  | nil => exact Nat.zero_le _
  | cons b bs => rw [runLen_cons]; have := sameRun_le_cap b 127 bs; omega

theorem runLen_le_length (xs : List Byte) : runLen xs ≤ xs.length := by
  cases xs with
  | nil => exact Nat.le_refl _
  | cons b bs => rw [runLen_cons]; exact Nat.succ_le_succ (sameRun_le_length b 127 bs)

/-- Every byte of a run is its first byte. -/
theorem getElem?_of_lt_runLen {xs : List Byte} {k : Nat} (h : k < runLen xs) : xs[k]? = xs[0]? := by
  cases xs with
  | nil => contradiction
  | cons b bs =>
    rw [runLen_cons] at h
    cases k with
    | zero => rfl
    | succ k => exact getElem?_of_lt_sameRun (xs := bs) (Nat.lt_of_succ_lt_succ h)

/-- A run shorter than the cap is followed by no byte equal to its first. -/
theorem getElem?_runLen_ne {xs : List Byte} (hne : xs ≠ []) (h : runLen xs < 128) :
    xs[runLen xs]? ≠ xs[0]? := by
  cases xs with
  | nil => contradiction
  | cons b bs =>
    rw [runLen_cons] at h ⊢
    exact getElem?_sameRun_ne (Nat.lt_of_succ_lt_succ h)

/-- Settles O41: the facts about a run, read at the bytes from position `i` on. -/
theorem runLengthIsMaximal : Obligations.RunLengthIsMaximal := by
  intro data i hi
  have hne : data.drop i ≠ [] := List.drop_eq_nil_iff.not.mpr (Nat.not_le.mpr hi)
  have hin := runLen_le_length (data.drop i)
  rw [List.length_drop] at hin
  refine ⟨runLen_pos hne, runLen_le _, by omega, fun k hk => ?_, fun hlt => ?_⟩
  · simpa using getElem?_of_lt_runLen hk
  · simpa using getElem?_runLen_ne hne hlt

/-! ### The bytes of a literal (R192) -/

theorem litLen_le_cap (cap : Nat) (xs : List Byte) : litLen cap xs ≤ cap := by
  fun_induction litLen cap xs <;> omega

theorem litLen_le_length (cap : Nat) (xs : List Byte) : litLen cap xs ≤ xs.length := by
  fun_induction litLen cap xs with
  | case1 | case2 | case4 => exact Nat.zero_le _
  | case3 cap x => exact Nat.le_refl _
  | case5 cap x y rest hne ih =>
    rw [Nat.add_comm]
    exact Nat.succ_le_succ ih

/-- No byte of a literal stretch starts a pair. -/
theorem getElem?_ne_succ_of_lt_litLen {cap : Nat} {xs : List Byte} {k : Nat} (h : k < litLen cap xs) :
    xs[k]? ≠ xs[k + 1]? := by
  fun_induction litLen cap xs generalizing k with
  | case1 | case2 | case4 => contradiction
  | case3 cap x => simp [Nat.lt_one_iff.mp h]
  | case5 cap x y rest hne ih =>
    cases k with
    | zero => simpa using hne
    | succ k => exact ih (by omega)

/-- A literal stretch ends at the cap, at the end of the bytes, or before a pair. -/
theorem litLen_stops (cap : Nat) (xs : List Byte) :
    litLen cap xs = cap ∨ litLen cap xs = xs.length
      ∨ xs[litLen cap xs]? = xs[litLen cap xs + 1]? := by
  fun_induction litLen cap xs with
  | case1 => exact .inl rfl
  | case2 | case3 => exact .inr (.inl rfl)
  | case4 cap x rest => exact .inr (.inr rfl)
  | case5 cap x y rest hne ih =>
    rw [Nat.add_comm 1]
    exact ih.imp (congrArg (· + 1)) (Or.imp_left (congrArg (· + 1)))

/-- Settles O42: the facts about a literal stretch, read at the bytes from position `i` on. It has a byte, because
a run of one byte is followed by another byte (`getElem?_runLen_ne`), so the stretch does not stop at once. -/
theorem literalStopsBeforeAPair : Obligations.LiteralStopsBeforeAPair := by
  rintro data i n hi hrun rfl
  have hne : data.drop i ≠ [] := List.drop_eq_nil_iff.not.mpr (Nat.not_le.mpr hi)
  have hfirst : (data.drop i)[1]? ≠ (data.drop i)[0]? := by
    have hstop := getElem?_runLen_ne hne (by omega)
    rwa [hrun] at hstop
  have hin := litLen_le_length 128 (data.drop i)
  have hend := litLen_stops 128 (data.drop i)
  have hpos : 1 ≤ litLen 128 (data.drop i) := by
    refine Nat.pos_of_ne_zero fun hzero => ?_
    rw [hzero, List.length_drop] at hend
    rcases hend with hcap | hlen | hpair
    · contradiction
    · omega
    · exact hfirst hpair.symm
  rw [List.length_drop] at hin hend
  refine ⟨hpos, litLen_le_cap _ _, by omega, fun k hk => ?_, ?_⟩
  · simpa [Nat.add_assoc] using getElem?_ne_succ_of_lt_litLen hk
  · exact hend.imp_right (Or.imp (by omega) (by simp [Nat.add_assoc]))

end Sys2Proof.Machine
end

section
/-! SUPPORT. A step of a running RLE.D (41_rle.md R196 to R198): what its control byte decodes to (30_encoding.md
R109 to R111), the turn this gives, and the step that takes the turn. -/

namespace Sys2Proof

/-! ### RLE control bytes -/

/-- Bit 7 of a control byte tells a literal from a run (30_encoding.md R109). -/
theorem getLsbD_seven_iff (c : Byte) : c.getLsbD 7 = true ↔ 128 ≤ c.toNat := by
  have hmsb : c.getLsbD 7 = decide (128 ≤ c.toNat) :=
    (BitVec.msb_eq_getLsbD_last c).symm.trans (BitVec.msb_eq_decide c)
  rw [hmsb, decide_eq_true_eq]

theorem getLsbD_seven_ne {c : Byte} (hc : c.toNat ≤ 127) : ¬ c.getLsbD 7 = true :=
  (getLsbD_seven_iff c).not.mpr (Nat.not_le.mpr (Nat.lt_succ_of_le hc))

/-- The field of a run's control byte is the byte's value (30_encoding.md R110). -/
theorem toNat_runField {c : Byte} (hc : c.toNat ≤ 127) : (c.extractLsb' 0 7).toNat = c.toNat := by
  rw [BitVec.extractLsb'_toNat, Nat.shiftRight_zero]
  exact Nat.mod_eq_of_lt (Nat.lt_succ_of_le hc)

theorem decodeToken_rle_run {c : Byte} (b : Byte) (more : List Byte) (hc : c.toNat ≤ 127) :
    decodeToken .rle (c :: b :: more) = .ok (.rleRun (c.extractLsb' 0 7) b, more) :=
  if_neg (getLsbD_seven_ne hc)

theorem decodeToken_rle_run_nil {c : Byte} (hc : c.toNat ≤ 127) :
    decodeToken .rle [c] = .error .truncatedRun :=
  if_neg (getLsbD_seven_ne hc)

theorem decodeToken_rle_literal {c : Byte} (bs : List Byte) (hc : 128 ≤ c.toNat) :
    decodeToken .rle (c :: bs)
      = if bs.length < 256 - c.toNat then .error .truncatedLiteral
        else .ok (.rleLit (bs.take (256 - c.toNat)), bs.drop (256 - c.toNat)) :=
  if_pos ((getLsbD_seven_iff c).mpr hc)

/-- A run without its byte and a literal without all of its bytes are rejected, and not as the end of a stream
(41_rle.md R197, R198). -/
theorem decodeToken_rle_truncated {c : Byte} {bs : List Byte}
    (h : (c.toNat ≤ 127 ∧ bs = []) ∨ (128 ≤ c.toNat ∧ bs.length < 256 - c.toNat)) :
    ∃ r, decodeToken .rle (c :: bs) = .error r ∧ r ≠ .endOfStream := by
  rcases h with ⟨hc, rfl⟩ | ⟨hc, hlen⟩
  · exact ⟨.truncatedRun, decodeToken_rle_run_nil hc, nofun⟩
  · exact ⟨.truncatedLiteral, (decodeToken_rle_literal bs hc).trans (if_pos hlen), nofun⟩

end Sys2Proof

namespace Sys2Proof.Machine

/-! ### The turn of RLE.D, and the step that takes it -/

theorem rleDTurn_token {st : Storage} {i : Instr} {more : List Byte} (p : Params)
    (h : decodeToken .rle (st.input.drop st.ip) = .ok (i, more)) : rleDUnit.turn p st = .token i := by
  simp [rleDUnit, rleDTurn, h]

theorem rleDTurn_failed {st : Storage} {r : Reject} (p : Params)
    (h : decodeToken .rle (st.input.drop st.ip) = .error r) (hr : r ≠ .endOfStream) :
    rleDUnit.turn p st = .failed .malformedPayload := by
  cases r
  case endOfStream => contradiction
  all_goals simp [rleDUnit, rleDTurn, h]

/-- A unit's token is executed. -/
theorem continueCommand_token {op : Instr} {u : CodecUnit} {s : State} {i : Instr}
    (h : u.turn s.params s.store = .token i) : continueCommand op u s = exec i s := by
  simp [continueCommand, h]

/-- A unit's error ends the command. -/
theorem continueCommand_failed {op : Instr} {u : CodecUnit} {s : State} {e : ErrorKind}
    (h : u.turn s.params s.store = .failed e) :
    continueCommand op u s = .next (conclude op (.error e) s) := by
  simp [continueCommand, h]

/-- With no bus traffic pending, a running command's step is a turn of its unit. -/
theorem step_running {s : State} {op : Instr} {u : CodecUnit} (hp : s.params.legal = true) (hb : s.bus = [])
    (hph : s.phase = .running op) (hu : unitOf op = some u) : step s = continueCommand op u s :=
  (step_quiet hp hb).trans (engineMove_running true hph hu)

/-- A run token appends its copies (41_rle.md R197). -/
theorem exec_rleRun (n : BitVec 7) (b : Byte) (s : State) :
    exec (.rleRun n b) s = .next (s.withStore { s.store with
      ip := s.store.ip + 2
      out := s.store.out ++ List.replicate (n.toNat + 1) b
      rle := { s.store.rle with runLen := n.toNat + 1 } }) := rfl

/-- A literal token appends its bytes (41_rle.md R198). -/
theorem exec_rleLit (lits : List Byte) (s : State) :
    exec (.rleLit lits) s = .next (s.withStore { s.store with
      ip := s.store.ip + (1 + lits.length)
      out := s.store.out ++ lits
      rle := { s.store.rle with litLen := lits.length } }) := rfl

/-- A failure after memory was accessed leaves the block idle with the error reported (44_container.md R286). -/
theorem failAfterAccess_failedWith (op : Instr) (e : ErrorKind) (s : State) :
    FailedWith e s (failAfterAccess op e s) := by
  simp [FailedWith, SameHostSide, statusError_eq]

/-- A failure after memory was accessed changes no byte outside DST (44_container.md R286). -/
theorem failAfterAccess_sameOutside (op : Instr) (e : ErrorKind) (s : State) :
    SameOutside s.latched.dst s (failAfterAccess op e s) := fun _ ha => read_spoiled_outside op ha

/-- Settles O44: the step is a turn of RLE.D (`step_running`), the control byte decides the turn
(`decodeToken_rle_run`, `decodeToken_rle_literal`, `decodeToken_rle_truncated`), and a token it gives is
executed. -/
theorem rleStepFollowsItsControlByte : Obligations.RleStepFollowsItsControlByte := by
  intro s c bs hp hb hph hbytes
  rw [step_running hp hb hph rfl]
  refine ⟨?run, ?literal, ?truncated⟩
  case run =>
    rintro b more hc rfl
    have hdec := decodeToken_rle_run b more hc
    rw [← hbytes] at hdec
    rw [continueCommand_token (rleDTurn_token _ hdec), exec_rleRun, toNat_runField hc]
    exact ⟨_, rfl, rfl, rfl⟩
  case literal =>
    intro hc hlen
    have hdec := decodeToken_rle_literal bs hc
    rw [← hbytes, if_neg (Nat.not_lt.mpr hlen)] at hdec
    rw [continueCommand_token (rleDTurn_token _ hdec), exec_rleLit, List.length_take_of_le hlen]
    exact ⟨_, rfl, rfl, rfl⟩
  case truncated =>
    intro htrunc hd
    obtain ⟨r, hdec, hr⟩ := decodeToken_rle_truncated htrunc
    rw [← hbytes] at hdec
    rw [continueCommand_failed (rleDTurn_failed _ hdec hr), conclude_error hd]
    exact ⟨_, rfl, failAfterAccess_failedWith _ _ s, failAfterAccess_sameOutside _ _ s⟩

end Sys2Proof.Machine
end

section
/-! SUPPORT. The LZ77 matcher (42_lz77.md R211, R212): how far a match reaches and what stops it, and which of the
candidates in the window is kept. -/

namespace Sys2Proof.Machine

/-! ### The length of a match (R211) -/

theorem commonLen_le_cap (cap : Nat) (xs ys : List Byte) : commonLen cap xs ys ≤ cap := by
  fun_induction commonLen cap xs ys <;> omega

theorem commonLen_le_length (cap : Nat) (xs ys : List Byte) : commonLen cap xs ys ≤ ys.length := by
  fun_induction commonLen cap xs ys with
  | case1 | case2 | case3 | case5 => exact Nat.zero_le _
  | case4 cap x xs ys ih => rw [List.length_cons]; omega

/-- The bytes that are counted are shared. -/
theorem getElem?_eq_of_lt_commonLen {cap : Nat} {xs ys : List Byte} {k : Nat}
    (h : k < commonLen cap xs ys) : xs[k]? = ys[k]? := by
  fun_induction commonLen cap xs ys generalizing k with
  | case1 | case2 | case3 | case5 => contradiction
  | case4 cap x xs ys ih =>
    cases k with
    | zero => rfl
    | succ k => exact ih (by omega)

/-- The count stops at the cap, at the end of the second sequence, or where the sequences differ. -/
theorem commonLen_stops (cap : Nat) (xs ys : List Byte) :
    commonLen cap xs ys = cap ∨ commonLen cap xs ys = ys.length
      ∨ xs[commonLen cap xs ys]? ≠ ys[commonLen cap xs ys]? := by
  fun_induction commonLen cap xs ys with
  | case1 => exact .inl rfl
  | case2 cap ys =>
    cases ys with
    | nil => exact .inr (.inl rfl)
    | cons y ys => exact .inr (.inr nofun)
  | case3 => exact .inr (.inl rfl)
  | case4 cap x xs ys ih =>
    rw [Nat.add_comm 1]
    exact ih.imp (congrArg (· + 1)) (Or.imp_left (congrArg (· + 1)))
  | case5 cap x xs y ys hne => exact .inr (.inr (by simpa using hne))

/-- Settles O47: the facts about the shared bytes (`commonLen_stops` for the end of the match), read at the bytes
from the candidate and from the position on. -/
theorem matchLengthIsMaximal : Obligations.MatchLengthIsMaximal := by
  intro data c pos _ hpos
  have hin : matchLen data c pos ≤ (data.drop pos).length := commonLen_le_length _ _ _
  have hend := commonLen_stops Config.lookahead (data.drop c) (data.drop pos)
  rw [← matchLen, List.getElem?_drop, List.getElem?_drop] at hend
  rw [List.length_drop] at hin hend
  refine ⟨commonLen_le_cap _ _ _, by omega, fun k hk => ?_, ?_⟩
  · simpa using getElem?_eq_of_lt_commonLen hk
  · exact hend.imp_right (Or.imp_left (by omega))

/-! ### The best of the candidates (R212) -/

/-- What the search keeps after the candidates `lo` to `hi - 1`: no candidate's match is longer, and where there is
a match at all, its distance leads to the first candidate with one of that length. -/
structure BestAmong (data : List Byte) (pos lo hi : Nat) (best : Nat × Nat) : Prop where
  longest : ∀ c, lo ≤ c → c < hi → matchLen data c pos ≤ best.1
  dist_zero : best.1 = 0 → best.2 = 0
  earliest : 1 ≤ best.1 → ∃ c, lo ≤ c ∧ c < hi ∧ best.2 = pos - c ∧ matchLen data c pos = best.1
    ∧ ∀ c', lo ≤ c' → c' < c → matchLen data c' pos < best.1

theorem betterMatch_longer {data : List Byte} {pos c : Nat} {best : Nat × Nat}
    (h : best.1 < matchLen data c pos) :
    betterMatch data pos best c = (matchLen data c pos, pos - c) := if_pos h

theorem betterMatch_kept {data : List Byte} {pos c : Nat} {best : Nat × Nat}
    (h : matchLen data c pos ≤ best.1) : betterMatch data pos best c = best := if_neg (Nat.not_lt.mpr h)

/-- Before the first candidate there is no match. -/
theorem bestAmong_none (data : List Byte) (pos lo : Nat) : BestAmong data pos lo lo (0, 0) where
  longest _ hlo hhi := absurd hlo (Nat.not_le.mpr hhi)
  dist_zero _ := rfl
  earliest h := absurd h (Nat.not_succ_le_zero 0)

/-- One candidate more. -/
theorem BestAmong.extend {data : List Byte} {pos lo hi : Nat} {best : Nat × Nat} (hle : lo ≤ hi)
    (h : BestAmong data pos lo hi best) : BestAmong data pos lo (hi + 1) (betterMatch data pos best hi) := by
  rcases Nat.lt_or_ge best.1 (matchLen data hi pos) with hlt | hge
  · have hshorter : ∀ c, lo ≤ c → c < hi → matchLen data c pos < matchLen data hi pos :=
      fun c hlo hhi => Nat.lt_of_le_of_lt (h.longest c hlo hhi) hlt
    rw [betterMatch_longer hlt]
    refine ⟨fun c hlo hhi => ?_, fun hzero => ?_, fun _ => ?_⟩
    · rcases Nat.lt_succ_iff_lt_or_eq.mp hhi with hhi' | rfl
      · exact (hshorter c hlo hhi').le
      · exact Nat.le_refl _
    · exact absurd hzero (Nat.ne_zero_of_lt hlt)
    · exact ⟨hi, hle, Nat.lt_succ_self hi, rfl, rfl, hshorter⟩
  · rw [betterMatch_kept hge]
    refine ⟨fun c hlo hhi => ?_, h.dist_zero, fun hpos => ?_⟩
    · rcases Nat.lt_succ_iff_lt_or_eq.mp hhi with hhi' | rfl
      · exact h.longest c hlo hhi'
      · exact hge
    · obtain ⟨c, hlo, hhi, hfirst⟩ := h.earliest hpos
      exact ⟨c, hlo, Nat.lt_succ_of_lt hhi, hfirst⟩

/-- The search over `n` candidates keeps the best among them. -/
theorem bestAmong_foldl (data : List Byte) (pos lo n : Nat) :
    BestAmong data pos lo (lo + n) ((List.range' lo n).foldl (betterMatch data pos) (0, 0)) := by
  induction n with
  | zero => exact bestAmong_none data pos lo
  | succ n ih =>
    rw [List.range'_1_concat, List.foldl_append]
    exact ih.extend (Nat.le_add_right lo n)

/-- The best match is the best among the candidates of the window. -/
theorem bestAmong_bestMatch (data : List Byte) (pos : Nat) :
    BestAmong data pos (windowStart pos) pos (bestMatch data pos) := by
  have hwindow : windowStart pos + (pos - windowStart pos) = pos := Nat.add_sub_cancel' (Nat.sub_le _ _)
  have hbest := bestAmong_foldl data pos (windowStart pos) (pos - windowStart pos)
  rwa [hwindow] at hbest

/-- Settles O48: `bestMatch` keeps the best among the candidates of the window (`bestAmong_bestMatch`), whose
first one is at most 4095 bytes back. -/
theorem bestMatchIsLongestAndEarliest : Obligations.BestMatchIsLongestAndEarliest := by
  intro data pos best dist hbest
  have h := bestAmong_bestMatch data pos
  rw [hbest] at h
  refine ⟨h.longest, h.dist_zero, fun hpos => ?_⟩
  obtain ⟨c, hlo, hhi, hdist : dist = pos - c, hlen, hearlier⟩ := h.earliest hpos
  have hstart : pos - 4095 ≤ c := hlo
  have hc : pos - dist = c := by omega
  rw [hc]
  exact ⟨by omega, by omega, by omega, hlen, hearlier⟩

end Sys2Proof.Machine
end

section
/-! SUPPORT. The lenient end of an LZ77 stream (42_lz77.md R222): where the bytes end, the decoder's turn has
finished, and the command ends in a success with the output so far (44_container.md R284). -/

namespace Sys2Proof.Machine

/-! ### A success -/

/-- A command that nothing disturbs, whose output fits and is backed, succeeds (44_container.md R284). -/
theorem conclude_succeededWith {op : Instr} {o : Output} {s : State} (hd : disturbed op s = false)
    (hfit : o.out.length ≤ s.latched.dstCap.toNat) (hback : OutputBacked s o.out.length)
    (hwf : Memory.wf s.mem = true) :
    SucceededWith o.out.toList o.res0 o.res1 s (conclude op (.ok o) s) := by
  have hlen := OutSeq.length_toList o.out
  obtain ⟨m, hm⟩ : ∃ m, writeBytes s.params s.mem s.latched.dstAddr.toNat o.out.toList = some m :=
    writeBytes_of_backed (by rwa [hlen])
  have hread := read_writeBytes hm hwf
  rw [conclude_ok hd (fun _ => hfit) hm]
  refine ⟨rfl, ?outLen, rfl, rfl, rfl, ?host, fun k hk => ?written, fun a ha => ?outside⟩
  case outLen =>
    rw [completeCommand_outLen, BitVec.toNat_ofNat, hlen]
    exact Nat.mod_eq_of_lt (Nat.lt_of_le_of_lt hfit s.latched.dstCap.isLt)
  case host => simp [SameHostSide]
  case written =>
    simp only [completeCommand_mem, writtenBack_mem]
    rw [hread, if_pos (by omega), Nat.add_sub_cancel_left]
  case outside =>
    simp only [completeCommand_mem, writtenBack_mem]
    rw [hread, if_neg (by simpa [inRange] using ha)]

/-- A unit that has finished ends the command with its output. -/
theorem continueCommand_finished {op : Instr} {u : CodecUnit} {s : State}
    (h : u.turn s.params s.store = .finished) :
    continueCommand op u s = .next (conclude op (.ok (u.output s.store)) s) := by
  simp [continueCommand, h]

/-! ### The end of the bytes -/

/-- Where a pointer is due (30_encoding.md R113). -/
theorem lz77Format_pointer {st : Storage} (hlt : st.lz77.decision < 8)
    (hbit : st.lz77.ctrl.getLsbD st.lz77.decision = true) : lz77Format st = .lz77Ptr := by
  simp [lz77Format, hlt, hbit]

/-- No byte left, or one byte of a pointer: no token decodes. -/
theorem decodeToken_lz77_truncated {st : Storage}
    (h : st.input.length ≤ st.ip
      ∨ (st.ip + 1 = st.input.length ∧ st.lz77.decision < 8
          ∧ st.lz77.ctrl.getLsbD st.lz77.decision = true)) :
    ∃ r, decodeToken (lz77Format st) (st.input.drop st.ip) = .error r := by
  rcases h with hnone | ⟨hone, hlt, hbit⟩
  · rw [List.drop_eq_nil_of_le hnone]
    exact ⟨.endOfStream, rfl⟩
  · obtain ⟨b, hb⟩ : ∃ b, st.input.drop st.ip = [b] :=
      List.length_eq_one_iff.mp (by rw [List.length_drop]; omega)
    rw [hb, lz77Format_pointer hlt hbit]
    exact ⟨.truncatedPointer, rfl⟩

/-- Where no token decodes, LZ77.D has finished. -/
theorem lz77DTurn_finished {st : Storage} {r : Reject} (p : Params)
    (h : decodeToken (lz77Format st) (st.input.drop st.ip) = .error r) : lz77DUnit.turn p st = .finished := by
  simp [lz77DUnit, lz77DTurn, h]

/-- Settles O51: no token decodes (`decodeToken_lz77_truncated`), so LZ77.D has finished and the command ends
with the output so far (`conclude_succeededWith`). -/
theorem truncatedLz77StreamEndsWell : Obligations.TruncatedLz77StreamEndsWell := by
  intro s hp hb hph htrunc hd hfit hback hwf
  obtain ⟨r, hdec⟩ := decodeToken_lz77_truncated htrunc
  rw [step_running hp hb hph rfl, continueCommand_finished (lz77DTurn_finished _ hdec)]
  exact ⟨_, rfl, conclude_succeededWith (o := plainOutput s.store) hd hfit hback hwf⟩

end Sys2Proof.Machine
end

section
/-! SUPPORT. The strings of a dictionary (43_lzw.md R245). Where every entry names an earlier id, a chain of prefix
ids ends before its bound does, so a string does not depend on the bound and follows the rule's recursion. -/

namespace Sys2Proof.Machine

/-! ### One link of a chain -/

/-- A seed id ends the chain. -/
theorem lzwChain_seed (entries : List (Nat × Byte)) (n : Nat) {id : Nat} (h : id < 256) :
    lzwChain entries (n + 1) id = [BitVec.ofNat 8 id] := if_pos h

/-- An entry's id leads to its prefix. -/
theorem lzwChain_entry {entries : List (Nat × Byte)} {k pid : Nat} {c : Byte} (n : Nat)
    (h : entries[k]? = some (pid, c)) :
    lzwChain entries (n + 1) (256 + k) = lzwChain entries n pid ++ [c] := by
  simp [lzwChain, Config.lzwSeed, h]

/-- An id is a seed's, an entry's, or one beyond the dictionary. -/
theorem seed_or_entry_or_beyond (entries : List (Nat × Byte)) (id : Nat) :
    id < 256 ∨ (∃ k pid c, entries[k]? = some (pid, c) ∧ id = 256 + k) ∨ 256 + entries.length ≤ id := by
  rcases Nat.lt_or_ge id 256 with hseed | hge
  · exact .inl hseed
  obtain ⟨k, rfl⟩ := Nat.exists_eq_add_of_le hge
  rcases Nat.lt_or_ge k entries.length with hk | hk
  · exact .inr (.inl ⟨k, entries[k].1, entries[k].2, List.getElem?_eq_getElem hk, rfl⟩)
  · exact .inr (.inr (Nat.add_le_add_left hk 256))

/-! ### The bound of a chain -/

/-- Every entry names an id that was there before it (43_lzw.md R243). -/
def NamesEarlierIds (entries : List (Nat × Byte)) : Prop :=
  ∀ k pid c, entries[k]? = some (pid, c) → pid < 256 + k

/-- Below `256 + n` a chain has at most `n + 1` links, so a larger bound changes nothing. -/
theorem lzwChain_bound_irrelevant {entries : List (Nat × Byte)} (he : NamesEarlierIds entries) {n m id : Nat}
    (hn : id < 256 + n) (hle : n ≤ m) (hid : id < 256 + entries.length) :
    lzwChain entries (n + 1) id = lzwChain entries (m + 1) id := by
  induction n generalizing m id with
  | zero => rw [lzwChain_seed entries 0 hn, lzwChain_seed entries m hn]
  | succ n ih =>
    obtain ⟨m, rfl⟩ := Nat.exists_eq_add_one.mpr (Nat.zero_lt_of_lt hle)
    rcases seed_or_entry_or_beyond entries id with hseed | ⟨k, pid, c, hk, rfl⟩ | hbeyond
    · rw [lzwChain_seed entries _ hseed, lzwChain_seed entries _ hseed]
    · have hpid := he k pid c hk
      rw [lzwChain_entry _ hk, lzwChain_entry _ hk, ih (m := m) (by omega) (by omega) (by omega)]
    · exact absurd hid (Nat.not_lt.mpr hbeyond)

/-! ### Strings -/

theorem lzwString_seed (entries : List (Nat × Byte)) {id : Nat} (h : id < 256) :
    lzwString entries id = [BitVec.ofNat 8 id] := lzwChain_seed entries _ h

/-- The recursion of R245. -/
theorem lzwString_entry {entries : List (Nat × Byte)} (he : NamesEarlierIds entries) {k pid : Nat} {c : Byte}
    (hk : entries[k]? = some (pid, c)) :
    lzwString entries (256 + k) = lzwString entries pid ++ [c] := by
  obtain ⟨hlt, -⟩ := List.getElem?_eq_some_iff.mp hk
  have hpid := he k pid c hk
  obtain ⟨n, hn⟩ := Nat.exists_eq_add_one.mpr (Nat.zero_lt_of_lt hlt)
  have hbound := lzwChain_bound_irrelevant he (n := n) (m := n + 1) (id := pid) (by omega) (by omega) (by omega)
  unfold lzwString
  rw [lzwChain_entry _ hk, hn, hbound]

/-- The string of an id in the dictionary is not empty: it ends in the byte of its last link. -/
theorem lzwString_ne_nil {entries : List (Nat × Byte)} {id : Nat} (h : id < 256 + entries.length) :
    lzwString entries id ≠ [] := by
  unfold lzwString
  rcases seed_or_entry_or_beyond entries id with hseed | ⟨k, pid, c, hk, rfl⟩ | hbeyond
  · simp [lzwChain_seed entries _ hseed]
  · simp [lzwChain_entry _ hk]
  · exact absurd h (Nat.not_lt.mpr hbeyond)

/-- Settles O55: the bound of a chain does not matter (`lzwString_entry`), and appending to the prefix's string,
which is not empty, keeps its first byte. -/
theorem dictionaryStringFollowsItsPrefix : Obligations.DictionaryStringFollowsItsPrefix := by
  intro entries he
  refine ⟨fun id => lzwString_seed entries, fun k pid c hk => ?_⟩
  obtain ⟨hlt, -⟩ := List.getElem?_eq_some_iff.mp hk
  have hpid := he k pid c hk
  have hstring := lzwString_entry he hk
  have hne : lzwString entries pid ≠ [] := lzwString_ne_nil (by omega)
  exact ⟨hstring, by rw [hstring, List.head?_append_of_ne_nil _ hne]⟩

end Sys2Proof.Machine
end

section
/-! SUPPORT. The container commands (44_container.md R270 to R277), the Brotli words (R280) and the range checks
(R282): what a ready command's `exec` answers, how long its inputs are, and what its codec function returns. -/

namespace Sys2Proof.Machine

/-- Settles O18: a Brotli word fails in every state (`exec_brotli`). -/
theorem brotliWordsFail : Obligations.BrotliWordsFail := by
  refine ⟨rfl, rfl, fun i s hi => ?_⟩
  have hb : isBrotli i = true := by rcases hi with rfl | rfl <;> rfl
  exact ⟨_, exec_brotli hb s, rfl, failCommand_failedWith _ s, rfl, rfl⟩

/-! ### The range checks (R282) -/

theorem usesMeta_iff (op : Instr) : usesMeta op = true ↔ op = .contSer := beq_iff_eq

theorem usesDst_iff (op : Instr) : usesDst op = true ↔ op ≠ .contParse := by simp [usesDst]

theorem overlaps_iff (r t : AddrRange) :
    overlaps r t = true ↔
      0 < r.size ∧ 0 < t.size ∧ r.base < t.base + t.size ∧ t.base < r.base + r.size := by
  simp [overlaps, and_assoc]

/-- `Validate` fails exactly when one of the checks does. -/
theorem validRanges_eq_false_iff (op : Instr) (p : Params) (l : Latched) :
    validRanges op p l = false ↔ true ∈ rangeViolations op p l := by
  simp [validRanges]

/-- Each implemented command has a codec unit. -/
theorem exists_unitOf_of_implemented {op : Instr} (h : op ∈ implemented) : ∃ u, unitOf op = some u := by
  rw [← Option.isSome_iff_exists]
  revert op
  decide

/-- Settles O23: each member of `rangeViolations` is one of the seven checks, and a command that fails one does
nothing but fail (`runCommand_invalid`). -/
theorem rangeChecksFailInvalidInput : Obligations.RangeChecksFailInvalidInput := by
  intro op s hop
  obtain ⟨u, hu⟩ := exists_unitOf_of_implemented hop
  constructor
  · rw [validRanges_eq_false_iff]
    simp [rangeViolations, usesMeta_iff, usesDst_iff, overlaps_iff, Latched.src, Latched.dst,
      Latched.metadata]
  · intro hv
    rw [exec_unit hu, runCommand_invalid u hv]
    exact ⟨_, rfl, failCommand_failedWith _ s, rfl, rfl⟩

/-! ### A ready command -/

/-- A ready command ends as its codec function's answer says (R281). -/
theorem exec_ready {op : Instr} {u : CodecUnit} {s : State} {inp : Inputs} (hu : unitOf op = some u)
    (h : Ready op s inp) :
    ∃ st, exec op s = .next ((conclude op (u.codec s.params inp) s).withStore st) := by
  obtain ⟨st, hst⟩ := runCommand_ready (unitOf_stateless hu) h
  exact ⟨st, by rw [exec_unit hu, hst]⟩

/-- `ReadInputs` returns as many bytes as the latched lengths say (R283). -/
theorem length_of_readInputs {op : Instr} {s : State} {m b : List Byte} (h : readInputs op s = some ⟨m, b⟩) :
    b.length = s.latched.srcLen.toNat ∧ (usesMeta op = true → m.length = s.latched.metaLen.toNat) := by
  unfold readInputs at h
  split at h
  · contradiction
  · next m' hm =>
    obtain ⟨b', hb, heq⟩ := Option.map_eq_some_iff.mp h
    cases heq
    refine ⟨readBytes_length hb, fun hu => ?_⟩
    rw [if_pos hu] at hm
    exact readBytes_length hm

/-! ### CONT.SER and CONT.PARSE -/

/-- The length of a container (R270). -/
theorem length_serialize (m payload : List Byte) :
    (serialize m payload).length = 4 + m.length + payload.length := by
  simp [serialize, toBE32]
  omega

/-- CONT.SER's codec function is SERIALIZE; it has no error (R272). -/
theorem contSer_codec (p : Params) (m b : List Byte) :
    contSerUnit.codec p ⟨m, b⟩ = .ok ⟨.bytes (serialize m b), m.length, b.length⟩ := rfl

/-- CONT.PARSE's codec function on a container that parses: no output, and the two lengths (R276). -/
theorem contParse_codec (p : Params) {m c : List Byte} {r : Parsed} (h : parse c = .ok r) :
    contParseUnit.codec p ⟨m, c⟩ = .ok ⟨.bytes [], r.ml.toNat, c.length - 4 - r.ml.toNat⟩ := by
  simp only [CodecUnit.codec, contParseUnit, contParseInit, h]
  rfl

/-- CONT.PARSE ends in success where its codec function does: it writes nothing (R276). -/
theorem conclude_contParse {s : State} (x y : Nat) (hd : disturbed .contParse s = false) :
    conclude .contParse (.ok ⟨.bytes [], x, y⟩) s = completeCommand 0 x y (writtenBack 0 s.mem s) :=
  conclude_ok hd (fun h => absurd h (by decide)) rfl

/-- Settles O58: PARSE takes apart what SERIALIZE framed (`parse_serialize`), and CONT.PARSE reports the lengths
of the two parts, which fit their registers since `SRC_LEN` does. -/
theorem parseInvertsSerialize : Obligations.ParseInvertsSerialize := by
  intro m payload hm
  have hparse := parse_serialize payload (m := m) (by omega)
  refine ⟨hparse, fun s hready => ?_⟩
  obtain ⟨st, hexec⟩ := exec_ready rfl hready
  obtain ⟨-, hd, hread⟩ := hready
  rw [contParse_codec _ hparse, conclude_contParse _ _ hd] at hexec
  have hsrc : 4 + m.length + payload.length < 2 ^ 32 := by
    rw [← length_serialize, (length_of_readInputs hread).1]
    exact s.latched.srcLen.isLt
  have hml : (BitVec.ofNat 32 m.length).toNat = m.length := by
    rw [BitVec.toNat_ofNat, Nat.mod_eq_of_lt (by omega)]
  have hpl : (serialize m payload).length - 4 - m.length = payload.length := by
    rw [length_serialize]
    omega
  rw [hml, hpl] at hexec
  refine ⟨_, hexec, rfl, hml, ?_⟩
  exact (BitVec.toNat_ofNat _ _).trans (Nat.mod_eq_of_lt (by omega))

/-- Settles O59: the codec function is SERIALIZE of the two inputs (`contSer_codec`), whose lengths are META_LEN
and SRC_LEN (`length_of_readInputs`); the container fits and is written (`conclude_succeededWith`), or it does not
(`conclude_overflow`). -/
theorem contSerFramesMetaAndSrc : Obligations.ContSerFramesMetaAndSrc := by
  intro s m b hready hwf
  obtain ⟨st, hexec⟩ := exec_ready rfl hready
  obtain ⟨-, hd, hread⟩ := hready
  rw [contSer_codec] at hexec
  obtain ⟨hb, hm⟩ := length_of_readInputs hread
  have hsrc : BitVec.ofNat 32 b.length = s.latched.srcLen := by
    rw [hb, BitVec.ofNat_toNat, BitVec.setWidth_eq]
  have hmeta : BitVec.ofNat 32 m.length = s.latched.metaLen := by
    rw [hm rfl, BitVec.ofNat_toNat, BitVec.setWidth_eq]
  rw [← length_serialize]
  refine ⟨fun hfit hback => ?fits, fun hlong => ?overflows⟩
  case fits =>
    have hsucc := conclude_succeededWith (o := ⟨.bytes (serialize m b), m.length, b.length⟩) hd hfit hback hwf
    have hbytes : serialize m b = toBE32 s.latched.metaLen ++ m ++ b := by rw [serialize, hmeta]
    rw [← hbytes]
    obtain ⟨hstatus, hlen, h0, h1, hrest⟩ := hsucc
    exact ⟨_, hexec, h0.trans hmeta, h1.trans hsrc, hstatus, hlen, h0, h1, hrest⟩
  case overflows =>
    rw [conclude_overflow (o := ⟨.bytes (serialize m b), _, _⟩) hd rfl hlong] at hexec
    exact ⟨_, hexec, failAfterAccess_failedWith _ _ s, failAfterAccess_sameOutside .contSer .outputOverflow s⟩

end Sys2Proof.Machine
end

section
/-! SUPPORT. Reads of the register block (10_state.md R32, R44; 20_memory.md R77, R81; 70_reset_and_hazards.md
R350) and the block after a reset (R340): the step that each takes, what a read returns, and what it leaves
unchanged. -/

namespace Sys2Proof.Machine

/-- What the invariant says, part by part. -/
theorem State.inv_iff (s : State) :
    s.inv = true ↔
      s.params.legal = true ∧ statusLegal s.status = true ∧ s.busy = !decide (s.phase = .idle)
        ∧ phaseLegal s = true ∧ (!s.raced || s.busy) = true ∧ Memory.wf s.mem = true
        ∧ Memory.below s.mem (2 ^ s.params.addrWidth) = true := by
  simp only [State.inv, Bool.and_eq_true, beq_iff_eq, and_assoc]

/-- The one legal STATUS that shows BUSY (10_state.md R34). -/
theorem eq_statusBusy_of_busyBit {w : Word} (hw : statusLegal w = true) (hb : busyBit w = true) :
    w = statusBusy := by
  simp only [statusLegal, Bool.or_eq_true, beq_iff_eq, or_assoc] at hw
  rcases hw with rfl | rfl | rfl | rfl | rfl | rfl | rfl | rfl | rfl
  case inr.inl => rfl
  all_goals exact absurd hb (by decide)

/-! ### The steps -/

/-- The step of a register read. -/
theorem step_regRead {s : State} {off : Nat} {rest : List BusOp} (hp : s.params.legal = true)
    (hlt : off < 64) (hal : off % 4 = 0) (hb : s.bus = .regRead (s.params.regBase + off) 4 :: rest) :
    step s = .next (registerRead (regAt off) (s.withBus rest)) := by
  rw [step_bus hp hb]
  exact registerAccess_word (s := s.withBus rest) registerRead hp hlt hal

/-- The step of a reset. -/
theorem step_reset {s : State} {rest : List BusOp} (hp : s.params.legal = true)
    (hb : s.bus = .reset :: rest) : step s = .next (resetBlock (s.withBus rest)) :=
  step_bus hp hb

/-! ### What a register read returns -/

/-- The result registers, which read any value while BUSY (R350). -/
def Reg.isResult : Reg → Bool
  | .outLen | .result0 | .result1 => true
  | .cmd | .status | .srcAddr | .srcLen | .dstAddr | .dstCap | .metaAddr | .metaLen | .reserved => false

/-- What a register holds; a reserved offset holds 0 (10_state.md R32, R44). -/
def Reg.stored : Reg → State → Word
  | .cmd, s => s.cmd
  | .status, s => s.status
  | .srcAddr, s => s.srcAddr
  | .srcLen, s => s.srcLen
  | .dstAddr, s => s.dstAddr
  | .dstCap, s => s.dstCap
  | .metaAddr, s => s.metaAddr
  | .metaLen, s => s.metaLen
  | .outLen, s => s.outLen
  | .result0, s => s.result0
  | .result1, s => s.result1
  | .reserved, _ => 0

theorem readsFree_eq (r : Reg) (s : State) : readsFree r s = (s.busy && r.isResult) := by
  cases r <;> rfl

theorem readRegister_eq (r : Reg) (s : State) :
    readRegister r s = if s.busy && r.isResult then Config.freeWord s.draws else r.stored s := by
  rw [← readsFree_eq]
  cases r <;> rfl

/-- Every register but the results reads its stored value, while BUSY too. -/
theorem readRegister_of_not_isResult {r : Reg} (s : State) (h : r.isResult = false) :
    readRegister r s = r.stored s := by
  simp [readRegister_eq, h]

theorem readRegister_idle {s : State} (r : Reg) (h : s.busy = false) : readRegister r s = r.stored s := by
  simp [readRegister_eq, h]

theorem readRegister_result_busy {r : Reg} {s : State} (h : s.busy = true) (hr : r.isResult = true) :
    readRegister r s = Config.freeWord s.draws := by
  simp [readRegister_eq, h, hr]

/-! ### What a register read leaves unchanged -/

/-- While BUSY a read changes the data read and, by a draw, the draw counter. -/
theorem registerRead_busy {s : State} (r : Reg) (h : s.busy = true) :
    registerRead r s
      = { s with readData := readRegister r s, draws := if r.isResult then s.draws + 1 else s.draws } := by
  simp [registerRead, unseenAfterRead, readsFree_eq, h]

/-- While idle a read changes the data read and, when it shows the end of a command, the bytes still to be seen
(20_memory.md R81). -/
theorem registerRead_idle {s : State} (r : Reg) (h : s.busy = false) :
    registerRead r s
      = { s with readData := readRegister r s, unseen := if r = .status then [] else s.unseen } := by
  simp [registerRead, unseenAfterRead, readsFree_eq, h]

/-! ### Which register stands at an offset -/

theorem regAt_eq_status_iff (off : Nat) : regAt off = .status ↔ off = 0x04 := by
  unfold regAt
  split_ifs <;> simp_all

theorem regAt_reserved {off : Nat} (h : 0x2C ≤ off) : regAt off = .reserved := by
  unfold regAt
  iterate 11 rw [if_neg (by omega)]

/-- Settles O14: a register read is one step (`step_regRead`); it returns the stored value
(`readRegister_of_not_isResult`, `readRegister_idle`), which is 1 for the STATUS of a busy block
(`eq_statusBusy_of_busyBit`), or a free value (`readRegister_result_busy`). -/
theorem registerReadsBusyAndIdle : Obligations.RegisterReadsBusyAndIdle := by
  intro s off rest hinv hlt hal hb
  obtain ⟨hp, hstatus, -⟩ := (State.inv_iff s).mp hinv
  have hstored (o : Nat) (hr : (regAt o).isResult = false) (hoff : off = o) :
      (registerRead (regAt off) (s.withBus rest)).readData = (regAt o).stored (s.withBus rest) := by
    subst hoff
    exact readRegister_of_not_isResult _ hr
  refine ⟨_, step_regRead hp hlt hal hb, hstored 0x00 rfl, hstored 0x04 rfl, hstored 0x08 rfl, hstored 0x0C rfl,
    hstored 0x10 rfl, hstored 0x14 rfl, hstored 0x18 rfl, hstored 0x1C rfl, fun hres => ?reserved,
    fun hbusy => ?busy, fun hidle => ?idle⟩
  case reserved =>
    rw [regAt_reserved hres]
    exact readRegister_of_not_isResult _ rfl
  case busy =>
    have hb' : (s.withBus rest).busy = true := hbusy
    refine ⟨fun hoff => ?status, fun hoff => ?result, ?frame⟩
    case status => exact (hstored 0x04 rfl hoff).trans (eq_statusBusy_of_busyBit hstatus hbusy)
    case result =>
      rcases hoff with rfl | rfl | rfl <;> exact readRegister_result_busy hb' rfl
    case frame =>
      rw [registerRead_busy _ hb']
      rfl
  case idle =>
    have hi : (s.withBus rest).busy = false := hidle
    have hread (o : Nat) (hoff : off = o) :
        (registerRead (regAt off) (s.withBus rest)).readData = (regAt o).stored (s.withBus rest) := by
      subst hoff
      exact readRegister_idle _ hi
    refine ⟨hread 0x20, hread 0x24, hread 0x28, ?frame⟩
    simp only [registerRead_idle _ hi, regAt_eq_status_iff]
    rfl

/-- Settles O10: a reset is one step (`step_reset`), and `resetBlock` draws the parameter registers from the
counter that the abandoned command leaves. -/
theorem resetSetsEveryRegister : Obligations.ResetSetsEveryRegister := by
  intro s rest hp hb
  exact ⟨_, (abandoned (s.withBus rest)).draws, step_reset hp hb, rfl, rfl, rfl, rfl, rfl,
    resetBlock_srcAddr _, resetBlock_srcLen _, resetBlock_dstAddr _, resetBlock_dstCap _, resetBlock_metaAddr _,
    resetBlock_metaLen _, resetBlock_phase _, readRegister_of_not_isResult _ rfl, resetBlock_bus _⟩

end Sys2Proof.Machine
end

section
/-! SUPPORT. The tokens of the three streams (30_encoding.md sections 4 to 6): what the encoder writes is what the
decoder reads, whatever follows it, and what the decoder reads is what the encoder writes. -/

namespace Sys2Proof

/-! ### Fields of a token -/

/-- The two bytes of a 16-bit field are the bytes it was read from. -/
theorem toBE16_be16 (x y : Byte) : toBE16 (be16 x y) = [x, y] :=
  congrArg₂ (fun a b => [a, b]) (BitVec.extractLsb'_append_eq_left (a := x) (b := y))
    (BitVec.extractLsb'_append_eq_right (a := x) (b := y))

theorem toNat_runControl (n : BitVec 7) : (runControl n).toNat = n.toNat := by
  rw [runControl, BitVec.toNat_setWidth]
  omega

/-- A control byte announces the number of literals it was made for (30_encoding.md R109, R111). -/
theorem toNat_literalControl {k : Nat} (h : 1 ≤ k) (hk : k ≤ 256) : (literalControl k).toNat = 256 - k := by
  rw [literalControl, BitVec.toNat_ofNat]
  omega

theorem extractDistance_pointerWord (d : BitVec 12) (l : BitVec 4) :
    (pointerWord d l).extractLsb' 4 12 = d := by
  ext i hi
  have hbound : 4 + i < 16 ∧ i < 16 := by omega
  simp [pointerWord, hbound, BitVec.getLsbD_eq_getElem hi]

theorem extractLength_pointerWord (d : BitVec 12) (l : BitVec 4) :
    (pointerWord d l).extractLsb' 0 4 = l := by
  ext i hi
  have hbound : i < 16 := by omega
  simp [pointerWord, hbound, hi]

/-- A pointer word is made of its two fields (30_encoding.md R116). -/
theorem pointerWord_extract (w : BitVec 16) : pointerWord (w.extractLsb' 4 12) (w.extractLsb' 0 4) = w := by
  ext i hi
  by_cases h4 : i < 4
  · simp [pointerWord, h4, BitVec.getLsbD_eq_getElem hi]
  · have hsum : 4 + (i - 4) = i ∧ i - 4 < 12 := by omega
    simp [pointerWord, h4, hsum, BitVec.getLsbD_eq_getElem hi]

theorem literalCountOk_iff (lits : List Byte) :
    literalCountOk lits = true ↔ 1 ≤ lits.length ∧ lits.length ≤ 128 := by
  rw [literalCountOk, Bool.and_eq_true, decide_eq_true_iff, decide_eq_true_iff]
  rfl

/-! ### Decoding an encoding -/

theorem decodeToken_rleRun (n : BitVec 7) (b : Byte) (rest : List Byte) :
    decodeToken .rle (runControl n :: b :: rest) = .ok (.rleRun n b, rest) := by
  have hn := toNat_runControl n
  have hc : (runControl n).toNat ≤ 127 := by omega
  have hfield : (runControl n).extractLsb' 0 7 = n := by
    apply BitVec.eq_of_toNat_eq
    rw [toNat_runField hc, hn]
  rw [decodeToken_rle_run b rest hc, hfield]

theorem decodeToken_rleLit {lits : List Byte} (h1 : 1 ≤ lits.length) (h2 : lits.length ≤ 128)
    (rest : List Byte) :
    decodeToken .rle (literalControl lits.length :: (lits ++ rest)) = .ok (.rleLit lits, rest) := by
  have hc := toNat_literalControl h1 (by omega)
  have hlen : 256 - (literalControl lits.length).toNat = lits.length := by omega
  rw [decodeToken_rle_literal _ (by omega), hlen, if_neg (by simp), List.take_left, List.drop_left]

theorem decodeToken_lz77Ptr (d : BitVec 12) (l : BitVec 4) (rest : List Byte) :
    decodeToken .lz77Ptr (toBE16 (pointerWord d l) ++ rest) = .ok (.lz77Ptr d l, rest) := by
  simp [toBE16, decodeToken, decodePtr, be16_toBE16, extractDistance_pointerWord, extractLength_pointerWord]

theorem decodeToken_lzwCode (c : BitVec 16) (rest : List Byte) :
    decodeToken .lzw (toBE16 c ++ rest) = .ok (.lzwCode c, rest) := by
  simp [toBE16, decodeToken, decodeCode, be16_toBE16]

/-- Settles O2: a command's word by `decodeCommand_encode`, each token by the lemma about its format. -/
theorem encodedInstructionDecodesBack : Obligations.EncodedInstructionDecodesBack := by
  intro i hi
  cases i
  case rleRun n b => exact decodeToken_rleRun n b
  case rleLit lits =>
    obtain ⟨h1, h2⟩ := (literalCountOk_iff lits).mp hi
    exact decodeToken_rleLit h1 h2
  case lz77Ctrl k => exact fun rest => rfl
  case lz77Lit b => exact fun rest => rfl
  case lz77Ptr d l => exact decodeToken_lz77Ptr d l
  case lzwCode c => exact decodeToken_lzwCode c
  all_goals exact decodeCommand_encode rfl

/-! ### Encoding what was decoded -/

/-- An instruction is a well-formed token of the format `f`, and `bs` starts with its encoding. -/
def ReadAs (f : Format) (bs : List Byte) (i : Instr) (rest : List Byte) : Prop :=
  i.wellFormed = true ∧ ∃ pre, encode i = .token f pre ∧ bs = pre ++ rest

theorem readAs_of_decodeRle {c : Byte} {bs rest : List Byte} {i : Instr}
    (h : decodeToken .rle (c :: bs) = .ok (i, rest)) : ReadAs .rle (c :: bs) i rest := by
  have hlt := c.isLt
  rcases Nat.lt_or_ge 127 c.toNat with hlit | hrun
  · rw [decodeToken_rle_literal bs hlit] at h
    split at h
    · contradiction
    · next hfull =>
      cases h
      have hlen : (bs.take (256 - c.toNat)).length = 256 - c.toNat := List.length_take_of_le (by omega)
      have hcontrol : literalControl (bs.take (256 - c.toNat)).length = c := by
        apply BitVec.eq_of_toNat_eq
        rw [toNat_literalControl (by omega) (by omega)]
        omega
      refine ⟨(literalCountOk_iff _).mpr (by omega), _, rfl, ?_⟩
      rw [hcontrol, List.cons_append, List.take_append_drop]
  · cases bs with
    | nil =>
      rw [decodeToken_rle_run_nil hrun] at h
      contradiction
    | cons b bs =>
      rw [decodeToken_rle_run b bs hrun] at h
      cases h
      have hcontrol : runControl (c.extractLsb' 0 7) = c := by
        apply BitVec.eq_of_toNat_eq
        rw [toNat_runControl, toNat_runField hrun]
      exact ⟨rfl, _, rfl, by rw [hcontrol]; rfl⟩

theorem readAs_of_decodePtr {b : Byte} {bs rest : List Byte} {i : Instr}
    (h : decodeToken .lz77Ptr (b :: bs) = .ok (i, rest)) : ReadAs .lz77Ptr (b :: bs) i rest := by
  cases bs with
  | nil => contradiction
  | cons b' bs =>
    cases h
    exact ⟨rfl, _, rfl, by rw [pointerWord_extract, toBE16_be16]; rfl⟩

theorem readAs_of_decodeCode {b : Byte} {bs rest : List Byte} {i : Instr}
    (h : decodeToken .lzw (b :: bs) = .ok (i, rest)) : ReadAs .lzw (b :: bs) i rest := by
  cases bs with
  | nil => contradiction
  | cons b' bs =>
    cases h
    exact ⟨rfl, _, rfl, by rw [toBE16_be16]; rfl⟩

/-- Settles O3: no token decodes from no byte, and in each format the fields read give the bytes back. -/
theorem decodedTokenIsItsEncoding : Obligations.DecodedTokenIsItsEncoding := by
  intro f bs rest i h
  cases bs with
  | nil => contradiction
  | cons b bs =>
    cases f with
    | rle => exact readAs_of_decodeRle h
    | lz77Ctrl =>
      cases h
      exact ⟨rfl, _, rfl, rfl⟩
    | lz77Lit =>
      cases h
      exact ⟨rfl, _, rfl, rfl⟩
    | lz77Ptr => exact readAs_of_decodePtr h
    | lzw => exact readAs_of_decodeCode h

/-- A word that is a literal of one byte: the literal is the first of the zero bytes that stand for the operand
(assumption log 17). -/
theorem decodeTableWord_literal_one : decodeTableWord 8 0xFF = some (.rleLit [0x00]) := by
  have hdec : decodeToken .rle (0xFF#8 :: List.replicate Config.rleMaxLiteral 0)
      = .ok (.rleLit [0x00], List.replicate 127 0) := by
    rw [decodeToken_rle_literal _ (by decide), if_neg (by simp [Config.rleMaxLiteral])]
    rfl
  have himage : tableImage 8 0xFF = some (.token .rle (0xFF#8 :: List.replicate Config.rleMaxLiteral 0)) := rfl
  rw [decodeTableWord, himage]
  simp only [decode, hdec]

/-- Settles O4: the decoder evaluates each word. -/
theorem sampleWordsDecode : Obligations.SampleWordsDecode := by
  refine ⟨?_, ?_, ?_, ?_, ?_, decodeTableWord_literal_one, ?_, ?_, ?_, ?_, ?_, ?_⟩
  all_goals decide

end Sys2Proof
end

section
/-! SUPPORT. How a command ends, whichever way (44_container.md R281 to R286): idle, with a final STATUS, the host's
side kept; that every command word ends so (70_reset_and_hazards.md R358); and the engine's step on a dispatched
word and on a decoder's token (30_encoding.md R119). -/

namespace Sys2Proof.Machine

/-! ### The final STATUS (10_state.md R34) -/

/-- A STATUS that a command may end with: legal, with DONE and without BUSY. -/
def FinalStatus (w : Word) : Prop := statusLegal w = true ∧ doneBit w = true ∧ busyBit w = false

theorem finalStatus_done : FinalStatus statusDone := by
  unfold FinalStatus
  decide

theorem finalStatus_error (e : ErrorKind) : FinalStatus (statusError e) := by
  unfold FinalStatus
  cases e <;> decide

theorem finalStatus_free (k : Nat) : FinalStatus (freeStatus k) := by
  unfold freeStatus
  split
  · exact finalStatus_done
  all_goals exact finalStatus_error _

/-! ### The end of a command -/

/-- A command of `s` has ended in `t`. -/
structure Ends (s t : State) : Prop where
  phase : t.phase = .idle
  raced : t.raced = false
  status : FinalStatus t.status
  host : SameHostSide s t

theorem failCommand_ends (e : ErrorKind) (s : State) : Ends s (failCommand e s) :=
  ⟨rfl, rfl, finalStatus_error e, by simp [SameHostSide]⟩

theorem failAfterAccess_ends (op : Instr) (e : ErrorKind) (s : State) : Ends s (failAfterAccess op e s) :=
  ⟨rfl, rfl, finalStatus_error e, by simp [SameHostSide]⟩

theorem unspecifiedEnd_ends (op : Instr) (s : State) : Ends s (unspecifiedEnd op s) :=
  ⟨rfl, rfl, finalStatus_free _, by simp [SameHostSide]⟩

theorem conclude_ends (op : Instr) (r : Except ErrorKind Output) (s : State) : Ends s (conclude op r s) := by
  rcases conclude_cases op r s with ⟨-, h⟩ | ⟨-, e, h, -⟩ | ⟨-, o, m, -, -, -, h⟩ <;> rw [h]
  · exact unspecifiedEnd_ends op s
  · exact failAfterAccess_ends op e s
  · exact ⟨rfl, rfl, finalStatus_done, by simp [SameHostSide]⟩

theorem runCommand_ends (op : Instr) (u : CodecUnit) (s : State) : Ends s (runCommand op u s) := by
  rcases runCommand_cases op u s with ⟨-, h⟩ | ⟨-, -, h⟩ | ⟨-, -, e, h⟩ | ⟨-, -, r, st, h⟩ <;> rw [h]
  · exact failCommand_ends _ s
  · exact unspecifiedEnd_ends op s
  · exact failAfterAccess_ends op e s
  · obtain ⟨hphase, hraced, hstatus, hhost⟩ := conclude_ends op r (s.withStore st)
    exact ⟨hphase, hraced, hstatus, hhost⟩

/-- Every command ends. -/
theorem exec_ends {i : Instr} (h : i.isCommand = true) (s : State) : ∃ t, exec i s = .next t ∧ Ends s t := by
  rcases isCommand_cases h with ⟨u, hu⟩ | hb
  · exact ⟨_, exec_unit hu s, runCommand_ends i u s⟩
  · exact ⟨_, exec_brotli hb s, failCommand_ends _ s⟩

/-- A dispatched word, legal or not, ends when it is run whole. -/
theorem engineMove_dispatch_ends {s : State} (h : s.phase = .dispatch) :
    ∃ t, engineMove true s = .next t ∧ Ends s t := by
  cases hd : decodeCommand s.cmd with
  | error r => exact ⟨_, engineMove_dispatch_illegal true h hd, failCommand_ends _ s⟩
  | ok i =>
    rw [engineMove_dispatch h hd]
    exact exec_ends (isCommand_encode_of_decodeCommand hd).1 s

/-- Settles O19: the step is the engine's, and a dispatched word ends (`engineMove_dispatch_ends`). -/
theorem everyDispatchedWordCompletes : Obligations.EveryDispatchedWordCompletes := by
  intro s hp hph hb
  obtain ⟨t, ht, hends⟩ := engineMove_dispatch_ends hph
  obtain ⟨-, hdone, hbusy⟩ := hends.status
  exact ⟨t, (step_quiet hp hb).trans ht, hends.phase, hbusy, hdone, hends.host⟩

/-- Settles O5: the turn is the engine's, with no traffic and when the traffic leaves it. -/
theorem stepRunsDispatchedCommand : Obligations.StepRunsDispatchedCommand := by
  intro s i hp hph hd
  refine ⟨fun hb => ?_, fun rest hb => ?_⟩
  · rw [step_quiet hp hb, engineMove_dispatch hph hd]
  · rw [step_bus hp hb]
    exact engineMove_dispatch (s := s.withBus rest) hph hd

/-! ### Tokens -/

/-- Executing a token is applying, for the decoder of its stream, the effect that the decoder's unit gives it. -/
theorem exec_token {i : Instr} {f : Format} {bs : List Byte} (h : encode i = .token f bs) :
    ∃ u, unitOf (streamOf f) = some u
      ∧ ∀ s, exec i s = .next (applyToken (streamOf f) (fun p st => u.token p i st) s) := by
  cases i
  case rleRun | rleLit | lz77Ctrl | lz77Lit | lz77Ptr | lzwCode =>
    cases h
    exact ⟨_, rfl, fun _ => rfl⟩
  all_goals contradiction

/-- The streams of the three LZ77 formats are LZ77.D's. -/
theorem streamOf_lz77Format (st : Storage) : streamOf (lz77Format st) = .lz77D := by
  unfold lz77Format
  split
  · rfl
  · split <;> rfl

/-- The tokens that a unit's turn reads: decoded in some format of the unit's own stream. -/
theorem decode_of_turn_token {op i : Instr} {u : CodecUnit} {p : Params} {st : Storage}
    (hu : unitOf op = some u) (h : u.turn p st = .token i) :
    ∃ f bs rest, streamOf f = op ∧ decodeToken f bs = .ok (i, rest) := by
  cases op <;> cases hu
  case rleD =>
    simp only [rleDUnit, rleDTurn] at h
    split at h <;> cases h
    next hdec => exact ⟨.rle, _, _, rfl, hdec⟩
  case lz77D =>
    simp only [lz77DUnit, lz77DTurn] at h
    split at h <;> cases h
    next hdec => exact ⟨_, _, _, streamOf_lz77Format st, hdec⟩
  case lzwD =>
    simp only [lzwDUnit, lzwDTurn] at h
    split at h <;> cases h
    next hdec => exact ⟨.lzw, _, _, rfl, hdec⟩
  case contSer | contParse => cases h
  case hufC =>
    simp only [hufCUnit, hufCTurn] at h
    split at h <;> cases h
  case hufD =>
    simp only [hufDUnit, hufDTurn] at h
    split at h
    · cases h
    · split at h
      · split at h <;> cases h
      · split at h <;> cases h
  case rleC =>
    simp only [rleCUnit, rleCTurn] at h
    split at h
    · cases h
    · split at h <;> cases h
  case lz77C =>
    simp only [lz77CUnit, lz77CTurn] at h
    split at h <;> cases h
  case lzwC =>
    simp only [lzwCUnit, lzwCTurn] at h
    split at h
    · cases h
    · split at h <;> cases h

/-- Executing a token that a unit's turn has read is applying the unit's own effect of it. -/
theorem exec_of_turn_token {op i : Instr} {u : CodecUnit} {p : Params} {st : Storage}
    (hu : unitOf op = some u) (h : u.turn p st = .token i) (s : State) :
    exec i s = .next (applyToken op (fun p st => u.token p i st) s) := by
  obtain ⟨f, bs, rest, rfl, hdec⟩ := decode_of_turn_token hu h
  obtain ⟨-, pre, henc, -⟩ := decodedTokenIsItsEncoding f bs rest i hdec
  obtain ⟨u', hu', hexec⟩ := exec_token henc
  cases hu.symm.trans hu'
  exact hexec s

theorem lz77DTurn_token {st : Storage} {i : Instr} {more : List Byte} (p : Params)
    (h : decodeToken (lz77Format st) (st.input.drop st.ip) = .ok (i, more)) :
    lz77DUnit.turn p st = .token i := by
  simp [lz77DUnit, lz77DTurn, h]

theorem lzwDTurn_token {st : Storage} {i : Instr} {more : List Byte} (p : Params)
    (h : decodeToken .lzw (st.input.drop st.ip) = .ok (i, more)) : lzwDUnit.turn p st = .token i := by
  simp [lzwDUnit, lzwDTurn, h]

/-- A running unit whose turn reads a token executes it, however the engine gets its turn. -/
theorem engineMove_token (whole : Bool) {s : State} {op i : Instr} {u : CodecUnit}
    (hph : s.phase = .running op) (hu : unitOf op = some u) (h : u.turn s.params s.store = .token i) :
    engineMove whole s = exec i s :=
  (engineMove_running whole hph hu).trans (continueCommand_token h)

/-- Settles O6: in each decoder the turn reads the token, and the engine's turn executes it. -/
theorem stepRunsDecodedToken : Obligations.StepRunsDecodedToken := by
  intro s i more hp hrun
  have hturn : ∃ op u, s.phase = .running op ∧ unitOf op = some u ∧ u.turn s.params s.store = .token i := by
    rcases hrun with ⟨hph, hdec⟩ | ⟨hph, hdec⟩ | ⟨hph, hdec⟩
    · exact ⟨_, _, hph, rfl, rleDTurn_token _ hdec⟩
    · exact ⟨_, _, hph, rfl, lz77DTurn_token _ hdec⟩
    · exact ⟨_, _, hph, rfl, lzwDTurn_token _ hdec⟩
  obtain ⟨op, u, hph, hu, ht⟩ := hturn
  refine ⟨fun hb => ?_, fun rest hb => ?_, fun rest hb => ?_⟩
  · rw [step_quiet hp hb, engineMove_token true hph hu ht]
  · rw [step_bus hp hb]
    exact engineMove_token (s := s.withBus rest) true hph hu ht
  · rw [step_bus hp hb]
    exact engineMove_token (s := s.withBus rest) false hph hu ht

end Sys2Proof.Machine
end

section
/-! SUPPORT. The invariant (10_state.md R34, 20_memory.md R70): every step keeps it. What a step can do to STATUS is
said once (`step_status`); the memory that a command leaves is canonical and inside the buffer memory
(`conclude_memoryLegal`, `prepare_error_memoryLegal`). -/

namespace Sys2Proof.Machine

/-! ### STATUS -/

/-- What a step may make of STATUS: nothing, the final STATUS of a command, BUSY or the reset value. -/
def StatusMove (w w' : Word) : Prop := w' = w ∨ FinalStatus w' ∨ w' = statusBusy ∨ w' = statusIdle

theorem statusMove_of_ends {s t : State} (h : Ends s t) (w : Word) : StatusMove w t.status :=
  .inr (.inl h.status)

theorem applyToken_status (op : Instr) (f : Params → Storage → Except ErrorKind Storage) (s : State) :
    StatusMove s.status (applyToken op f s).status := by
  rcases applyToken_cases op f s with ⟨st, -, h⟩ | ⟨e, -, h⟩ <;> rw [h]
  · exact .inl rfl
  · exact statusMove_of_ends (conclude_ends op _ s) _

theorem continueCommand_status {op : Instr} {u : CodecUnit} {s t : State} (hu : unitOf op = some u)
    (h : continueCommand op u s = .next t) : StatusMove s.status t.status := by
  unfold continueCommand at h
  split at h
  · cases h
    exact statusMove_of_ends (conclude_ends op _ s) _
  · cases h
    exact statusMove_of_ends (conclude_ends op _ s) _
  · cases h
    exact .inl rfl
  · next ht =>
    rw [exec_of_turn_token hu ht] at h
    cases h
    exact applyToken_status op _ s

/-- A command that is begun, and has not ended at once, has its inputs and its unit's first storage. -/
theorem beginCommand_cases (op : Instr) (u : CodecUnit) (s : State) :
    (∃ t, prepare op u s = .error t ∧ beginCommand op u s = t)
      ∨ ∃ st, prepare op u s = .ok st ∧ beginCommand op u s = { s.withStore st with phase := .running op } := by
  unfold beginCommand
  cases prepare op u s with
  | error t => exact .inl ⟨t, rfl, rfl⟩
  | ok st => exact .inr ⟨st, rfl, rfl⟩

/-- Where a command ends before its codec function works, it ends as every command does. -/
theorem prepare_error_ends {op : Instr} {u : CodecUnit} {s t : State} (h : prepare op u s = .error t) :
    Ends s t := by
  rcases prepare_cases op u s with ⟨-, hp⟩ | ⟨-, -, hp⟩ | ⟨-, -, e, hp⟩ | ⟨-, -, inp, st, -, -, hp⟩ <;>
    rw [hp] at h <;> cases h
  · exact failCommand_ends _ s
  · exact unspecifiedEnd_ends op s
  · exact failAfterAccess_ends op e s

/-- The Brotli words have no codec unit. -/
theorem unitOf_brotli {i : Instr} (h : isBrotli i = true) : unitOf i = none := by
  cases i
  case broC | broD => rfl
  all_goals contradiction

/-- A dispatched word that is not run whole: it fails, it ends, or its unit begins. -/
theorem engineMove_dispatch_begins {s : State} (h : s.phase = .dispatch) :
    (∃ t, engineMove false s = .next t ∧ (t = failCommand .unsupportedAlgorithm s))
      ∨ ∃ i u, decodeCommand s.cmd = .ok i ∧ unitOf i = some u
          ∧ engineMove false s = .next (beginCommand i u s) := by
  cases hd : decodeCommand s.cmd with
  | error r => exact .inl ⟨_, engineMove_dispatch_illegal false h hd, rfl⟩
  | ok i =>
    rcases isCommand_cases (isCommand_encode_of_decodeCommand hd).1 with ⟨u, hu⟩ | hb
    · exact .inr ⟨i, u, rfl, hu, by simp [engineMove, dispatchCommand, h, hd, hu]⟩
    · exact .inl ⟨_, by simp [engineMove, dispatchCommand, h, hd, unitOf_brotli hb, exec_brotli hb], rfl⟩

theorem engineMove_status {whole : Bool} {s t : State} (h : engineMove whole s = .next t) :
    StatusMove s.status t.status := by
  cases hph : s.phase with
  | idle =>
    rw [engineMove_idle whole hph] at h
    cases h
    exact .inl rfl
  | dispatch =>
    cases whole with
    | true =>
      obtain ⟨t', ht', hends⟩ := engineMove_dispatch_ends hph
      cases ht'.symm.trans h
      exact statusMove_of_ends hends _
    | false =>
      rcases engineMove_dispatch_begins hph with ⟨t', ht', rfl⟩ | ⟨i, u, -, -, ht'⟩ <;> cases ht'.symm.trans h
      · exact statusMove_of_ends (failCommand_ends _ s) _
      · rcases beginCommand_cases i u s with ⟨t', hp, he⟩ | ⟨st, -, he⟩ <;> rw [he]
        · exact statusMove_of_ends (prepare_error_ends hp) _
        · exact .inl rfl
  | running op =>
    cases hu : unitOf op with
    | none =>
      simp only [engineMove, hph, hu] at h
      cases h
      exact statusMove_of_ends (failCommand_ends _ s) _
    | some u =>
      rw [engineMove_running whole hph hu] at h
      exact continueCommand_status hu h

theorem registerWrite_status (r : Reg) (v : Word) (s : State) :
    StatusMove s.status (registerWrite r v s).status := by
  unfold registerWrite
  split
  · exact .inl rfl
  · cases r
    case cmd => exact .inr (.inr (.inl rfl))
    all_goals exact .inl rfl

/-- A register access that answers a state has acted on a register. -/
theorem registerAccess_next {addr bytes : Nat} {f : Reg → State → State} {s t : State}
    (h : registerAccess addr bytes f s = .next t) : ∃ r, t = f r s := by
  rcases registerAccess_cases addr bytes f s with h' | h' | ⟨-, -, -, -, h'⟩ <;> rw [h'] at h <;> cases h
  exact ⟨_, rfl⟩

/-- A store that answers a state changes memory, the disturbed mark and the bytes to be seen. -/
theorem memoryWrite_next {a : Nat} {v : Byte} {s t : State} (h : memoryWrite a v s = .next t) :
    a < 2 ^ s.params.addrWidth ∧ ∃ m us,
      t = { s with mem := m, raced := s.raced || inRunningRanges s a, unseen := us }
        ∧ (m = s.mem ∨ m = Memory.write s.mem a v) := by
  rcases memoryWrite_cases a v s with ⟨hat, m, us, hw, hdev, hmem⟩ | ⟨-, hw⟩ <;> rw [hw] at h <;> cases h
  simp only [memoryAt, Bool.and_eq_true, decide_eq_true_eq] at hat
  refine ⟨hat.1, m, us, rfl, ?_⟩
  cases hd : deviceAt s.params a with
  | true => exact .inl (hdev hd).1
  | false => exact .inr (hmem hd).1

/-- A load that answers a state changes the byte read, the draw counter and the disturbed mark. -/
theorem memoryRead_next {a : Nat} {s t : State} (h : memoryRead a s = .next t) :
    t = { s with memData := byteRead a s, draws := s.draws + 1, raced := s.raced || inRunningDst s a } := by
  rcases memoryRead_cases a s with ⟨-, hw⟩ | ⟨-, hw⟩ <;> rw [hw] at h <;> cases h
  rfl

/-- WAIT reads STATUS, and while it shows BUSY the engine moves. -/
theorem waitMove_cases (s : State) :
    (s.busy = true ∧ waitMove s = engineMove true ((registerRead .status s).withBus (.wait :: s.bus)))
      ∨ (s.busy = false ∧ waitMove s = .next (registerRead .status s)) := by
  unfold waitMove
  cases s.busy <;> simp

theorem busMove_status {op : BusOp} {s t : State} (h : busMove op s = .next t) :
    StatusMove s.status t.status := by
  cases op with
  | regWrite addr bytes v =>
    simp only [busMove] at h
    obtain ⟨r, rfl⟩ := registerAccess_next h
    exact registerWrite_status r v s
  | regRead addr bytes =>
    obtain ⟨r, rfl⟩ := registerAccess_next h
    exact .inl rfl
  | wait =>
    rcases waitMove_cases s with ⟨-, hw⟩ | ⟨-, hw⟩ <;> rw [busMove, hw] at h
    · exact (engineMove_status h :)
    · cases h
      exact .inl rfl
  | memWrite a v =>
    obtain ⟨-, m, us, rfl, -⟩ := memoryWrite_next h
    exact .inl rfl
  | memRead a =>
    rw [memoryRead_next h]
    exact .inl rfl
  | reset =>
    cases h
    exact .inr (.inr (.inr rfl))
  | engine => exact engineMove_status h
  | engineStep => exact engineMove_status h

/-- A step that answers a state had legal parameters and was the engine's or the next piece of bus traffic. -/
theorem step_next {s t : State} (h : step s = .next t) :
    s.params.legal = true
      ∧ ((s.bus = [] ∧ engineMove true s = .next t)
          ∨ ∃ op rest, s.bus = op :: rest ∧ busMove op (s.withBus rest) = .next t) := by
  cases hp : s.params.legal with
  | false =>
    rw [step_illegal hp] at h
    cases h
  | true =>
    cases hb : s.bus with
    | nil => exact ⟨rfl, .inl ⟨rfl, (step_quiet hp hb).symm.trans h⟩⟩
    | cons op rest => exact ⟨rfl, .inr ⟨op, rest, rfl, (step_bus hp hb).symm.trans h⟩⟩

/-- What a step can make of STATUS. -/
theorem step_status {s t : State} (h : step s = .next t) : StatusMove s.status t.status := by
  obtain ⟨-, ⟨-, hm⟩ | ⟨op, rest, -, hm⟩⟩ := step_next h
  · exact engineMove_status hm
  · exact (busMove_status hm :)

theorem StatusMove.legal {w w' : Word} (h : StatusMove w w') (hw : statusLegal w = true) :
    statusLegal w' = true := by
  rcases h with rfl | ⟨hl, -⟩ | rfl | rfl
  · exact hw
  · exact hl
  · decide
  · decide

/-- The legal values of STATUS, as 10_state.md R34 lists them. -/
theorem statusLegal_cases {w : Word} (h : statusLegal w = true) :
    w = statusIdle ∨ w = statusBusy ∨ w = statusDone ∨ ∃ e, w = statusError e := by
  simp only [statusLegal, Bool.or_eq_true, beq_iff_eq, or_assoc] at h
  rcases h with h | h | h | h | h | h | h | h | h
  · exact .inl h
  · exact .inr (.inl h)
  · exact .inr (.inr (.inl h))
  all_goals exact .inr (.inr (.inr ⟨_, h⟩))

theorem ErrorKind.code_bounds (e : ErrorKind) : 1 ≤ e.code ∧ e.code ≤ 6 := by
  cases e <;> decide

/-- Settles O9: STATUS stays legal (`step_status`); the legal values are the four kinds of `statusLegal_cases`, and
only `statusBusy` shows BUSY. -/
theorem statusStaysLegal : Obligations.StatusStaysLegal := by
  intro s t hs h
  have ht := (step_status h).legal hs
  refine ⟨?_, fun hbusy => ?_⟩
  · rcases statusLegal_cases ht with hw | hw | hw | ⟨e, hw⟩
    · exact .inl hw
    · exact .inr (.inl hw)
    · exact .inr (.inr (.inl hw))
    · obtain ⟨h1, h6⟩ := e.code_bounds
      exact .inr (.inr (.inr ⟨e.code, h1, h6, hw⟩))
  · rw [eq_statusBusy_of_busyBit ht hbusy]
    decide

/-! ### Memory -/

/-- Memory is in canonical form and inside the buffer memory (20_memory.md R70). -/
def MemoryLegal (s : State) : Prop :=
  Memory.wf s.mem = true ∧ Memory.below s.mem (2 ^ s.params.addrWidth) = true

/-- The range checks bound the DST range of a command that has one. -/
theorem dst_le_of_validRanges {op : Instr} {p : Params} {l : Latched} (h : validRanges op p l = true)
    (hd : usesDst op = true) : l.dstAddr.toNat + l.dstCap.toNat ≤ 2 ^ p.addrWidth := by
  have hnone : true ∉ rangeViolations op p l := by
    rw [← validRanges_eq_false_iff]
    simp [h]
  simp only [rangeViolations, hd, List.mem_cons, not_or, eq_comm (a := true), Bool.true_and,
    decide_eq_true_eq] at hnone
  omega

theorem spoiled_memoryLegal {op : Instr} {s : State} (hv : validRanges op s.params s.latched = true)
    (h : MemoryLegal s) : MemoryLegal (spoiled op s) := by
  refine ⟨spoiled_wf op h.1, ?_⟩
  rw [spoiled_params]
  exact spoiled_below (dst_le_of_validRanges hv) h.2

/-- A command's end keeps memory legal, if a command without a DST range has no output. -/
theorem conclude_memoryLegal {op : Instr} {r : Except ErrorKind Output} {s : State}
    (hv : validRanges op s.params s.latched = true)
    (hr : ∀ o, r = .ok o → usesDst op = false → o.out.toList = []) (h : MemoryLegal s) :
    MemoryLegal (conclude op r s) := by
  have hspoiled := spoiled_memoryLegal hv h
  rcases conclude_cases op r s with ⟨-, he⟩ | ⟨-, e, he, -⟩ | ⟨-, o, m, ho, hfit, hw, he⟩ <;> rw [he]
  · exact hspoiled
  · exact hspoiled
  · refine ⟨wf_writeBytes hw h.1, below_writeBytes hw ?_ h.2⟩
    cases hd : usesDst op with
    | false => exact .inl (hr o ho hd)
    | true =>
      have hlen := OutSeq.length_toList o.out
      have hcap := hfit hd
      have hdst := dst_le_of_validRanges hv hd
      exact .inr (by rw [completeCommand_params, writtenBack_params]; omega)

/-- A unit whose command has no DST range has no output (44_container.md R275). -/
theorem output_nil_of_not_usesDst {op : Instr} {u : CodecUnit} (hu : unitOf op = some u)
    (hd : usesDst op = false) (st : Storage) : (u.output st).out.toList = [] := by
  cases op
  case contParse =>
    cases hu
    rfl
  all_goals contradiction

theorem answer_nil_of_not_usesDst {op : Instr} {u : CodecUnit} (hu : unitOf op = some u)
    (d : Except ErrorKind Unit × Storage) (o : Output) (h : u.answer d = .ok o) (hd : usesDst op = false) :
    o.out.toList = [] := by
  unfold CodecUnit.answer at h
  split at h <;> cases h
  exact output_nil_of_not_usesDst hu hd _

theorem prepare_error_memoryLegal {op : Instr} {u : CodecUnit} {s t : State}
    (h : prepare op u s = .error t) (hs : MemoryLegal s) : MemoryLegal t := by
  rcases prepare_cases op u s with ⟨-, hp⟩ | ⟨hv, -, hp⟩ | ⟨hv, -, e, hp⟩ | ⟨-, -, inp, st, -, -, hp⟩ <;>
    rw [hp] at h <;> cases h
  · exact hs
  · exact spoiled_memoryLegal hv hs
  · exact spoiled_memoryLegal hv hs

theorem validRanges_of_prepare_ok {op : Instr} {u : CodecUnit} {s : State} {st : Storage}
    (h : prepare op u s = .ok st) : validRanges op s.params s.latched = true := by
  cases hv : validRanges op s.params s.latched with
  | true => rfl
  | false => simp [prepare, hv] at h

theorem runCommand_memoryLegal {op : Instr} {u : CodecUnit} {s : State} (hu : unitOf op = some u)
    (h : MemoryLegal s) : MemoryLegal (runCommand op u s) := by
  unfold runCommand
  cases hp : prepare op u s with
  | error t => exact prepare_error_memoryLegal hp h
  | ok st =>
    have hv := validRanges_of_prepare_ok hp
    exact conclude_memoryLegal (s := s.withStore _) hv (answer_nil_of_not_usesDst hu _) h

/-! ### The invariant -/

/-- The invariant, in the parts that a step keeps. -/
theorem State.inv_iff_memoryLegal (s : State) :
    s.inv = true ↔
      s.params.legal = true ∧ statusLegal s.status = true ∧ s.busy = !decide (s.phase = .idle)
        ∧ phaseLegal s = true ∧ (!s.raced || s.busy) = true ∧ MemoryLegal s := State.inv_iff s

theorem inv_memoryLegal {s : State} (h : s.inv = true) : MemoryLegal s := by
  obtain ⟨-, -, -, -, -, hm⟩ := (State.inv_iff_memoryLegal s).mp h
  exact hm

/-- BUSY shows whether the engine is idle. -/
theorem busy_of_inv {s : State} (h : s.inv = true) : s.busy = !decide (s.phase = .idle) := by
  obtain ⟨-, -, hb, -⟩ := (State.inv_iff s).mp h
  exact hb

/-- A command that ends keeps the invariant, if it leaves memory legal. -/
theorem inv_of_ends {s t : State} (h : s.inv = true) (he : Ends s t) (hm : MemoryLegal t) : t.inv = true := by
  obtain ⟨hp, -⟩ := (State.inv_iff s).mp h
  obtain ⟨hphase, hraced, ⟨hlegal, -, hbusy⟩, hhost⟩ := he
  obtain ⟨-, -, -, -, -, -, -, -, hparams, -⟩ := hhost
  refine (State.inv_iff_memoryLegal t).mpr ⟨hparams ▸ hp, hlegal, ?_, ?_, ?_, hm⟩
  · simpa [hphase, State.busy] using hbusy
  · simp [phaseLegal, hphase]
  · simp [hraced]

/-- The phase of a running command, where it is legal. -/
theorem phaseLegal_running {s : State} {op : Instr} (hph : s.phase = .running op) :
    phaseLegal s = true ↔
      (∃ u, unitOf op = some u) ∧ commandWord op = s.cmd ∧ validRanges op s.params s.latched = true := by
  simp [phaseLegal, hph, Option.isSome_iff_exists, and_assoc]

theorem inv_withStore {s : State} (st : Storage) (h : s.inv = true) : (s.withStore st).inv = true := h

theorem inv_withBus {s : State} (ops : List BusOp) (h : s.inv = true) : (s.withBus ops).inv = true := h

theorem applyToken_inv {op : Instr} {s : State} (f : Params → Storage → Except ErrorKind Storage)
    (hv : validRanges op s.params s.latched = true) (h : s.inv = true) : (applyToken op f s).inv = true := by
  rcases applyToken_cases op f s with ⟨st, -, he⟩ | ⟨e, -, he⟩ <;> rw [he]
  · exact inv_withStore st h
  · exact inv_of_ends h (conclude_ends op _ s) (conclude_memoryLegal hv (by simp) (inv_memoryLegal h))

theorem continueCommand_inv {op : Instr} {u : CodecUnit} {s t : State} (hu : unitOf op = some u)
    (hv : validRanges op s.params s.latched = true) (h : s.inv = true)
    (hs : continueCommand op u s = .next t) : t.inv = true := by
  unfold continueCommand at hs
  split at hs
  · cases hs
    refine inv_of_ends h (conclude_ends op _ s) (conclude_memoryLegal hv ?_ (inv_memoryLegal h))
    rintro o ho hd
    cases ho
    exact output_nil_of_not_usesDst hu hd _
  · cases hs
    exact inv_of_ends h (conclude_ends op _ s) (conclude_memoryLegal hv (by simp) (inv_memoryLegal h))
  · cases hs
    exact inv_withStore _ h
  · next ht =>
    rw [exec_of_turn_token hu ht] at hs
    cases hs
    exact applyToken_inv _ hv h

theorem exec_inv {i : Instr} {s t : State} (hi : i.isCommand = true) (h : s.inv = true)
    (hs : exec i s = .next t) : t.inv = true := by
  rcases isCommand_cases hi with ⟨u, hu⟩ | hb
  · cases (exec_unit hu s).symm.trans hs
    exact inv_of_ends h (runCommand_ends i u s) (runCommand_memoryLegal hu (inv_memoryLegal h))
  · cases (exec_brotli hb s).symm.trans hs
    exact inv_of_ends h (failCommand_ends _ s) (inv_memoryLegal h :)

/-- A command that is begun runs with its word in `CMD` and its range checks passed. -/
theorem beginCommand_inv {i : Instr} {u : CodecUnit} {s : State} (hu : unitOf i = some u)
    (hd : decodeCommand s.cmd = .ok i) (hph : s.phase = .dispatch) (h : s.inv = true) :
    (beginCommand i u s).inv = true := by
  rcases beginCommand_cases i u s with ⟨t, hp, he⟩ | ⟨st, hp, he⟩ <;> rw [he]
  · exact inv_of_ends h (prepare_error_ends hp) (prepare_error_memoryLegal hp (inv_memoryLegal h))
  · obtain ⟨hlegal, hstatus, hbusy, -, hraced, hm⟩ := (State.inv_iff_memoryLegal s).mp h
    have hword : commandWord i = s.cmd := by
      rw [commandWord, (isCommand_encode_of_decodeCommand hd).2]
    have hv := validRanges_of_prepare_ok hp
    have hb : s.busy = true := by simpa [hph] using hbusy
    refine (State.inv_iff_memoryLegal _).mpr ⟨hlegal, hstatus, by simpa [State.busy] using hb, ?_, hraced, hm⟩
    exact (phaseLegal_running rfl).mpr ⟨⟨u, hu⟩, hword, hv⟩

theorem engineMove_inv {whole : Bool} {s t : State} (h : s.inv = true) (hs : engineMove whole s = .next t) :
    t.inv = true := by
  cases hph : s.phase with
  | idle =>
    cases (engineMove_idle whole hph).symm.trans hs
    exact h
  | dispatch =>
    cases whole with
    | true =>
      cases hd : decodeCommand s.cmd with
      | error r =>
        cases (engineMove_dispatch_illegal true hph hd).symm.trans hs
        exact inv_of_ends h (failCommand_ends _ s) (inv_memoryLegal h :)
      | ok i =>
        rw [engineMove_dispatch hph hd] at hs
        exact exec_inv (isCommand_encode_of_decodeCommand hd).1 h hs
    | false =>
      rcases engineMove_dispatch_begins hph with ⟨t', ht', rfl⟩ | ⟨i, u, hd, hu, ht'⟩ <;> cases ht'.symm.trans hs
      · exact inv_of_ends h (failCommand_ends _ s) (inv_memoryLegal h :)
      · exact beginCommand_inv hu hd hph h
  | running op =>
    obtain ⟨-, -, -, hrun, -⟩ := (State.inv_iff s).mp h
    obtain ⟨⟨u, hu⟩, -, hv⟩ := (phaseLegal_running hph).mp hrun
    rw [engineMove_running whole hph hu] at hs
    exact continueCommand_inv hu hv h hs

@[simp] theorem acceptCommand_busy (w : Word) (s : State) : (acceptCommand w s).busy = true := by
  rw [State.busy, acceptCommand_status]
  decide

@[simp] theorem resetBlock_busy (s : State) : (resetBlock s).busy = false := by
  rw [State.busy, resetBlock_status]
  decide

/-- An accepted `CMD` write leaves the block busy, about to dispatch. -/
theorem acceptCommand_inv (w : Word) {s : State} (h : s.inv = true) : (acceptCommand w s).inv = true := by
  obtain ⟨hlegal, -, -, -, -, hm⟩ := (State.inv_iff_memoryLegal s).mp h
  exact (State.inv_iff_memoryLegal _).mpr ⟨hlegal, rfl, acceptCommand_busy w s, rfl, rfl, hm⟩

/-- A write of a parameter register is not seen by the invariant, which looks at the latched copies. -/
theorem registerWrite_inv (r : Reg) (v : Word) {s : State} (h : s.inv = true) :
    (registerWrite r v s).inv = true := by
  unfold registerWrite
  split
  · exact h
  · cases r
    case cmd => exact acceptCommand_inv v h
    all_goals exact h

theorem inRunningRanges_busy {s : State} {a : Nat} (h : s.inv = true) (ha : inRunningRanges s a = true) :
    s.busy = true := by
  rw [busy_of_inv h]
  cases hph : s.phase with
  | idle => simp [inRunningRanges, accessingOp, runningOp, hph] at ha
  | dispatch | running => rfl

theorem inRunningDst_busy {s : State} {a : Nat} (h : s.inv = true) (ha : inRunningDst s a = true) :
    s.busy = true := by
  rw [busy_of_inv h]
  cases hph : s.phase with
  | idle => simp [inRunningDst, accessingOp, runningOp, hph] at ha
  | dispatch | running => rfl

/-- The disturbed mark is set only while busy. -/
theorem inv_of_access {s : State} {m : Memory} {b : Bool} (us : List Unseen) (d : Byte) (k : Nat)
    (h : s.inv = true) (hb : b = true → s.busy = true) (hm : MemoryLegal { s with mem := m }) :
    State.inv { s with mem := m, raced := s.raced || b, unseen := us, memData := d, draws := k } = true := by
  obtain ⟨hlegal, hstatus, hbusy, hphase, hraced, -⟩ := (State.inv_iff_memoryLegal s).mp h
  refine (State.inv_iff_memoryLegal _).mpr ⟨hlegal, hstatus, hbusy, hphase, ?_, hm⟩
  cases b with
  | true => simpa [State.busy] using hb rfl
  | false => simpa [State.busy] using hraced

theorem memoryWrite_inv {a : Nat} {v : Byte} {s t : State} (h : s.inv = true)
    (hs : memoryWrite a v s = .next t) : t.inv = true := by
  obtain ⟨ha, m, us, rfl, hm⟩ := memoryWrite_next hs
  refine inv_of_access us s.memData s.draws h (inRunningRanges_busy h) ?_
  obtain ⟨hwf, hbelow⟩ := inv_memoryLegal h
  rcases hm with rfl | rfl
  · exact ⟨hwf, hbelow⟩
  · exact ⟨Memory.wf_write a v hwf, Memory.below_write v ha hbelow⟩

theorem memoryRead_inv {a : Nat} {s t : State} (h : s.inv = true) (hs : memoryRead a s = .next t) :
    t.inv = true := by
  rw [memoryRead_next hs]
  exact inv_of_access s.unseen _ _ h (inRunningDst_busy h) (inv_memoryLegal h)

/-- The command that a memory access can disturb has passed its range checks. -/
theorem validRanges_of_accessingOp {s : State} {op : Instr} (h : accessingOp s = some op) :
    validRanges op s.params s.latched = true := by
  unfold accessingOp at h
  split at h
  · cases h
  · split at h
    · cases h
    · next hn =>
      cases h
      simp only [Bool.or_eq_true, not_or, Bool.not_eq_true, Bool.not_eq_false'] at hn
      exact hn.2

theorem abandoned_memoryLegal {s : State} (h : MemoryLegal s) : MemoryLegal (abandoned s) := by
  rcases abandoned_cases s with ⟨hw, he⟩ | ⟨-, he⟩ <;> rw [he]
  · cases ha : accessingOp s with
    | none => simp [writesDst, ha] at hw
    | some op =>
      have hd : usesDst op = true := by simpa [writesDst, ha] using hw
      exact ⟨freeDst_wf h.1, below_freeRange _ _ (dst_le_of_validRanges (validRanges_of_accessingOp ha) hd) h.2⟩
  · exact h

theorem resetBlock_inv {s : State} (h : s.inv = true) : (resetBlock s).inv = true := by
  obtain ⟨hlegal, -, -, -, -, hm⟩ := (State.inv_iff_memoryLegal s).mp h
  refine (State.inv_iff_memoryLegal _).mpr ⟨?_, rfl, resetBlock_busy s, rfl, rfl, abandoned_memoryLegal hm⟩
  rw [resetBlock_params]
  exact hlegal

theorem busMove_inv {op : BusOp} {s t : State} (h : s.inv = true) (hs : busMove op s = .next t) :
    t.inv = true := by
  cases op with
  | regWrite addr bytes v =>
    simp only [busMove] at hs
    obtain ⟨r, rfl⟩ := registerAccess_next hs
    exact registerWrite_inv r v h
  | regRead addr bytes =>
    obtain ⟨r, rfl⟩ := registerAccess_next hs
    exact h
  | wait =>
    rcases waitMove_cases s with ⟨-, hw⟩ | ⟨-, hw⟩ <;> rw [busMove, hw] at hs
    · exact engineMove_inv (s := (registerRead .status s).withBus _) h hs
    · cases hs
      exact h
  | memWrite a v => exact memoryWrite_inv h hs
  | memRead a => exact memoryRead_inv h hs
  | reset =>
    cases hs
    exact resetBlock_inv h
  | engine => exact engineMove_inv h hs
  | engineStep => exact engineMove_inv h hs

/-- Settles O8: a step is the engine's move (`engineMove_inv`) or one piece of bus traffic (`busMove_inv`). -/
theorem everyStepKeepsInvariant : Obligations.EveryStepKeepsInvariant := by
  intro s t h hs
  obtain ⟨-, ⟨-, hm⟩ | ⟨op, rest, -, hm⟩⟩ := step_next hs
  · exact engineMove_inv h hm
  · exact busMove_inv (inv_withBus rest h) hm

/-- Settles O7: the state after reset is idle, with empty memory and the default parameters. -/
theorem resetMeetsInvariant : Obligations.ResetMeetsInvariant := by
  unfold Obligations.ResetMeetsInvariant
  decide

/-! ### The idle block -/

/-- A `WAIT` on an idle block reads STATUS. -/
theorem waitMove_idle {s : State} (h : s.busy = false) : waitMove s = .next (registerRead .status s) := by
  simp [waitMove, h]

/-- What a step of an idle block leaves alone where it is neither a register write nor a reset. -/
structure IdleKept (s t : State) : Prop where
  cmd : t.cmd = s.cmd
  status : t.status = s.status
  parameters : t.parameters = s.parameters
  outLen : t.outLen = s.outLen
  result0 : t.result0 = s.result0
  result1 : t.result1 = s.result1
  latched : t.latched = s.latched
  phase : t.phase = .idle
  store : t.store = s.store
  params : t.params = s.params

theorem busMove_idleKept {op : BusOp} {s t : State} (hbusy : s.busy = false) (hph : s.phase = .idle)
    (hs : busMove op s = .next t) (hw : ∀ a n v, op ≠ .regWrite a n v) (hr : op ≠ .reset) :
    IdleKept s t ∧ ((∀ a v, op ≠ .memWrite a v) → t.mem = s.mem) := by
  cases op with
  | regWrite a n v => exact absurd rfl (hw a n v)
  | reset => exact absurd rfl hr
  | regRead a n =>
    obtain ⟨r, rfl⟩ := registerAccess_next hs
    exact ⟨⟨rfl, rfl, rfl, rfl, rfl, rfl, rfl, hph, rfl, rfl⟩, fun _ => rfl⟩
  | wait =>
    cases (waitMove_idle hbusy).symm.trans hs
    exact ⟨⟨rfl, rfl, rfl, rfl, rfl, rfl, rfl, hph, rfl, rfl⟩, fun _ => rfl⟩
  | memWrite a v =>
    obtain ⟨-, m, us, rfl, -⟩ := memoryWrite_next hs
    exact ⟨⟨rfl, rfl, rfl, rfl, rfl, rfl, rfl, hph, rfl, rfl⟩, fun h => absurd rfl (h a v)⟩
  | memRead a =>
    rw [memoryRead_next hs]
    exact ⟨⟨rfl, rfl, rfl, rfl, rfl, rfl, rfl, hph, rfl, rfl⟩, fun _ => rfl⟩
  | engine | engineStep =>
    cases (engineMove_idle _ hph).symm.trans hs
    exact ⟨⟨rfl, rfl, rfl, rfl, rfl, rfl, rfl, hph, rfl, rfl⟩, fun _ => rfl⟩

/-- Settles O16: with no traffic the idle engine does nothing, and `busMove_idleKept` says what each piece of
traffic leaves. -/
theorem idleBlockStaysIdle : Obligations.IdleBlockStaysIdle := by
  intro s t h hph hs hw hr
  have hbusy : s.busy = false := by simp [busy_of_inv h, hph]
  obtain ⟨-, ⟨-, hm⟩ | ⟨op, rest, hb, hm⟩⟩ := step_next hs
  · cases (engineMove_idle true hph).symm.trans hm
    exact ⟨rfl, rfl, rfl, rfl, rfl, rfl, rfl, hph, rfl, rfl, fun _ => rfl⟩
  · obtain ⟨⟨h1, h2, h3, h4, h5, h6, h7, h8, h9, h10⟩, hmem⟩ :=
      busMove_idleKept (s := s.withBus rest) hbusy hph hm
        (fun a n v ho => hw a n v rest (ho ▸ hb)) (fun ho => hr rest (ho ▸ hb))
    exact ⟨h1, h2, h3, h4, h5, h6, h7, h8, h9, h10,
      fun hno => hmem fun a v ho => hno a v rest (ho ▸ hb)⟩

end Sys2Proof.Machine
end

section
/-! SUPPORT. The host's accesses: `CMD` writes and refused register accesses (10_state.md R33, 20_memory.md R75),
what a reset leaves of memory (70_reset_and_hazards.md R342), and a bus agent's stores and loads (20_memory.md R81,
R85). -/

namespace Sys2Proof.Machine

/-! ### Register accesses -/

/-- Settles O13: the write is ignored while BUSY (`registerWrite_busy`) and accepted while idle
(`step_cmdWrite`). -/
theorem commandWriteStartsOrIsIgnored : Obligations.CommandWriteStartsOrIsIgnored := by
  intro s w rest hp hb
  refine ⟨fun hbusy => ?_, fun hidle => ?_⟩
  · have hstep := step_regWrite (off := 0) hp (by decide) rfl hb
    rwa [registerWrite_busy (s := s.withBus rest) _ w hbusy] at hstep
  · exact ⟨_, step_cmdWrite hp hidle hb, rfl, rfl, rfl, rfl, rfl, rfl, rfl, rfl, rfl, rfl, rfl⟩

/-- An access that touches the register block and is no aligned word access is refused (20_memory.md R75). -/
theorem registerAccess_odd {addr bytes : Nat} {s : State} (f : Reg → State → State)
    (hlo : s.params.regBase < addr + bytes) (hhi : addr < s.params.regBase + 64)
    (hodd : bytes ≠ 4 ∨ addr % 4 ≠ 0) :
    registerAccess addr bytes f s = .refused (.registerAccess addr bytes) := by
  have hin : ¬ (addr + bytes ≤ s.params.regBase ∨ s.params.regBase + 64 ≤ addr) := by omega
  have hword : ¬ (bytes = 4 ∧ addr % 4 = 0) := by omega
  simp only [registerAccess, Bool.or_eq_true, Bool.and_eq_true, decide_eq_true_eq, hin, hword, if_false]

/-- Parameters outside 00_scope.md R7 and R8. -/
theorem Params.legal_eq_false {p : Params}
    (h : p.lzwDictCapacity < 256 ∨ p.addrWidth < 1 ∨ 32 < p.addrWidth ∨ p.maxInputLen < 1
      ∨ 2 ^ 32 - 1 < p.maxInputLen ∨ p.regBase % 64 ≠ 0) : p.legal = false := by
  rw [← Bool.not_eq_true]
  simp only [Params.legal, Bool.and_eq_true, decide_eq_true_eq]
  omega

/-- Settles O15: the access reaches `registerAccess`, which refuses it (`registerAccess_odd`); illegal parameters
are refused before any traffic is looked at (`step_illegal`). -/
theorem oddAccessAndIllegalParametersRefused : Obligations.OddAccessAndIllegalParametersRefused := by
  refine ⟨fun s addr bytes v rest hp hlo hhi hodd hb => ?_, fun s h => step_illegal (Params.legal_eq_false h)⟩
  rcases hb with hb | hb
  all_goals
    rw [step_bus hp hb, busMove]
    exact registerAccess_odd (s := s.withBus rest) _ hlo hhi hodd

/-! ### The ranges of the running command -/

theorem inRange_iff (r : AddrRange) (a : Nat) : inRange r a = true ↔ r.base ≤ a ∧ a < r.base + r.size := by
  simp [inRange]

theorem inRunningDst_iff (s : State) (a : Nat) :
    inRunningDst s a = true ↔
      ∃ op, accessingOp s = some op ∧ usesDst op = true ∧ inRange s.latched.dst a = true := by
  unfold inRunningDst
  cases accessingOp s <;> simp

theorem writesDst_iff (s : State) :
    writesDst s = true ↔ ∃ op, accessingOp s = some op ∧ usesDst op = true := by
  unfold writesDst
  cases accessingOp s <;> simp

/-- The ranges of a command are SRC, META for CONT.SER and DST for all but CONT.PARSE (20_memory.md R71). -/
theorem inRunningRanges_iff (s : State) (a : Nat) :
    inRunningRanges s a = true ↔
      ∃ op, accessingOp s = some op
        ∧ (inRange s.latched.src a = true ∨ (op = .contSer ∧ inRange s.latched.metadata a = true)
          ∨ (op ≠ .contParse ∧ inRange s.latched.dst a = true)) := by
  unfold inRunningRanges
  cases accessingOp s with
  | none => simp
  | some op =>
    simp only [rangesUsed, List.any_cons, List.any_append, Bool.or_eq_true, Option.some.injEq,
      exists_eq_left', ← usesMeta_iff, ← usesDst_iff]
    cases usesMeta op <;> cases usesDst op <;> simp

/-- The checks keep DST apart from the ranges a command reads (44_container.md R282). -/
theorem inRange_dst_eq_false {op : Instr} {p : Params} {l : Latched} {a : Nat}
    (hv : validRanges op p l = true) (hd : usesDst op = true)
    (h : inRange l.src a = true ∨ (usesMeta op = true ∧ inRange l.metadata a = true)) :
    inRange l.dst a = false := by
  have hnone : true ∉ rangeViolations op p l := by
    rw [← validRanges_eq_false_iff]
    simp [hv]
  have hsrc : ¬ overlaps l.dst l.src = true := fun ho => hnone (by simp [rangeViolations, hd, ho])
  have hmeta : ¬ (usesMeta op = true ∧ overlaps l.dst l.metadata = true) :=
    fun ho => hnone (by simp [rangeViolations, ho])
  rw [overlaps_iff] at hsrc hmeta
  rw [← Bool.not_eq_true, inRange_iff]
  simp only [inRange_iff] at h
  rintro ⟨hlo, hhi⟩
  rcases h with ⟨h1, h2⟩ | ⟨hu, h1, h2⟩
  · exact hsrc ⟨by omega, by omega, by omega, by omega⟩
  · exact hmeta ⟨hu, by omega, by omega, by omega, by omega⟩

/-! ### A reset -/

/-- Freeing a range gives every backed byte in it a free value. -/
theorem read_freeRange_inside (p : Params) (k : Nat) {r : AddrRange} (m : Memory) {a : Nat}
    (h : inRange r a = true) (hb : backed p a = true) :
    Memory.read (freeRange p k r m) a = Config.freeByte k a := by
  rw [freeRange, Memory.read_fill, if_pos ((inRange_iff r a).mp h), if_pos hb]

/-- What a reset leaves of memory outside the abandoned DST range. -/
theorem read_abandoned_outside {s : State} {a : Nat} (h : inRunningDst s a = false) :
    Memory.read (abandoned s).mem a = Memory.read s.mem a := by
  rcases abandoned_cases s with ⟨hw, he⟩ | ⟨-, he⟩ <;> rw [he]
  obtain ⟨op, hop, hd⟩ := (writesDst_iff s).mp hw
  have hout : inRange s.latched.dst a = false := by
    rw [← Bool.not_eq_true] at h ⊢
    exact fun hin => h ((inRunningDst_iff s a).mpr ⟨op, hop, hd, hin⟩)
  rw [freeDst_mem, read_freeRange_outside _ _ _ hout]

/-- A reset frees the abandoned DST range. -/
theorem read_abandoned_inside {s : State} {a : Nat} (h : inRunningDst s a = true)
    (hb : backed s.params a = true) : Memory.read (abandoned s).mem a = Config.freeByte s.draws a := by
  obtain ⟨op, hop, hd, hin⟩ := (inRunningDst_iff s a).mp h
  have hw : writesDst s = true := (writesDst_iff s).mpr ⟨op, hop, hd⟩
  rw [abandoned, if_pos hw, freeDst_mem, read_freeRange_inside _ _ _ hin hb]

/-- Settles O11: memory after the reset is what `abandoned` leaves; SRC and META are outside the abandoned range
because the checks have passed (`inRange_dst_eq_false`). -/
theorem resetTouchesOnlyTheAbandonedDst : Obligations.ResetTouchesOnlyTheAbandonedDst := by
  intro s rest hp hb
  refine ⟨_, (s.withBus rest).draws, (abandoned (s.withBus rest)).draws, step_reset hp hb, rfl, rfl, rfl, rfl, rfl,
    rfl, rfl, fun a ha => ?outside, fun a ha hback => ?inside, fun op a hop ha => ?inputs⟩
  case outside => exact read_abandoned_outside (s := s.withBus rest) ha
  case inside => exact read_abandoned_inside (s := s.withBus rest) ha hback
  case inputs =>
    refine read_abandoned_outside (s := s.withBus rest) ?_
    rw [← Bool.not_eq_true, inRunningDst_iff]
    rintro ⟨op', hop', hd, hin⟩
    cases hop.symm.trans hop'
    have hout := inRange_dst_eq_false (validRanges_of_accessingOp hop) hd ha
    exact absurd (hin.symm.trans hout) (by decide)

/-! ### Stores and loads -/

theorem memoryAt_iff (p : Params) (a : Nat) :
    memoryAt p a = true ↔ a < 2 ^ p.addrWidth ∧ backed p a = true := by
  simp [memoryAt]

/-- A store to ordinary memory. -/
theorem memoryWrite_ordinary {a : Nat} {v : Byte} {s : State} (hat : memoryAt s.params a = true)
    (hdev : deviceAt s.params a = false) :
    memoryWrite a v s = .next
      { s with
        mem := Memory.write s.mem a v
        raced := s.raced || inRunningRanges s a
        unseen := s.unseen.filter fun u => u.addr != a } := by
  simp [memoryWrite, hat, hdev]

theorem memoryRead_answers {a : Nat} {s : State} (hat : memoryAt s.params a = true) :
    memoryRead a s = .next
      { s with memData := byteRead a s, draws := s.draws + 1, raced := s.raced || inRunningDst s a } :=
  if_pos hat

/-- The success of a ready command (44_container.md R284). -/
theorem exec_completes {op : Instr} {u : CodecUnit} {s : State} {inp : Inputs} {o : Output}
    (hu : unitOf op = some u) (hready : Ready op s inp) (ho : u.codec s.params inp = .ok o)
    (hfit : usesDst op = true → o.out.length ≤ s.latched.dstCap.toNat) (hback : OutputBacked s o.out.length) :
    ∃ m st, writeBytes s.params s.mem s.latched.dstAddr.toNat o.out.toList = some m
      ∧ exec op s = .next
        ((completeCommand o.out.length o.res0 o.res1 (writtenBack o.out.length m s)).withStore st) := by
  obtain ⟨m, hm⟩ : ∃ m, writeBytes s.params s.mem s.latched.dstAddr.toNat o.out.toList = some m :=
    writeBytes_of_backed (by rwa [OutSeq.length_toList])
  obtain ⟨st, hexec⟩ := exec_ready hu hready
  obtain ⟨-, hd, -⟩ := hready
  rw [ho, conclude_ok hd hfit hm] at hexec
  exact ⟨m, st, hm, hexec⟩

/-- Settles O28: a store by `memoryWrite_ordinary`, a load by `memoryRead_answers`, the bytes that a success leaves
to be seen by `exec_completes`; where no memory answers both are the fault. -/
theorem memoryAccessDisturbsOnlyItsCommand : Obligations.MemoryAccessDisturbsOnlyItsCommand := by
  refine ⟨fun s a v rest hinv hb hlt hback hdev => ?store, fun s a rest hp hb hlt hback => ?load,
    fun op u s inp o hu hready ho hfit hback => ?success, fun s a v rest hp hb hno => ?fault⟩
  case store =>
    obtain ⟨hp, -⟩ := (State.inv_iff s).mp hinv
    obtain ⟨hwf, -⟩ := inv_memoryLegal hinv
    have hat := (memoryAt_iff s.params a).mpr ⟨hlt, hback⟩
    refine ⟨_, (step_bus hp hb).trans (memoryWrite_ordinary (s := s.withBus rest) hat hdev), ?_, fun x hx => ?_,
      ?_, fun u => ?_, rfl⟩
    · simp [Memory.read_write a v a hwf]
    · simp [Memory.read_write a v x hwf, hx]
    · rw [Bool.or_eq_true, inRunningRanges_iff]
      rfl
    · simp
  case load =>
    have hat := (memoryAt_iff s.params a).mpr ⟨hlt, hback⟩
    refine ⟨_, (step_bus hp hb).trans (memoryRead_answers (s := s.withBus rest) hat), fun hfree => ?_,
      fun h1 h2 h3 => ?_, Bool.or_eq_true_iff, rfl⟩
    · have hr : readsFreeByte a (s.withBus rest) = true := (readsFreeByte_iff _ _).mpr hfree
      exact if_pos hr
    · refine byteRead_visible (s := s.withBus rest) ?_
      rw [← Bool.not_eq_true, readsFreeByte_iff]
      rintro (h | h | h)
      · exact absurd (h.symm.trans h1) (by decide)
      · exact h2 h
      · exact absurd (h.symm.trans h3) (by decide)
  case success =>
    obtain ⟨m, st, -, hexec⟩ := exec_completes hu hready ho hfit hback
    refine ⟨_, hexec, fun w => ?_⟩
    simp [inRange_iff, or_comm]
  case fault =>
    have hat : memoryAt s.params a = false := by
      rw [← Bool.not_eq_true, memoryAt_iff]
      rintro ⟨hlt, hback⟩
      rcases hno with hge | hun
      · omega
      · exact absurd (hback.symm.trans hun) (by decide)
    rcases hb with hb | hb <;> rw [step_bus hp hb] <;> exact if_neg (by simpa using hat)

end Sys2Proof.Machine
end

section
/-! SUPPORT. How each implemented command ends once its ranges are legal (44_container.md R281 to R286): its
success, its codec error, an output that does not fit, a bus error, and a disturbed run (20_memory.md R85). -/

namespace Sys2Proof.Machine

/-! ### What a command that did not succeed leaves of memory -/

/-- Outside the range that a command may write, an end without success leaves every byte; CONT.PARSE writes
nothing (20_memory.md R71). -/
theorem spoiled_sameOutside (op : Instr) (s : State) : SameOutside (writeRange op s) s (spoiled op s) := by
  intro a ha
  rcases spoiled_cases op s with ⟨hd, -⟩ | ⟨-, he⟩
  · rw [writeRange, if_pos hd] at ha
    exact read_spoiled_outside op ha
  · rw [he]

/-- What a failure after memory was accessed leaves: the error reported, the bytes outside the range kept. -/
theorem failAfterAccess_reports (op : Instr) (e : ErrorKind) (s : State) (st : Storage) :
    FailedWith e s ((failAfterAccess op e s).withStore st)
      ∧ SameOutside (writeRange op s) s ((failAfterAccess op e s).withStore st) :=
  ⟨failAfterAccess_failedWith op e s, spoiled_sameOutside op s⟩

/-! ### Success (R284) -/

/-- A command without a DST range has an output of length 0. -/
theorem codec_length_of_not_usesDst {op : Instr} {u : CodecUnit} {p : Params} {inp : Inputs} {o : Output}
    (hu : unitOf op = some u) (ho : u.codec p inp = .ok o) (hd : usesDst op = false) : o.out.length = 0 := by
  unfold CodecUnit.codec at ho
  split at ho
  · cases ho
  · rw [← OutSeq.length_toList, answer_nil_of_not_usesDst hu _ o ho hd, List.length_nil]

/-- Settles O24: the command ends as its codec function's answer says (`exec_ready`), in a success
(`conclude_succeededWith`); CONT.PARSE's output is empty, so it fits too. -/
theorem readyCommandCompletes : Obligations.ReadyCommandCompletes := by
  intro op u s inp o hu hready ho hfit hback hwf
  have hlen : o.out.length ≤ s.latched.dstCap.toNat := by
    cases hd : usesDst op with
    | true => exact hfit hd
    | false => simp [codec_length_of_not_usesDst hu ho hd]
  obtain ⟨st, hexec⟩ := exec_ready hu hready
  obtain ⟨-, hd, -⟩ := hready
  rw [ho] at hexec
  exact ⟨_, hexec, conclude_succeededWith hd hlen hback hwf⟩

/-! ### Errors (R285, R286) -/

/-- Settles O25: the codec function's error (`conclude_error`), or an output that is too long
(`conclude_overflow`). -/
theorem codecErrorsAndOverflowAreReported : Obligations.CodecErrorsAndOverflowAreReported := by
  intro op u s inp hu hready
  obtain ⟨st, hexec⟩ := exec_ready hu hready
  obtain ⟨-, hd, -⟩ := hready
  refine ⟨fun e he => ?_, fun o ho hdst hlong => ?_⟩
  · rw [he, conclude_error hd] at hexec
    exact ⟨_, hexec, failAfterAccess_reports op e s st⟩
  · rw [ho, conclude_overflow hd hdst hlong] at hexec
    exact ⟨_, hexec, failAfterAccess_reports op _ s st⟩

/-- The write-back fails where an address does not answer. -/
theorem writeBytes_eq_none {p : Params} {bs : List Byte} (m : Memory) {a k : Nat} (hk : k < bs.length)
    (hb : backed p (a + k) = false) : writeBytes p m a bs = none := by
  induction bs generalizing m a k with
  | nil => exact absurd hk (Nat.not_lt_zero k)
  | cons b bs ih =>
    rw [writeBytes]
    split
    · next h0 =>
      cases k with
      | zero => exact absurd (h0.symm.trans hb) (by decide)
      | succ k => exact ih (m.write a b) (Nat.lt_of_succ_lt_succ hk) (by rwa [Nat.add_right_comm])
    · rfl

/-- Settles O26: a read that the bus refuses (`runCommand_unreadable`), or a write-back that it refuses
(`conclude_unwritten`). -/
theorem busErrorsFailInvalidInput : Obligations.BusErrorsFailInvalidInput := by
  intro op u s hu hv hd
  refine ⟨fun hr => ?_, fun inp o hr ho hfit hback => ?_⟩
  · exact ⟨_, (exec_unit hu s).trans (congrArg _ (runCommand_unreadable u hv hd hr)),
      failAfterAccess_reports op _ s s.store⟩
  · simp only [OutputBacked, not_forall, Bool.not_eq_true] at hback
    obtain ⟨k, hk, hb⟩ := hback
    rw [← OutSeq.length_toList] at hk
    obtain ⟨st, hexec⟩ := exec_ready hu ⟨hv, hd, hr⟩
    rw [ho, conclude_unwritten hd (fun h => Nat.not_lt.mpr (hfit h.1) h.2) (writeBytes_eq_none _ hk hb)]
      at hexec
    exact ⟨_, hexec, failAfterAccess_reports op _ s st⟩

/-- Settles O27: the command ends in `unspecifiedEnd` (`runCommand_disturbed`), whose results are three draws. -/
theorem disturbedCommandEndsUnspecified : Obligations.DisturbedCommandEndsUnspecified := by
  intro op s hop hv hd
  obtain ⟨u, hu⟩ := exists_unitOf_of_implemented hop
  obtain ⟨hph, -, ⟨hlegal, hdone, -⟩, hhost⟩ := unspecifiedEnd_ends op s
  exact ⟨_, (spoiled op s).draws, (exec_unit hu s).trans (congrArg _ (runCommand_disturbed u hv hd)), hph, hlegal,
    hdone, rfl, rfl, rfl, hhost, spoiled_sameOutside op s⟩

/-! ### CONT.PARSE (R274, R276) -/

/-- A header whose length fits the rest. -/
theorem parse_ok {w x y z : Byte} {rest : List Byte} (h : (be32 w x y z).toNat ≤ rest.length) :
    parse (w :: x :: y :: z :: rest)
      = .ok ⟨be32 w x y z, rest.take (be32 w x y z).toNat, rest.drop (be32 w x y z).toNat⟩ :=
  if_neg (by omega)

/-- A container shorter than its header, or than it declares. -/
theorem parse_malformed {c : List Byte}
    (h : c.length < 4 ∨ ∃ w x y z rest, c = w :: x :: y :: z :: rest ∧ rest.length < (be32 w x y z).toNat) :
    parse c = .error .malformedContainer := by
  rcases h with hshort | ⟨w, x, y, z, rest, rfl, hlong⟩
  · unfold parse
    split
    · simp only [List.length_cons] at hshort
      omega
    · rfl
  · exact if_pos (by omega)

theorem contParse_codec_malformed (p : Params) {m c : List Byte} (h : parse c = .error .malformedContainer) :
    contParseUnit.codec p ⟨m, c⟩ = .error .malformedContainer := by
  simp only [CodecUnit.codec, contParseUnit, contParseInit, h]

/-- Settles O60: the codec function reports the two lengths (`contParse_codec`), which fit their registers since
`SRC_LEN` does, or the container is malformed (`parse_malformed`). -/
theorem contParseReportsLengths : Obligations.ContParseReportsLengths := by
  intro s c hready
  obtain ⟨st, hexec⟩ := exec_ready rfl hready
  obtain ⟨-, hd, hread⟩ := hready
  refine ⟨?reports, fun hbad => ?malformed⟩
  case reports =>
    rintro w x y z rest rfl hfit
    rw [contParse_codec _ (parse_ok hfit), conclude_contParse _ _ hd] at hexec
    have hsrc := (length_of_readInputs hread).1
    have hcap := s.latched.srcLen.isLt
    simp only [List.length_cons] at hsrc
    refine ⟨_, hexec, rfl, rfl, (BitVec.ofNat_toNat 32 _).trans (BitVec.setWidth_eq _), ?_, rfl, rfl, ?_⟩
    · refine (BitVec.toNat_ofNat _ _).trans ((Nat.mod_eq_of_lt ?_).trans ?_) <;>
        simp only [List.length_cons] <;> omega
    · simp [SameHostSide]
  case malformed =>
    rw [contParse_codec_malformed _ (parse_malformed hbad), conclude_error hd] at hexec
    exact ⟨_, hexec, failAfterAccess_failedWith _ _ s, rfl⟩

end Sys2Proof.Machine
end

section
/-! SUPPORT. The stream tokens in every state (assumption log 25): what each appends to the decoder's output and
what it leaves (41_rle.md R197, R198; 42_lz77.md R219 to R221; 43_lzw.md R253 to R255). -/

namespace Sys2Proof.Machine

/-! ### A token's effect, or its error -/

theorem applyToken_ok {op : Instr} {f : Params → Storage → Except ErrorKind Storage} {s : State} {st : Storage}
    (h : f s.params s.store = .ok st) : applyToken op f s = s.withStore st := by
  simp [applyToken, h]

/-- A token that raises an error, where nothing disturbs the command, fails it (44_container.md R286). -/
theorem applyToken_fails {op : Instr} {f : Params → Storage → Except ErrorKind Storage} {s : State}
    {e : ErrorKind} (h : f s.params s.store = .error e) (hd : disturbed op s = false) :
    FailedWith e s (applyToken op f s) ∧ SameOutside s.latched.dst s (applyToken op f s) := by
  have he : applyToken op f s = failAfterAccess op e s := by simp [applyToken, h, conclude_error hd]
  rw [he]
  exact ⟨failAfterAccess_failedWith op e s, failAfterAccess_sameOutside op e s⟩

/-- Settles O43: the two tokens append (`exec_rleRun`, `exec_rleLit`). -/
theorem rleTokensComplete : Obligations.RleTokensComplete := fun s =>
  ⟨fun n b => ⟨_, exec_rleRun n b s, rfl, rfl⟩, fun lits => ⟨_, exec_rleLit lits s, rfl, rfl⟩⟩

/-! ### LZ77 -/

theorem exec_lz77Ctrl (k : Byte) (s : State) :
    exec (.lz77Ctrl k) s = .next (s.withStore { s.store with
      ip := s.store.ip + 1
      lz77 := { s.store.lz77 with ctrlPos := s.store.ip, ctrl := k, decision := 0 } }) := rfl

theorem exec_lz77Lit (b : Byte) (s : State) :
    exec (.lz77Lit b) s = .next (s.withStore { s.store with
      ip := s.store.ip + 1
      out := s.store.out ++ [b]
      lz77 := { s.store.lz77 with decision := s.store.lz77.decision + 1 } }) := rfl

theorem exec_lz77Ptr (d : BitVec 12) (l : BitVec 4) (s : State) :
    exec (.lz77Ptr d l) s = .next (applyToken .lz77D (lz77PtrEffect d l) s) := rfl

/-- Settles O49: a control byte opens a group and a literal is appended (`exec_lz77Ctrl`, `exec_lz77Lit`). -/
theorem lz77ControlAndLiteralComplete : Obligations.Lz77ControlAndLiteralComplete := fun s =>
  ⟨fun k => ⟨_, exec_lz77Ctrl k s, rfl, rfl, rfl, rfl⟩, fun b => ⟨_, exec_lz77Lit b s, rfl, rfl⟩⟩

theorem length_copyBack (d n : Nat) (out : List Byte) : (copyBack d n out).length = out.length + n := by
  induction n generalizing out with
  | zero => rfl
  | succ n ih =>
    rw [copyBack, ih, List.length_append, List.length_singleton]
    omega

/-- A copy keeps the bytes before it. -/
theorem prefix_copyBack (d n : Nat) (out : List Byte) : out <+: copyBack d n out := by
  induction n generalizing out with
  | zero => exact List.prefix_refl out
  | succ n ih => exact (List.prefix_append _ _).trans (ih _)

theorem getElem?_copyBack_old {out : List Byte} {k : Nat} (d n : Nat) (h : k < out.length) :
    (copyBack d n out)[k]? = out[k]? :=
  (List.prefix_iff_getElem?.mp (prefix_copyBack d n out) k h).trans (List.getElem?_eq_getElem h).symm

/-- Each copied byte equals the one `d` before it, also where that one is a copied byte itself. -/
theorem getElem?_copyBack_new {d n k : Nat} {out : List Byte} (hd : 1 ≤ d) (hle : d ≤ out.length) (hk : k < n) :
    (copyBack d n out)[out.length + k]? = (copyBack d n out)[out.length + k - d]? := by
  induction n generalizing out k with
  | zero => exact absurd hk (Nat.not_lt_zero k)
  | succ n ih =>
    rw [copyBack]
    have hlen : (out ++ [out.getD (out.length - d) 0]).length = out.length + 1 := by simp
    cases k with
    | zero =>
      have hlt : out.length - d < out.length := by omega
      rw [Nat.add_zero, getElem?_copyBack_old _ _ (by omega), getElem?_copyBack_old _ _ (by omega),
        List.getElem?_append_left hlt, List.getElem?_concat_length, List.getD_eq_getElem _ _ hlt,
        List.getElem?_eq_getElem hlt]
    | succ k =>
      have hnext := ih (k := k) (out := out ++ [out.getD (out.length - d) 0]) (by omega) (by omega)
      rwa [hlen, Nat.add_assoc, Nat.add_comm 1 k] at hnext

/-- Settles O50: a pointer into the output copies (`lz77PtrEffect_copies`), byte by byte
(`getElem?_copyBack_old`, `getElem?_copyBack_new`); any other is malformed (`lz77PtrEffect_malformed`). -/
theorem pointerCopiesOrIsMalformed : Obligations.PointerCopiesOrIsMalformed := by
  intro s d l
  rw [exec_lz77Ptr]
  refine ⟨fun h1 hle => ?_, fun hbad hd => ?_⟩
  · rw [applyToken_ok (lz77PtrEffect_copies l s.params (by omega))]
    exact ⟨_, rfl, rfl, length_copyBack _ _ _, fun k hk => getElem?_copyBack_old _ _ hk,
      fun k hk => getElem?_copyBack_new h1 hle hk, rfl⟩
  · exact ⟨_, rfl, applyToken_fails (lz77PtrEffect_malformed l s.params hbad) hd⟩

/-! ### LZW -/

theorem exec_lzwCode (c : BitVec 16) (s : State) :
    exec (.lzwCode c) s = .next (applyToken .lzwD (lzwCodeEffect c) s) := rfl

/-- The first code names a seed entry (43_lzw.md R253). -/
theorem lzwFirst_seed {x : Nat} (st : Storage) (h : x < 256) :
    lzwFirst x st = .ok { st with
      ip := st.ip + 2
      out := [BitVec.ofNat 8 x]
      lzw := { st.lzw with prev := [BitVec.ofNat 8 x], prevId := x, ncodes := 1 } } := by
  have hge : ¬ x ≥ Config.lzwSeed := Nat.not_le.mpr h
  rw [lzwFirst, if_neg hge, lzwString_seed _ h]

theorem lzwFirst_malformed {x : Nat} (st : Storage) (h : 256 ≤ x) : lzwFirst x st = .error .malformedPayload :=
  if_pos h

theorem lzwCodeEffect_first {st : Storage} (c : BitVec 16) (p : Params) (h : st.lzw.ncodes = 0) :
    lzwCodeEffect c p st = lzwFirst c.toNat st := if_pos h

theorem lzwCodeEffect_later {st : Storage} (c : BitVec 16) (p : Params) (h : st.lzw.ncodes ≠ 0) :
    lzwCodeEffect c p st = lzwNext p c.toNat st := if_neg h

/-- Settles O56: the first code goes to `lzwFirst`, which takes a seed and refuses any other. -/
theorem firstCodeNamesASeed : Obligations.FirstCodeNamesASeed := by
  intro s c hn
  have hfirst := lzwCodeEffect_first c s.params hn
  rw [exec_lzwCode]
  refine ⟨fun hlt => ?_, fun hge hd => ?_⟩
  · rw [applyToken_ok (hfirst.trans (lzwFirst_seed s.store hlt))]
    exact ⟨_, rfl, rfl, rfl⟩
  · exact ⟨_, rfl, applyToken_fails (hfirst.trans (lzwFirst_malformed s.store hge)) hd⟩

/-- The string of a later code: of an entry, or of the entry being inserted (43_lzw.md R254). -/
theorem lzwCurrent_ok {z : LzwStore} {x : Nat} {cur : List Byte}
    (h : (x < 256 + z.entries.length ∧ cur = lzwString z.entries x)
      ∨ (x = 256 + z.entries.length ∧ cur = z.prev ++ [z.prev.headD 0])) :
    lzwCurrent z x = .ok cur := by
  have hcount : lzwCount z.entries = 256 + z.entries.length := rfl
  rcases h with ⟨hlt, rfl⟩ | ⟨heq, rfl⟩
  · rw [lzwCurrent, hcount, if_pos hlt]
  · rw [lzwCurrent, hcount, if_neg (by omega), if_pos heq]

theorem lzwCurrent_malformed {z : LzwStore} {x : Nat} (h : 256 + z.entries.length < x) :
    lzwCurrent z x = .error .malformedPayload := by
  have hcount : lzwCount z.entries = 256 + z.entries.length := rfl
  rw [lzwCurrent, hcount, if_neg (by omega), if_neg (by omega)]

theorem lzwInsert_room {p : Params} {entries : List (Nat × Byte)} (pid : Nat) (c : Byte)
    (h : 256 + entries.length ≠ p.lzwDictCapacity) :
    lzwInsert p entries pid c = .ok (entries ++ [(pid, c)]) := if_neg h

theorem lzwInsert_full {p : Params} {entries : List (Nat × Byte)} (pid : Nat) (c : Byte)
    (h : 256 + entries.length = p.lzwDictCapacity) :
    lzwInsert p entries pid c = .error .dictionaryOverflow := if_pos h

/-- A later code with room in the store (43_lzw.md R254, R255). -/
theorem lzwNext_room {p : Params} {x : Nat} {st : Storage} {cur : List Byte}
    (hcur : lzwCurrent st.lzw x = .ok cur) (h : 256 + st.lzw.entries.length ≠ p.lzwDictCapacity) :
    lzwNext p x st = .ok { st with
      ip := st.ip + 2
      out := st.out ++ cur
      lzw := { st.lzw with
        entries := st.lzw.entries ++ [(st.lzw.prevId, cur.headD 0)]
        prev := cur
        prevId := x
        ncodes := st.lzw.ncodes + 1 } } := by
  simp only [lzwNext, hcur, lzwInsert_room _ _ h]

theorem lzwNext_full {p : Params} {x : Nat} {st : Storage} {cur : List Byte}
    (hcur : lzwCurrent st.lzw x = .ok cur) (h : 256 + st.lzw.entries.length = p.lzwDictCapacity) :
    lzwNext p x st = .error .dictionaryOverflow := by
  simp only [lzwNext, hcur, lzwInsert_full _ _ h]

theorem lzwNext_malformed {x : Nat} {st : Storage} (p : Params) (h : 256 + st.lzw.entries.length < x) :
    lzwNext p x st = .error .malformedPayload := by
  simp only [lzwNext, lzwCurrent_malformed h]

/-- Settles O57: a later code goes to `lzwNext`, whose string is one of two (`lzwCurrent_ok`) or none
(`lzwCurrent_malformed`), and which inserts an entry where the store has room. -/
theorem laterCodeExtendsTheDictionary : Obligations.LaterCodeExtendsTheDictionary := by
  intro s c hn
  have hlater := lzwCodeEffect_later c s.params hn
  rw [exec_lzwCode]
  refine ⟨fun cur hcur => ⟨fun hroom => ?_, fun hfull hd => ?_⟩, fun hbeyond hd => ?_⟩
  · rw [applyToken_ok (hlater.trans (lzwNext_room (lzwCurrent_ok hcur) hroom))]
    exact ⟨_, rfl, rfl, rfl⟩
  · exact ⟨_, rfl, applyToken_fails (hlater.trans (lzwNext_full (lzwCurrent_ok hcur) hfull)) hd⟩
  · exact ⟨_, rfl, applyToken_fails (hlater.trans (lzwNext_malformed s.params hbeyond)) hd⟩

end Sys2Proof.Machine
end

section
/-! SUPPORT. A command run one internal step at a time (70_reset_and_hazards.md R358, assumption log 11): each codec
unit uses up its input within its bound on the steps (log 22), so the steps end where the whole run ends. -/

namespace Sys2Proof.Machine

/-! ### The bound on a unit's steps -/

/-- Every step of a unit that goes on uses up some of a measure, which the unit's bound exceeds. -/
structure CodecUnit.UsesUp (u : CodecUnit) (measure : Storage → Nat) : Prop where
  work : ∀ p st st', u.turn p st = .work st' → measure st' < measure st
  token : ∀ p st i st', u.turn p st = .token i → u.token p i st = .ok st' → measure st' < measure st
  fuel : ∀ st, measure st < u.fuel st

/-- The input bytes that a stream unit has not read yet. -/
def unread (st : Storage) : Nat := st.input.length - st.ip

theorem unread_lt {st st' : Storage} (hin : st'.input = st.input) (h : st.ip < st.input.length)
    (hip : st.ip < st'.ip) : unread st' < unread st := by
  rw [unread, unread, hin]
  omega

theorem unread_lt_fuel (st : Storage) : unread st < st.input.length + 1 :=
  Nat.lt_succ_of_le (Nat.sub_le _ _)

/-- A cursor with bytes left stands inside the input. -/
theorem ip_lt_of_drop_eq_cons {st : Storage} {b : Byte} {bs : List Byte} (h : st.input.drop st.ip = b :: bs) :
    st.ip < st.input.length := by
  have hlen := congrArg List.length h
  rw [List.length_drop, List.length_cons] at hlen
  omega

theorem ip_lt_of_decodeToken {f : Format} {st : Storage} {r : Instr × List Byte}
    (h : decodeToken f (st.input.drop st.ip) = .ok r) : st.ip < st.input.length := by
  cases hb : st.input.drop st.ip with
  | nil => rw [hb] at h; contradiction
  | cons b bs => exact ip_lt_of_drop_eq_cons hb

/-- A literal stretch is not empty where no run of two starts. -/
theorem litLen_pos {b : Byte} {bs : List Byte} (h : ¬ 2 ≤ runLen (b :: bs)) :
    1 ≤ litLen Config.rleMaxLiteral (b :: bs) := by
  cases bs with
  | nil => exact Nat.le_refl 1
  | cons c cs =>
    have hne : b ≠ c := by
      rintro rfl
      refine h ?_
      rw [runLen_cons, sameRun, if_pos rfl]
      omega
    simp only [Config.rleMaxLiteral, litLen, if_neg hne]
    omega

/-- The two turns of RLE.C on a byte (41_rle.md R191, R193). -/
theorem rleCTurn_cons (p : Params) {st : Storage} {b : Byte} {bs : List Byte}
    (h : st.input.drop st.ip = b :: bs) :
    rleCTurn p st =
      if 2 ≤ runLen (b :: bs) then
        .work { st with
          ip := st.ip + runLen (b :: bs)
          out := st.out ++ [BitVec.ofNat 8 (runLen (b :: bs) - 1), b]
          rle := { st.rle with runLen := runLen (b :: bs) } }
      else
        .work { st with
          ip := st.ip + litLen Config.rleMaxLiteral (b :: bs)
          out := st.out ++ (BitVec.ofNat 8 (256 - litLen Config.rleMaxLiteral (b :: bs))
            :: (b :: bs).take (litLen Config.rleMaxLiteral (b :: bs)))
          rle := { st.rle with litLen := litLen Config.rleMaxLiteral (b :: bs) } } := by
  simp only [rleCTurn, h]

theorem rleCTurn_nil (p : Params) {st : Storage} (h : st.input.drop st.ip = []) :
    rleCTurn p st = .finished := by
  simp only [rleCTurn, h]

theorem rleCUnit_usesUp : rleCUnit.UsesUp unread where
  work p st st' h := by
    cases hb : st.input.drop st.ip with
    | nil => cases (rleCTurn_nil p hb).symm.trans h
    | cons b bs =>
      have hlt := ip_lt_of_drop_eq_cons hb
      have hturn := (rleCTurn_cons p hb).symm.trans h
      split at hturn <;> cases hturn
      · next hrun => exact unread_lt rfl hlt (by simp only; omega)
      · next hrun =>
        have hlit := litLen_pos hrun
        exact unread_lt rfl hlt (by simp only; omega)
  token p st i st' h _ := by
    cases hb : st.input.drop st.ip with
    | nil => cases (rleCTurn_nil p hb).symm.trans h
    | cons b bs =>
      have hturn := (rleCTurn_cons p hb).symm.trans h
      split at hturn <;> cases hturn
  fuel := unread_lt_fuel

/-- A pointer decision (42_lz77.md R214). -/
theorem decide1_pointer {data : List Byte} {g : Group} (h : (bestMatch data g.pos).1 ≥ Config.minMatch) :
    decide1 data g =
      { pos := g.pos + (bestMatch data g.pos).1
        ctrl := g.ctrl ||| 1#8 <<< g.decisions
        decisions := g.decisions + 1
        tokens := g.tokens ++ pointerBytes (bestMatch data g.pos).1 (bestMatch data g.pos).2 } := by
  simp only [decide1, if_pos h]

/-- A literal decision (42_lz77.md R215). -/
theorem decide1_literal {data : List Byte} {g : Group} (h : ¬ (bestMatch data g.pos).1 ≥ Config.minMatch) :
    decide1 data g =
      { g with
        pos := g.pos + 1
        decisions := g.decisions + 1
        tokens := g.tokens ++ [data.getD g.pos 0] } := by
  simp only [decide1, if_neg h]

/-- A decision of LZ77.C moves on (42_lz77.md R213, R215). -/
theorem decide1_pos (data : List Byte) (g : Group) : g.pos < (decide1 data g).pos := by
  by_cases h : (bestMatch data g.pos).1 ≥ Config.minMatch
  · have h3 : 3 ≤ (bestMatch data g.pos).1 := h
    rw [decide1_pointer h]
    exact Nat.lt_add_of_pos_right (by omega)
  · rw [decide1_literal h]
    exact Nat.lt_succ_self _

theorem decideUpTo_pos_le (data : List Byte) (n : Nat) (g : Group) : g.pos ≤ (decideUpTo data n g).pos := by
  induction n generalizing g with
  | zero => exact Nat.le_refl _
  | succ n ih =>
    rw [decideUpTo]
    split
    · exact Nat.le_refl _
    · exact (decide1_pos data g).le.trans (ih _)

theorem decideUpTo_pos_lt {data : List Byte} {n : Nat} {g : Group} (h : g.pos < data.length) :
    g.pos < (decideUpTo data (n + 1) g).pos := by
  rw [decideUpTo, if_neg (Nat.not_le.mpr h)]
  exact Nat.lt_of_lt_of_le (decide1_pos data g) (decideUpTo_pos_le data n _)

theorem lz77CUnit_usesUp : lz77CUnit.UsesUp unread where
  work p st st' h := by
    simp only [lz77CUnit, lz77CTurn] at h
    split at h <;> cases h
    next hge =>
      have hlt := Nat.not_le.mp hge
      exact unread_lt rfl hlt (decideUpTo_pos_lt (n := 7) (g := ⟨st.ip, 0, 0, []⟩) hlt)
  token p st i st' h _ := by
    simp only [lz77CUnit, lz77CTurn] at h
    split at h <;> cases h
  fuel := unread_lt_fuel

theorem lzwCUnit_usesUp : lzwCUnit.UsesUp unread where
  work p st st' h := by
    simp only [lzwCUnit, lzwCTurn] at h
    split at h
    · cases h
    · next hc =>
      split at h <;> cases h
      exact unread_lt rfl (List.getElem?_eq_some_iff.mp hc).1 (Nat.lt_succ_self _)
  token p st i st' h _ := by
    simp only [lzwCUnit, lzwCTurn] at h
    split at h
    · cases h
    · split at h <;> cases h
  fuel := unread_lt_fuel

theorem hufCUnit_usesUp : hufCUnit.UsesUp unread where
  work p st st' h := by
    simp only [hufCUnit, hufCTurn] at h
    split at h <;> cases h
    next hc => exact unread_lt rfl (List.getElem?_eq_some_iff.mp hc).1 (Nat.lt_succ_self _)
  token p st i st' h _ := by
    simp only [hufCUnit, hufCTurn] at h
    split at h <;> cases h
  fuel := unread_lt_fuel

/-- A first code that is taken moves the cursor by its two bytes. -/
theorem lzwFirst_ip {x : Nat} {st st' : Storage} (h : lzwFirst x st = .ok st') :
    st'.input = st.input ∧ st'.ip = st.ip + 2 := by
  unfold lzwFirst at h
  split at h <;> cases h
  exact ⟨rfl, rfl⟩

/-- What a later code that is taken does (43_lzw.md R254, R255). -/
theorem lzwNext_ok {p : Params} {x : Nat} {st st' : Storage} (h : lzwNext p x st = .ok st') :
    ∃ cur entries, lzwCurrent st.lzw x = .ok cur
      ∧ lzwInsert p st.lzw.entries st.lzw.prevId (cur.headD 0) = .ok entries
      ∧ st' = { st with
          ip := st.ip + 2
          out := st.out ++ cur
          lzw := { st.lzw with
            entries := entries, prev := cur, prevId := x, ncodes := st.lzw.ncodes + 1 } } := by
  unfold lzwNext at h
  split at h
  · cases h
  · next cur hcur =>
    split at h
    · cases h
    · next entries hins =>
      cases h
      exact ⟨cur, entries, hcur, hins, rfl⟩

theorem lzwCodeEffect_ip {c : BitVec 16} {p : Params} {st st' : Storage} (h : lzwCodeEffect c p st = .ok st') :
    st'.input = st.input ∧ st'.ip = st.ip + 2 := by
  by_cases hn : st.lzw.ncodes = 0
  · exact lzwFirst_ip ((lzwCodeEffect_first c p hn).symm.trans h)
  · obtain ⟨cur, entries, -, -, rfl⟩ := lzwNext_ok ((lzwCodeEffect_later c p hn).symm.trans h)
    exact ⟨rfl, rfl⟩

theorem lz77PtrEffect_ip {d : BitVec 12} {l : BitVec 4} {p : Params} {st st' : Storage}
    (h : lz77PtrEffect d l p st = .ok st') : st'.input = st.input ∧ st'.ip = st.ip + 2 := by
  by_cases hbad : d.toNat = 0 ∨ st.out.length < d.toNat
  · cases (lz77PtrEffect_malformed l p hbad).symm.trans h
  · cases (lz77PtrEffect_copies l p hbad).symm.trans h
    exact ⟨rfl, rfl⟩

/-- A token that is taken moves its decoder's cursor past the bytes of its encoding. -/
theorem token_moves_past {i : Instr} {f : Format} {bs : List Byte} {u : CodecUnit} {p : Params} {st st' : Storage}
    (henc : encode i = .token f bs) (hu : unitOf (streamOf f) = some u) (h : u.token p i st = .ok st') :
    st'.input = st.input ∧ st'.ip = st.ip + bs.length := by
  cases i
  case rleLit =>
    cases henc
    cases hu
    cases h
    exact ⟨rfl, congrArg (st.ip + ·) (Nat.add_comm 1 _)⟩
  case rleRun | lz77Ctrl | lz77Lit =>
    cases henc
    cases hu
    cases h
    exact ⟨rfl, rfl⟩
  case lz77Ptr =>
    cases henc
    cases hu
    exact lz77PtrEffect_ip (p := p) h
  case lzwCode =>
    cases henc
    cases hu
    exact lzwCodeEffect_ip h
  all_goals contradiction

/-- The encoding of a token has a byte. -/
theorem encode_token_length_pos {i : Instr} {f : Format} {bs : List Byte} (h : encode i = .token f bs) :
    0 < bs.length := by
  cases i
  case rleRun | rleLit | lz77Ctrl | lz77Lit | lz77Ptr | lzwCode =>
    cases h
    exact Nat.succ_pos _
  all_goals contradiction

/-- A decoder's token uses up input bytes. -/
theorem unread_lt_of_token {i : Instr} {f : Format} {u : CodecUnit} {p : Params} {st st' : Storage}
    {more : List Byte} (hdec : decodeToken f (st.input.drop st.ip) = .ok (i, more))
    (hu : unitOf (streamOf f) = some u) (h : u.token p i st = .ok st') : unread st' < unread st := by
  obtain ⟨-, pre, henc, -⟩ := decodedTokenIsItsEncoding _ _ _ _ hdec
  obtain ⟨hin, hip⟩ := token_moves_past henc hu h
  have hpos := encode_token_length_pos henc
  exact unread_lt hin (ip_lt_of_decodeToken hdec) (by omega)

theorem rleDUnit_usesUp : rleDUnit.UsesUp unread where
  work p st st' h := by
    simp only [rleDUnit, rleDTurn] at h
    split at h <;> cases h
  token p st i st' h ht := by
    simp only [rleDUnit, rleDTurn] at h
    split at h <;> cases h
    next hdec => exact unread_lt_of_token hdec rfl ht
  fuel := unread_lt_fuel

theorem lz77DUnit_usesUp : lz77DUnit.UsesUp unread where
  work p st st' h := by
    simp only [lz77DUnit, lz77DTurn] at h
    split at h <;> cases h
  token p st i st' h ht := by
    simp only [lz77DUnit, lz77DTurn] at h
    split at h <;> cases h
    next hdec => exact unread_lt_of_token hdec (by rw [streamOf_lz77Format]; rfl) ht
  fuel := unread_lt_fuel

theorem lzwDUnit_usesUp : lzwDUnit.UsesUp unread where
  work p st st' h := by
    simp only [lzwDUnit, lzwDTurn] at h
    split at h <;> cases h
  token p st i st' h ht := by
    simp only [lzwDUnit, lzwDTurn] at h
    split at h <;> cases h
    next hdec => exact unread_lt_of_token hdec rfl ht
  fuel := unread_lt_fuel

/-- The bits that HUF.D has not read yet. -/
def unreadBits (st : Storage) : Nat := st.huf.reader.nbitsTotal - st.huf.reader.bitpos

theorem brNext_some {r r' : BitReader} {bit : Bool} (h : brNext r = some (bit, r')) :
    r.bitpos < r.nbitsTotal ∧ bit = (r.payload.getD (r.bitpos / 8) 0).getLsbD (7 - r.bitpos % 8)
      ∧ r' = { r with bitpos := r.bitpos + 1 } := by
  unfold brNext at h
  split at h <;> cases h
  next hlt => exact ⟨Nat.not_le.mp hlt, rfl, rfl⟩

theorem hufDUnit_usesUp : hufDUnit.UsesUp unreadBits where
  work p st st' h := by
    simp only [hufDUnit, hufDTurn] at h
    split at h
    · cases h
    · split at h
      · split at h <;> cases h
      · next hbit =>
        obtain ⟨hlt, -, rfl⟩ := brNext_some hbit
        split at h <;> cases h <;> exact Nat.sub_succ_lt_self _ _ hlt
  token p st i st' h _ := by
    obtain ⟨f, bs, rest, hf, -⟩ := decode_of_turn_token (op := .hufD) rfl h
    cases f <;> cases hf
  fuel st := Nat.lt_succ_of_le (Nat.sub_le _ _)

/-- The container units do all their work when they initialise. -/
theorem contUnit_usesUp {u : CodecUnit} (hturn : u.turn = noTurn) (hfuel : u.fuel = fun _ => 1) :
    u.UsesUp fun _ => 0 where
  work p st st' h := by
    rw [hturn] at h
    cases h
  token p st i st' h _ := by
    rw [hturn] at h
    cases h
  fuel st := by rw [hfuel]; exact Nat.one_pos

/-- Every unit uses up its input within its bound. -/
theorem unitOf_usesUp {i : Instr} {u : CodecUnit} (h : unitOf i = some u) : ∃ measure, u.UsesUp measure := by
  cases i <;> cases h
  case hufC => exact ⟨_, hufCUnit_usesUp⟩
  case hufD => exact ⟨_, hufDUnit_usesUp⟩
  case rleC => exact ⟨_, rleCUnit_usesUp⟩
  case rleD => exact ⟨_, rleDUnit_usesUp⟩
  case lz77C => exact ⟨_, lz77CUnit_usesUp⟩
  case lz77D => exact ⟨_, lz77DUnit_usesUp⟩
  case lzwC => exact ⟨_, lzwCUnit_usesUp⟩
  case lzwD => exact ⟨_, lzwDUnit_usesUp⟩
  case contSer | contParse => exact ⟨_, contUnit_usesUp rfl rfl⟩

/-! ### Steps of the machine -/

theorem run_zero (s : State) : Host.Core.run Sys2Proof.core 0 s = .next s := rfl

theorem run_step {s t : State} (n : Nat) (h : step s = .next t) :
    Host.Core.run Sys2Proof.core (n + 1) s = Host.Core.run Sys2Proof.core n t := by
  have hstep : Sys2Proof.core.step s = .next t := h
  simp only [Host.Core.run, hstep]

/-- A command at work on internal storage, with bus traffic to come. -/
def State.atWork (s : State) (op : Instr) (st : Storage) (ops : List BusOp) : State :=
  { s with phase := .running op, store := st, bus := ops }

/-- How a command ends does not depend on the phase it was in. -/
theorem conclude_atWork (op : Instr) (r : Except ErrorKind Output) (s : State) (st : Storage)
    (ops : List BusOp) : conclude op r (s.atWork op st ops) = conclude op r ((s.withBus ops).withStore st) := by
  unfold conclude unspecifiedEnd failAfterAccess spoiled
  cases usesDst op <;> rfl

/-- A unit's work on its storage. -/
theorem continueCommand_work {op : Instr} {u : CodecUnit} {s : State} {st : Storage}
    (h : u.turn s.params s.store = .work st) : continueCommand op u s = .next (s.withStore st) := by
  simp only [continueCommand, h]

/-- The next traffic leaves one internal step to a command at work. -/
theorem step_atWork {s : State} {op : Instr} {u : CodecUnit} (st : Storage) (ops : List BusOp)
    (hp : s.params.legal = true) (hu : unitOf op = some u) :
    step (s.atWork op st (.engineStep :: ops)) = continueCommand op u (s.atWork op st ops) :=
  (step_bus (s := s.atWork op st (.engineStep :: ops)) hp rfl).trans
    (engineMove_running (s := s.atWork op st ops) false rfl hu)

/-- A command at work, left alone for as many internal steps as it needs, ends as its unit's run does. -/
theorem run_atWork {u : CodecUnit} {measure : Storage → Nat} (hm : u.UsesUp measure) {op : Instr}
    (hu : unitOf op = some u) {s : State} (hp : s.params.legal = true) (rest : List BusOp) {n : Nat}
    {st : Storage} (hn : measure st < n) :
    ∃ k, Host.Core.run Sys2Proof.core k (s.atWork op st (List.replicate k .engineStep ++ rest))
      = .next (conclude op (u.answer (drain u s.params n st))
          ((s.withBus rest).withStore (drain u s.params n st).2)) := by
  induction n generalizing st with
  | zero => exact absurd hn (Nat.not_lt_zero _)
  | succ n ih =>
    have hstep := fun ops => step_atWork (s := s) st ops hp hu
    cases ht : u.turn s.params st with
    | finished =>
      have hend := (hstep rest).trans (continueCommand_finished (s := s.atWork op st rest) ht)
      refine ⟨1, (run_step 0 hend).trans ?_⟩
      rw [run_zero, conclude_atWork, drain_finished _ ht]
      rfl
    | failed e =>
      have hend := (hstep rest).trans (continueCommand_failed (s := s.atWork op st rest) ht)
      refine ⟨1, (run_step 0 hend).trans ?_⟩
      rw [run_zero, conclude_atWork, drain_failed _ ht]
      rfl
    | work st' =>
      have hlt := hm.work _ _ _ ht
      obtain ⟨k, hk⟩ := ih (st := st') (by omega)
      refine ⟨k + 1, ?_⟩
      rw [drain_work _ ht, ← hk]
      exact run_step k ((hstep _).trans (continueCommand_work (s := s.atWork op st _) ht))
    | token i =>
      have hexec := fun ops => (hstep ops).trans
        ((continueCommand_token (s := s.atWork op st ops) ht).trans (exec_of_turn_token hu ht _))
      cases hi : u.token s.params i st with
      | error e =>
        refine ⟨1, (run_step 0 (hexec rest)).trans ?_⟩
        have happly : applyToken op (fun p st => u.token p i st) (s.atWork op st rest)
            = conclude op (.error e) (s.atWork op st rest) := by
          have hi' : u.token (s.atWork op st rest).params i (s.atWork op st rest).store = .error e := hi
          simp only [applyToken, hi']
        rw [run_zero, happly, conclude_atWork, drain_token_error _ ht hi]
        rfl
      | ok st' =>
        have hlt := hm.token _ _ _ _ ht hi
        obtain ⟨k, hk⟩ := ih (st := st') (by omega)
        refine ⟨k + 1, ?_⟩
        rw [drain_token _ ht hi, ← hk]
        refine run_step k ((hexec _).trans ?_)
        rw [applyToken_ok (s := s.atWork op st _) hi]
        rfl

/-- What a command needs for its codec function to start does not depend on the bus traffic. -/
theorem prepare_withBus_ok {op : Instr} {u : CodecUnit} {s : State} {st : Storage} (ops : List BusOp)
    (h : prepare op u s = .ok st) : prepare op u (s.withBus ops) = .ok st := by
  rcases prepare_cases op u s with ⟨-, hp⟩ | ⟨-, -, hp⟩ | ⟨-, -, e, hp⟩ | ⟨hv, hd, inp, st', hr, hi, hp⟩ <;>
    cases hp.symm.trans h
  have hr' : readInputs op (s.withBus ops) = some inp := hr
  have hd' : disturbed op (s.withBus ops) = false := hd
  simp [prepare, hv, hd', hr', hi, Except.mapError]

/-- The next traffic leaves one internal step to a block that is about to dispatch a word. -/
theorem step_dispatch {s : State} (ops : List BusOp) (hp : s.params.legal = true)
    (hph : s.phase = .dispatch) :
    step (s.withBus (.engineStep :: ops)) = dispatchCommand false (s.withBus ops) := by
  refine (step_bus (s := s.withBus (.engineStep :: ops)) hp rfl).trans ?_
  simp [busMove, engineMove, hph, State.withBus]

theorem dispatchCommand_unit {s : State} {i : Instr} {u : CodecUnit} (hd : decodeCommand s.cmd = .ok i)
    (hu : unitOf i = some u) : dispatchCommand false s = .next (beginCommand i u s) := by
  simp [dispatchCommand, hd, hu]

theorem dispatchCommand_brotli {s : State} {i : Instr} (hd : decodeCommand s.cmd = .ok i)
    (hb : isBrotli i = true) : dispatchCommand false s = .next (failCommand .unsupportedAlgorithm s) := by
  simp [dispatchCommand, hd, unitOf_brotli hb, exec_brotli hb]

/-- Settles O20: the first step begins the command, which may end it at once; else the command is at work on its
unit's first storage, and `run_atWork` runs it to its end. -/
theorem stepwiseRunReachesWholeRun : Obligations.StepwiseRunReachesWholeRun := by
  intro s i rest hp hph hd
  have hstep := fun ops => step_dispatch (s := s) ops hp hph
  rcases isCommand_cases (isCommand_encode_of_decodeCommand hd).1 with ⟨u, hu⟩ | hb
  · obtain ⟨measure, hm⟩ := unitOf_usesUp hu
    have hbegin := fun ops => (hstep ops).trans (dispatchCommand_unit (s := s.withBus ops) hd hu)
    rw [exec_unit hu]
    cases hprep : prepare i u (s.withBus rest) with
    | error t =>
      have hends : beginCommand i u (s.withBus rest) = runCommand i u (s.withBus rest) := by
        simp only [beginCommand, runCommand, hprep]
      exact ⟨1, (run_step 0 (hbegin rest)).trans (congrArg Host.Outcome.next hends)⟩
    | ok st =>
      have hwork : ∀ ops, beginCommand i u (s.withBus ops) = s.atWork i st ops := fun ops => by
        have hok : prepare i u (s.withBus ops) = .ok st := prepare_withBus_ok (s := s.withBus rest) ops hprep
        simp only [beginCommand, hok]
        rfl
      have hwhole : runCommand i u (s.withBus rest)
          = conclude i (u.answer (drain u s.params (u.fuel st) st))
            ((s.withBus rest).withStore (drain u s.params (u.fuel st) st).2) := by
        simp only [runCommand, hprep, State.withBus_params]
      obtain ⟨k, hk⟩ := run_atWork hm hu hp rest (hm.fuel st)
      refine ⟨k + 1, (run_step k ((hbegin _).trans (congrArg _ (hwork _)))).trans (hk.trans ?_)⟩
      exact congrArg Host.Outcome.next hwhole.symm
  · refine ⟨1, (run_step 0 ((hstep rest).trans (dispatchCommand_brotli (s := s.withBus rest) hd hb))).trans ?_⟩
    exact (exec_brotli hb _).symm

end Sys2Proof.Machine
end

section
/-! SUPPORT. The bus traffic of a command's pseudo-instruction (30_encoding.md R121, R122): the parameter writes, the
`CMD` write, and a WAIT whose polls let the engine run the command. -/

namespace Sys2Proof.Machine

/-! ### The host's data and traffic -/

/-- The state with other data read and other bus traffic: the host's side, which no command looks at. -/
def State.withHost (s : State) (d : Word) (ops : List BusOp) : State := { s with readData := d, bus := ops }

section

variable (op : Instr) (s : State) (d : Word) (ops : List BusOp)

@[simp] theorem State.withHost_params : (s.withHost d ops).params = s.params := rfl

@[simp] theorem State.withHost_latched : (s.withHost d ops).latched = s.latched := rfl

@[simp] theorem State.withHost_store : (s.withHost d ops).store = s.store := rfl

@[simp] theorem disturbed_withHost : disturbed op (s.withHost d ops) = disturbed op s := rfl

@[simp] theorem readInputs_withHost : readInputs op (s.withHost d ops) = readInputs op s := rfl

theorem spoiled_withHost : spoiled op (s.withHost d ops) = (spoiled op s).withHost d ops := by
  unfold spoiled
  cases usesDst op <;> rfl

theorem failAfterAccess_withHost (e : ErrorKind) :
    failAfterAccess op e (s.withHost d ops) = (failAfterAccess op e s).withHost d ops := by
  rw [failAfterAccess, spoiled_withHost]
  rfl

theorem unspecifiedEnd_withHost : unspecifiedEnd op (s.withHost d ops) = (unspecifiedEnd op s).withHost d ops := by
  simp only [unspecifiedEnd, spoiled_withHost]
  rfl

theorem conclude_withHost (r : Except ErrorKind Output) :
    conclude op r (s.withHost d ops) = (conclude op r s).withHost d ops := by
  cases hd : disturbed op s
  case true => simp [conclude, hd, unspecifiedEnd_withHost]
  have hd' : disturbed op (s.withHost d ops) = false := hd
  cases r with
  | error e => rw [conclude_error hd, conclude_error hd', failAfterAccess_withHost]
  | ok o =>
    by_cases hlen : usesDst op = true ∧ s.latched.dstCap.toNat < o.out.length
    · rw [conclude_overflow hd hlen.1 hlen.2, conclude_overflow hd' hlen.1 hlen.2, failAfterAccess_withHost]
    · cases hw : writeBytes s.params s.mem s.latched.dstAddr.toNat o.out.toList with
      | none => rw [conclude_unwritten hd hlen hw, conclude_unwritten hd' hlen hw, failAfterAccess_withHost]
      | some m =>
        have hfit : usesDst op = true → o.out.length ≤ s.latched.dstCap.toNat :=
          fun hu => not_lt.mp fun hlt => hlen ⟨hu, hlt⟩
        rw [conclude_ok hd hfit hw, conclude_ok hd' hfit hw]
        rfl

theorem prepare_withHost (u : CodecUnit) :
    prepare op u (s.withHost d ops) = (prepare op u s).mapError fun t => t.withHost d ops := by
  simp only [prepare, disturbed_withHost, unspecifiedEnd_withHost, failAfterAccess_withHost, readInputs_withHost,
    State.withHost_params, State.withHost_latched, State.withHost_store]
  cases validRanges op s.params s.latched
  case false => rfl
  cases disturbed op s
  case true => rfl
  cases readInputs op s with
  | none => rfl
  | some inp =>
    simp only
    cases u.init s.params inp s.store <;> rfl

/-- A command ends alike whatever the host's side holds, and leaves it. -/
theorem runCommand_withHost (u : CodecUnit) :
    runCommand op u (s.withHost d ops) = (runCommand op u s).withHost d ops := by
  rw [runCommand, runCommand, prepare_withHost]
  cases prepare op u s with
  | error t => rfl
  | ok st => exact conclude_withHost op (s.withStore (drain u s.params (u.fuel st) st).2) d ops _

end

theorem exec_withHost {i : Instr} (hi : i.isCommand = true) {s t : State} (d : Word) (ops : List BusOp)
    (h : exec i s = .next t) : exec i (s.withHost d ops) = .next (t.withHost d ops) := by
  rcases isCommand_cases hi with ⟨u, hu⟩ | hb
  · cases (exec_unit hu s).symm.trans h
    rw [exec_unit hu, runCommand_withHost]
  · cases (exec_brotli hb s).symm.trans h
    exact exec_brotli hb _

/-! ### Host programs -/

/-- Some number of steps leads from `s` to `t`. -/
def Reaches (s t : State) : Prop := ∃ n, Host.Core.run Sys2Proof.core n s = .next t

theorem Reaches.refl (s : State) : Reaches s s := ⟨0, rfl⟩

theorem Reaches.head {s t v : State} (h : step s = .next t) (ht : Reaches t v) : Reaches s v := by
  obtain ⟨n, hn⟩ := ht
  exact ⟨n + 1, (run_step n h).trans hn⟩

theorem regAt_offset (r : Reg) : regAt r.offset = r := by cases r <;> rfl

theorem Reg.offset_lt (r : Reg) : r.offset < 64 := by cases r <;> decide

theorem Reg.offset_aligned (r : Reg) : r.offset % 4 = 0 := by cases r <;> rfl

theorem registerWrite_withBus (r : Reg) (v : Word) (s : State) (ops : List BusOp) :
    registerWrite r v (s.withBus ops) = (registerWrite r v s).withBus ops := by
  have hbusy : (s.withBus ops).busy = s.busy := rfl
  simp only [registerWrite, hbusy]
  cases s.busy
  case true => rfl
  case false => cases r <;> rfl

theorem registerWrite_params (r : Reg) (v : Word) (s : State) : (registerWrite r v s).params = s.params := by
  unfold registerWrite
  cases s.busy
  case true => rfl
  case false => cases r <;> rfl

/-- The first statement of a program, a register write, is one step. -/
theorem Reaches.write {s t : State} {r : Reg} {v : Word} {prog : List HostStatement} (hp : s.params.legal = true)
    (h : Reaches ((registerWrite r v s).withProgram prog) t) : Reaches (s.withProgram (.wr r v :: prog)) t := by
  refine .head ?_ h
  have hstep := step_regWrite (s := s.withProgram (.wr r v :: prog)) (rest := assemble s.params.regBase prog)
    hp r.offset_lt r.offset_aligned rfl
  rw [hstep, regAt_offset]
  refine congrArg _ ((registerWrite_withBus r v s _).trans ?_)
  rw [State.withProgram, registerWrite_params]

section

variable {s t : State} {prog : List HostStatement} (hp : s.params.legal = true) (hidle : s.busy = false)
  (a n : Word)
include hp hidle

/-- The writes of a `src=` operand. -/
theorem Reaches.src (h : Reaches (State.withProgram { s with srcAddr := a, srcLen := n } prog) t) :
    Reaches (s.withProgram (srcOperand a n ++ prog)) t := by
  refine .write hp ?_
  rw [registerWrite_srcAddr a hidle]
  refine .write hp ?_
  rwa [registerWrite_srcLen (s := { s with srcAddr := a }) n hidle]

/-- The writes of a `dst=` operand, where there is one. -/
theorem Reaches.dst (used : Bool)
    (h : Reaches (State.withProgram
      { s with dstAddr := if used then a else s.dstAddr, dstCap := if used then n else s.dstCap } prog) t) :
    Reaches (s.withProgram ((if used then dstOperand a n else []) ++ prog)) t := by
  cases used with
  | false => exact h
  | true =>
    refine .write hp ?_
    rw [registerWrite_dstAddr a hidle]
    refine .write hp ?_
    rwa [registerWrite_dstCap (s := { s with dstAddr := a }) n hidle]

/-- The writes of a `meta=` operand, where there is one. -/
theorem Reaches.metadata (used : Bool)
    (h : Reaches (State.withProgram
      { s with metaAddr := if used then a else s.metaAddr, metaLen := if used then n else s.metaLen } prog) t) :
    Reaches (s.withProgram ((if used then metaOperand a n else []) ++ prog)) t := by
  cases used with
  | false => exact h
  | true =>
    refine .write hp ?_
    rw [registerWrite_metaAddr a hidle]
    refine .write hp ?_
    rwa [registerWrite_metaLen (s := { s with metaAddr := a }) n hidle]

end

/-- A pseudo-instruction writes the operands, then the command word, and waits (R122). -/
theorem reaches_of_operands {i : Instr} {l : Latched} {s t : State} (hp : s.params.legal = true)
    (hidle : s.busy = false)
    (h : Reaches ((s.withOperands i l).withProgram [.wr .cmd (commandWord i), .wait]) t) :
    Reaches (s.withProgram (pseudo i l)) t := by
  rw [pseudo, List.append_assoc, List.append_assoc]
  refine .src hp hidle l.srcAddr l.srcLen ?_
  refine .dst (by exact hp) (by exact hidle) l.dstAddr l.dstCap (usesDst i) ?_
  exact .metadata (by exact hp) (by exact hidle) l.metaAddr l.metaLen (usesMeta i) h

/-! ### WAIT -/

/-- A poll that shows BUSY lets the engine move, and WAIT stays (assumption log 20). -/
theorem step_wait_busy {s : State} (hp : s.params.legal = true) (hbusy : s.busy = true) (hb : s.bus = [.wait]) :
    step s = engineMove true (s.withHost (readRegister .status s) [.wait]) := by
  refine (step_bus hp hb).trans ?_
  have hbusy' : (s.withBus []).busy = true := hbusy
  rw [busMove, waitMove, if_pos hbusy', registerRead_busy _ hbusy']
  rfl

/-- A poll of an idle block reads STATUS and ends the WAIT. -/
theorem step_wait_idle {s : State} (hp : s.params.legal = true) (hidle : s.busy = false) (hb : s.bus = [.wait]) :
    step s = .next (registerRead .status (s.withBus [])) :=
  (step_bus hp hb).trans (waitMove_idle (s := s.withBus []) hidle)

/-- A command's encoding is its word. -/
theorem encode_command {i : Instr} (h : i.isCommand = true) : encode i = .command (commandWord i) := by
  cases i
  case rleRun | rleLit | lz77Ctrl | lz77Lit | lz77Ptr | lzwCode => contradiction
  all_goals rfl

/-- WAIT after an accepted command word: the first poll runs the command, the second reads its final STATUS. -/
theorem reaches_wait {i : Instr} {s t : State} (hi : i.isCommand = true) (hp : s.params.legal = true)
    (h : exec i ((acceptCommand (commandWord i) s).withBus []) = .next t) :
    Reaches ((acceptCommand (commandWord i) s).withBus [.wait]) (registerRead .status t) := by
  have hbusy : ((acceptCommand (commandWord i) s).withBus [.wait]).busy = true := acceptCommand_busy (commandWord i) s
  obtain ⟨t', ht', hends⟩ := exec_ends hi ((acceptCommand (commandWord i) s).withBus [])
  cases ht'.symm.trans h
  obtain ⟨-, -, -, -, -, -, -, -, hparams, hbus, -⟩ := hends.host
  obtain ⟨-, -, hfinal⟩ := hends.status
  generalize hd : readRegister .status ((acceptCommand (commandWord i) s).withBus [.wait]) = d
  have hrun : step ((acceptCommand (commandWord i) s).withBus [.wait]) = .next (t.withHost d [.wait]) := by
    rw [step_wait_busy (s := (acceptCommand (commandWord i) s).withBus [.wait]) hp hbusy rfl, hd]
    refine (engineMove_dispatch rfl (decodeCommand_encode (encode_command hi))).trans ?_
    exact exec_withHost (s := (acceptCommand (commandWord i) s).withBus []) hi d [.wait] h
  have hpoll : step (t.withHost d [.wait]) = .next (registerRead .status ((t.withHost d [.wait]).withBus [])) :=
    step_wait_idle (hparams ▸ hp) hfinal rfl
  have hlast : registerRead .status ((t.withHost d [.wait]).withBus []) = registerRead .status t := by
    have hstate : (t.withHost d [.wait]).withBus [] = t.withHost d t.bus := by rw [hbus]; rfl
    rw [hstate]
    rfl
  rw [hlast] at hpoll
  exact .head hrun (.head hpoll (.refl _))

/-- Settles O22: the operand writes (`reaches_of_operands`), the `CMD` write, and the two polls
(`reaches_wait`). -/
theorem pseudoInstructionRunsItsCommand : Obligations.PseudoInstructionRunsItsCommand := by
  intro i l s hi hinv hph
  obtain ⟨hp, -⟩ := (State.inv_iff s).mp hinv
  have hidle : s.busy = false := by simp [busy_of_inv hinv, hph]
  obtain ⟨t, ht, -⟩ := exec_ends hi ((acceptCommand (commandWord i) (s.withOperands i l)).withBus [])
  have hwait := reaches_wait (s := s.withOperands i l) hi hp ht
  have hreach : Reaches (s.withProgram (pseudo i l)) (registerRead .status t) := by
    refine reaches_of_operands hp hidle (.write hp ?_)
    rw [registerWrite_cmd (s := s.withOperands i l) _ hidle]
    exact hwait
  obtain ⟨n, hn⟩ := hreach
  exact ⟨n, t, ht, hn⟩

end Sys2Proof.Machine
end

section
/-! SUPPORT. The RLE round trip (41_rle.md R194 to R199). RLE.C writes the encodings of tokens whose meaning is the
input (`rleC_run`); RLE.D reads any such tokens back and appends their meaning (`rleD_run`). -/

namespace Sys2Proof

/-- The bytes of a token. -/
def Instr.tokenBytes (i : Instr) : List Byte :=
  match encode i with
  | .token _ bs => bs
  | .command _ => []

theorem Instr.tokenBytes_eq {i : Instr} {f : Format} {bs : List Byte} (h : encode i = .token f bs) :
    i.tokenBytes = bs := by
  simp only [tokenBytes, h]

/-- A token of a format that has an encoding. -/
def Instr.IsToken (f : Format) (i : Instr) : Prop := i.wellFormed = true ∧ ∃ bs, encode i = .token f bs

/-- A token is read back from its bytes, whatever follows (30_encoding.md section 4 to 6). -/
theorem Instr.IsToken.decode {f : Format} {i : Instr} (h : i.IsToken f) (rest : List Byte) :
    decodeToken f (i.tokenBytes ++ rest) = .ok (i, rest) := by
  obtain ⟨hwf, bs, henc⟩ := h
  have hback := encodedInstructionDecodesBack i hwf
  rw [henc] at hback
  rw [tokenBytes_eq henc]
  exact hback rest

end Sys2Proof

namespace Sys2Proof.Machine

/-! ### What an RLE token stands for -/

/-- The bytes that an RLE token appends (41_rle.md R197, R198). -/
def rleMeaning : Instr → List Byte
  | .rleRun n b => List.replicate (n.toNat + 1) b
  | .rleLit lits => lits
  | _ => []

/-- A token is at most twice as long as what it stands for. -/
theorem length_tokenBytes_le {i : Instr} (h : i.IsToken .rle) :
    i.tokenBytes.length ≤ 2 * (rleMeaning i).length := by
  obtain ⟨hwf, bs, henc⟩ := h
  rw [Instr.tokenBytes_eq henc]
  cases i <;> cases henc
  case rleRun n b =>
    simp only [rleMeaning, List.length_replicate, List.length_cons, List.length_nil]
    omega
  case rleLit lits =>
    have hlen := ((literalCountOk_iff lits).mp hwf).1
    simp only [rleMeaning, List.length_cons]
    omega

/-- Executing an RLE token appends its meaning and moves past its bytes. -/
theorem rleToken_ok (p : Params) {i : Instr} (h : i.IsToken .rle) (st : Storage) :
    ∃ st', rleDUnit.token p i st = .ok st' ∧ st'.input = st.input ∧ st'.ip = st.ip + i.tokenBytes.length
      ∧ st'.out = st.out ++ rleMeaning i := by
  obtain ⟨-, bs, henc⟩ := h
  have hout : ∃ st', rleDUnit.token p i st = .ok st' ∧ st'.out = st.out ++ rleMeaning i := by
    cases i <;> cases henc
    · exact ⟨_, rfl, rfl⟩
    · exact ⟨_, rfl, rfl⟩
  obtain ⟨st', hst, hout⟩ := hout
  obtain ⟨hin, hip⟩ := token_moves_past henc rfl hst
  exact ⟨st', hst, hin, by rw [hip, Instr.tokenBytes_eq henc], hout⟩

/-- RLE.D reads a stream of tokens and appends what they stand for. -/
theorem rleD_run (p : Params) {toks : List Instr} (htoks : ∀ i ∈ toks, i.IsToken .rle) {st : Storage} {n : Nat}
    (hbytes : st.input.drop st.ip = toks.flatMap Instr.tokenBytes) (hn : unread st < n) :
    ∃ st', drain rleDUnit p n st = (.ok (), st') ∧ st'.out = st.out ++ toks.flatMap rleMeaning := by
  induction toks generalizing st n with
  | nil =>
    have hturn : rleDUnit.turn p st = .finished := by
      simp only [rleDUnit, rleDTurn, hbytes]
      rfl
    exact ⟨st, drain_finished n hturn, (List.append_nil _).symm⟩
  | cons i toks ih =>
    obtain ⟨hi, htoks'⟩ := List.forall_mem_cons.mp htoks
    obtain ⟨m, rfl⟩ := Nat.exists_eq_add_one.mpr (Nat.zero_lt_of_lt hn)
    rw [List.flatMap_cons] at hbytes
    have hturn : rleDUnit.turn p st = .token i := rleDTurn_token p (by rw [hbytes]; exact hi.decode _)
    obtain ⟨st1, hst1, hin, hip, hout⟩ := rleToken_ok p hi st
    have hlt := rleDUnit_usesUp.token p st i st1 hturn hst1
    have hrest : st1.input.drop st1.ip = toks.flatMap Instr.tokenBytes := by
      rw [hin, hip, ← List.drop_drop, hbytes, List.drop_left]
    obtain ⟨st', hst', hout'⟩ := ih htoks' hrest (n := m) (by omega)
    refine ⟨st', (drain_token m hturn hst1).trans hst', ?_⟩
    rw [hout', hout, List.flatMap_cons, List.append_assoc]

/-! ### What RLE.C writes -/

/-- A run of equal bytes is what its run token stands for. -/
theorem take_runLen (b : Byte) (bs : List Byte) :
    (b :: bs).take (runLen (b :: bs)) = List.replicate (runLen (b :: bs)) b := by
  refine List.ext_getElem? fun k => ?_
  rw [List.getElem?_take, List.getElem?_replicate]
  split
  · next hk => rw [getElem?_of_lt_runLen hk]; rfl
  · rfl

/-- RLE.C's next token on the bytes that are left: a run where two equal bytes start, else a literal (R191). -/
def rleNext (b : Byte) (bs : List Byte) : Instr :=
  if 2 ≤ runLen (b :: bs) then .rleRun (BitVec.ofNat 7 (runLen (b :: bs) - 1)) b
  else .rleLit ((b :: bs).take (litLen Config.rleMaxLiteral (b :: bs)))

/-- How many bytes RLE.C's next token takes. -/
def rleTaken (b : Byte) (bs : List Byte) : Nat :=
  if 2 ≤ runLen (b :: bs) then runLen (b :: bs) else litLen Config.rleMaxLiteral (b :: bs)

theorem rleNext_isToken (b : Byte) (bs : List Byte) : (rleNext b bs).IsToken .rle := by
  unfold rleNext
  split
  · exact ⟨rfl, _, rfl⟩
  · next hrun =>
    have hpos := litLen_pos hrun
    have hcap := litLen_le_cap Config.rleMaxLiteral (b :: bs)
    have hlen := List.length_take_of_le (litLen_le_length Config.rleMaxLiteral (b :: bs))
    have hmax : Config.rleMaxLiteral = 128 := rfl
    exact ⟨(literalCountOk_iff _).mpr (by omega), _, rfl⟩

theorem rleMeaning_rleNext (b : Byte) (bs : List Byte) :
    rleMeaning (rleNext b bs) = (b :: bs).take (rleTaken b bs) := by
  unfold rleNext rleTaken
  split
  · next hrun =>
    have hmax := runLen_le (b :: bs)
    have hcount : (BitVec.ofNat 7 (runLen (b :: bs) - 1)).toNat + 1 = runLen (b :: bs) := by
      rw [BitVec.toNat_ofNat]
      omega
    rw [rleMeaning, hcount, take_runLen]
  · rfl

/-- A turn of RLE.C on a byte writes its next token. -/
theorem rleCTurn_rleNext (p : Params) {st : Storage} {b : Byte} {bs : List Byte}
    (h : st.input.drop st.ip = b :: bs) :
    ∃ st', rleCUnit.turn p st = .work st' ∧ st'.input = st.input ∧ st'.ip = st.ip + rleTaken b bs
      ∧ st'.out = st.out ++ (rleNext b bs).tokenBytes := by
  have hturn : rleCUnit.turn p st = _ := rleCTurn_cons p h
  unfold rleTaken rleNext
  split
  · next hrun =>
    rw [if_pos hrun] at hturn
    refine ⟨_, hturn, rfl, rfl, ?_⟩
    have hmax := runLen_le (b :: bs)
    have hcontrol : runControl (BitVec.ofNat 7 (runLen (b :: bs) - 1)) = BitVec.ofNat 8 (runLen (b :: bs) - 1) := by
      apply BitVec.eq_of_toNat_eq
      rw [toNat_runControl, BitVec.toNat_ofNat, BitVec.toNat_ofNat]
      omega
    rw [Instr.tokenBytes_eq rfl, hcontrol]
  · next hrun =>
    rw [if_neg hrun] at hturn
    refine ⟨_, hturn, rfl, rfl, ?_⟩
    rw [Instr.tokenBytes_eq rfl, List.length_take_of_le (litLen_le_length _ _)]
    rfl

/-- RLE.C writes tokens that stand for the bytes it has left. -/
theorem rleC_run (p : Params) {st : Storage} {n : Nat} (hn : unread st < n) :
    ∃ (st' : Storage) (toks : List Instr), drain rleCUnit p n st = (.ok (), st') ∧ (∀ i ∈ toks, Instr.IsToken .rle i)
      ∧ st'.out = st.out ++ toks.flatMap Instr.tokenBytes ∧ toks.flatMap rleMeaning = st.input.drop st.ip := by
  induction n generalizing st with
  | zero => exact absurd hn (Nat.not_lt_zero _)
  | succ n ih =>
    cases hb : st.input.drop st.ip with
    | nil => exact ⟨st, [], drain_finished _ (rleCTurn_nil p hb), List.forall_mem_nil _, (List.append_nil _).symm, rfl⟩
    | cons b bs =>
      obtain ⟨st1, hturn, hin, hip, hout⟩ := rleCTurn_rleNext p hb
      have hlt := rleCUnit_usesUp.work p st st1 hturn
      obtain ⟨st', toks, hrun, htoks, hout', hmeans⟩ := ih (st := st1) (by omega)
      refine ⟨st', rleNext b bs :: toks, (drain_work n hturn).trans hrun,
        List.forall_mem_cons.mpr ⟨rleNext_isToken b bs, htoks⟩, ?_, ?_⟩
      · rw [hout', hout, List.flatMap_cons, List.append_assoc]
      · rw [List.flatMap_cons, hmeans, rleMeaning_rleNext, hin, hip, ← List.drop_drop, hb,
          List.take_append_drop]

/-! ### The codec functions -/

/-- The answer of a unit whose run ends without an error. -/
theorem codec_eq_of_drain {u : CodecUnit} {p : Params} {inp : Inputs} {st st' : Storage}
    (hinit : u.init p inp .blank = .ok st) (hrun : drain u p (u.fuel st) st = (.ok (), st')) :
    u.codec p inp = .ok (u.output st') := by
  simp only [CodecUnit.codec, hinit, hrun, CodecUnit.answer]

/-- The answer of a unit whose run ends with an error. -/
theorem codec_eq_error_of_drain {u : CodecUnit} {p : Params} {inp : Inputs} {st : Storage} {e : ErrorKind}
    (hinit : u.init p inp .blank = .ok st) (hrun : (drain u p (u.fuel st) st).1 = .error e) :
    u.codec p inp = .error e := by
  simp only [CodecUnit.codec, hinit, CodecUnit.answer, hrun]

/-- RLE.C's codec function writes tokens that stand for its input. -/
theorem rleC_codec (p : Params) (x : List Byte) :
    ∃ toks : List Instr, rleCUnit.codec p (srcOnly x) = .ok ⟨.bytes (toks.flatMap Instr.tokenBytes), 0, 0⟩
      ∧ (∀ i ∈ toks, Instr.IsToken .rle i) ∧ toks.flatMap rleMeaning = x := by
  obtain ⟨st', toks, hrun, htoks, hout, hmeans⟩ := rleC_run p
    (unread_lt_fuel { startStream (srcOnly x) .blank with rle := ⟨0, 0⟩ })
  refine ⟨toks, (codec_eq_of_drain rfl hrun).trans ?_, htoks, hmeans⟩
  exact congrArg (fun l => Except.ok (⟨.bytes l, 0, 0⟩ : Output)) hout

/-- RLE.D's codec function on a stream of tokens returns what they stand for. -/
theorem rleD_codec (p : Params) {toks : List Instr} (htoks : ∀ i ∈ toks, Instr.IsToken .rle i) :
    rleDUnit.codec p (srcOnly (toks.flatMap Instr.tokenBytes)) = .ok ⟨.bytes (toks.flatMap rleMeaning), 0, 0⟩ := by
  obtain ⟨st', hrun, hout⟩ := rleD_run p htoks
    (st := { startStream (srcOnly (toks.flatMap Instr.tokenBytes)) .blank with rle := ⟨0, 0⟩ }) rfl
    (unread_lt_fuel _)
  refine (codec_eq_of_drain rfl hrun).trans ?_
  exact congrArg (fun l => Except.ok (⟨.bytes l, 0, 0⟩ : Output)) hout

/-- Settles O40: RLE.C writes tokens that stand for the input (`rleC_codec`), and RLE.D returns what they stand for
(`rleD_codec`). -/
theorem rleRoundTrip : Obligations.RleRoundTrip := by
  intro p x
  obtain ⟨toks, hcodec, htoks, hmeans⟩ := rleC_codec p x
  exact ⟨_, _, hcodec, rleD_codec p htoks, hmeans⟩

/-- RLE.C writes at most `2n` bytes (41_rle.md R195). -/
theorem rleC_length_le (p : Params) (x : List Byte) :
    ∃ o, rleCUnit.codec p (srcOnly x) = .ok o ∧ o.out.length ≤ 2 * x.length := by
  obtain ⟨toks, hcodec, htoks, rfl⟩ := rleC_codec p x
  refine ⟨_, hcodec, ?_⟩
  simp only [OutSeq.length]
  clear hcodec
  induction toks with
  | nil => exact Nat.le_refl 0
  | cons i toks ih =>
    obtain ⟨hi, htoks'⟩ := List.forall_mem_cons.mp htoks
    have hlen := length_tokenBytes_le hi
    have hrest := ih htoks'
    rw [List.flatMap_cons, List.flatMap_cons, List.length_append, List.length_append]
    omega

end Sys2Proof.Machine
end

section
/-! SUPPORT. The LZ77 round trip (42_lz77.md R213 to R223). A group that LZ77.C writes is a control byte and up to eight
decisions that replay the input bytes they stand for (`decideUpTo_replays`); LZ77.D executes them
(`lz77D_group`), and reads on at the next group. -/

namespace Sys2Proof.Machine

/-! ### Decisions and what they replay -/

/-- A decision that the control byte marks with 1. -/
def isPointer : Instr → Bool
  | .lz77Ptr _ _ => true
  | _ => false

/-- The format of a decision (30_encoding.md R113). -/
def decisionFormat (i : Instr) : Format := if isPointer i then .lz77Ptr else .lz77Lit

/-- Executing the decisions in turn makes the output `out` into `out'` (42_lz77.md R220, R221). -/
def Replays : List Instr → List Byte → List Byte → Prop
  | [], out, out' => out = out'
  | .lz77Lit b :: ds, out, out' => Replays ds (out ++ [b]) out'
  | .lz77Ptr d l :: ds, out, out' =>
    (1 ≤ d.toNat ∧ d.toNat ≤ out.length) ∧ Replays ds (copyBack d.toNat l.toNat out) out'
  | _ :: _, _, _ => False

theorem Replays.append {ds es : List Instr} {a b c : List Byte} (h : Replays ds a b) (h' : Replays es b c) :
    Replays (ds ++ es) a c := by
  induction ds generalizing a with
  | nil => exact h ▸ h'
  | cons i ds ih =>
    cases i
    case lz77Lit => exact ih h
    case lz77Ptr => exact ⟨h.1, ih h.2⟩
    all_goals exact h.elim

/-- Executing one decision that can be replayed. -/
theorem lz77Token_replays (p : Params) {i : Instr} {ds : List Instr} {st : Storage} {out' : List Byte}
    (h : Replays (i :: ds) st.out out') :
    i.IsToken (decisionFormat i) ∧ ∃ st', lz77DUnit.token p i st = .ok st' ∧ st'.input = st.input
      ∧ st'.ip = st.ip + i.tokenBytes.length ∧ st'.lz77.ctrl = st.lz77.ctrl
      ∧ st'.lz77.decision = st.lz77.decision + 1 ∧ Replays ds st'.out out' := by
  cases i
  case lz77Lit b => exact ⟨⟨rfl, _, rfl⟩, _, rfl, rfl, rfl, rfl, rfl, h⟩
  case lz77Ptr d l =>
    obtain ⟨⟨h1, hle⟩, hrest⟩ := h
    exact ⟨⟨rfl, _, rfl⟩, _, lz77PtrEffect_copies l p (by omega), rfl, rfl, rfl, rfl, hrest⟩
  all_goals exact h.elim

/-! ### A group in LZ77.D -/

/-- The control byte's bits from decision `k` on are those of the decisions `ds`. -/
def ControlFits (ctrl : Byte) (k : Nat) (ds : List Instr) : Prop :=
  ∀ j i, ds[j]? = some i → ctrl.getLsbD (k + j) = isPointer i

theorem ControlFits.head {ctrl : Byte} {k : Nat} {i : Instr} {ds : List Instr}
    (h : ControlFits ctrl k (i :: ds)) : ctrl.getLsbD k = isPointer i := h 0 i rfl

theorem ControlFits.tail {ctrl : Byte} {k : Nat} {i : Instr} {ds : List Instr}
    (h : ControlFits ctrl k (i :: ds)) : ControlFits ctrl (k + 1) ds := by
  intro j e he
  rw [Nat.add_assoc, Nat.add_comm 1 j]
  exact h (j + 1) e he

/-- Inside a group the control bit chooses the format. -/
theorem lz77Format_decision {st : Storage} {i : Instr} (hlt : st.lz77.decision < 8)
    (hbit : st.lz77.ctrl.getLsbD st.lz77.decision = isPointer i) : lz77Format st = decisionFormat i := by
  rw [lz77Format, if_neg (Nat.not_le.mpr hlt), hbit]
  rfl

/-- LZ77.D executes the decisions of a group, up to the eighth. -/
theorem lz77D_decisions (p : Params) {ds : List Instr} {st : Storage} {n : Nat} {rest out' : List Byte}
    (hfits : ControlFits st.lz77.ctrl st.lz77.decision ds) (hlen : st.lz77.decision + ds.length ≤ 8)
    (hreplay : Replays ds st.out out') (hbytes : st.input.drop st.ip = ds.flatMap Instr.tokenBytes ++ rest)
    (hn : unread st < n) :
    ∃ st' m, drain lz77DUnit p n st = drain lz77DUnit p m st' ∧ unread st' < m ∧ st'.out = out'
      ∧ st'.input.drop st'.ip = rest ∧ st'.lz77.decision = st.lz77.decision + ds.length := by
  induction ds generalizing st n with
  | nil => exact ⟨st, n, rfl, hn, hreplay, hbytes, rfl⟩
  | cons i ds ih =>
    rw [List.length_cons] at hlen ⊢
    obtain ⟨m, rfl⟩ := Nat.exists_eq_add_one.mpr (Nat.zero_lt_of_lt hn)
    obtain ⟨htok, st1, hst1, hin, hip, hctrl, hdec, hreplay'⟩ := lz77Token_replays p hreplay
    rw [List.flatMap_cons, List.append_assoc] at hbytes
    have hformat := lz77Format_decision (by omega) hfits.head
    have hturn : lz77DUnit.turn p st = .token i := lz77DTurn_token p (by rw [hbytes, hformat]; exact htok.decode _)
    have hlt := lz77DUnit_usesUp.token p st i st1 hturn hst1
    have hrest : st1.input.drop st1.ip = ds.flatMap Instr.tokenBytes ++ rest := by
      rw [hin, hip, ← List.drop_drop, hbytes, List.drop_left]
    obtain ⟨st', m', hrun, hm', hout, hdrop, hdec'⟩ := ih (st := st1) (n := m)
      (by rw [hctrl, hdec]; exact hfits.tail) (by omega) hreplay' hrest (by omega)
    exact ⟨st', m', (drain_token m hturn hst1).trans hrun, hm', hout, hdrop, by omega⟩

/-- Between two groups, LZ77.D makes the bytes `bs` turn the output `out` into `out'`. -/
def DecodesTo (bs out out' : List Byte) : Prop :=
  ∀ p st n, st.out = out → st.input.drop st.ip = bs → 8 ≤ st.lz77.decision → unread st < n →
    ∃ st', drain lz77DUnit p n st = (.ok (), st') ∧ st'.out = out'

/-- Where no byte is left the stream has ended, inside a group too (42_lz77.md R222). -/
theorem lz77D_end (p : Params) (n : Nat) {st : Storage} (h : st.input.drop st.ip = []) :
    drain lz77DUnit p n st = (.ok (), st) :=
  drain_finished n (lz77DTurn_finished p (r := .endOfStream) (by rw [h]; rfl))

theorem decodesTo_nil (out : List Byte) : DecodesTo [] out out :=
  fun p st n hout hbytes _ _ => ⟨st, lz77D_end p n hbytes, hout⟩

/-- LZ77.D opens a group with its control byte (42_lz77.md R219). -/
theorem lz77D_control (p : Params) {st : Storage} {n : Nat} {ctrl : Byte} {bs : List Byte}
    (hbytes : st.input.drop st.ip = ctrl :: bs) (hdec : 8 ≤ st.lz77.decision) (hn : unread st < n) :
    ∃ st' m, drain lz77DUnit p n st = drain lz77DUnit p m st' ∧ unread st' < m ∧ st'.out = st.out
      ∧ st'.input.drop st'.ip = bs ∧ st'.lz77.ctrl = ctrl ∧ st'.lz77.decision = 0 := by
  obtain ⟨m, rfl⟩ := Nat.exists_eq_add_one.mpr (Nat.zero_lt_of_lt hn)
  have hformat : lz77Format st = .lz77Ctrl := if_pos hdec
  have hturn : lz77DUnit.turn p st = .token (.lz77Ctrl ctrl) :=
    lz77DTurn_token p (more := bs) (by rw [hbytes, hformat]; rfl)
  have htoken : lz77DUnit.token p (.lz77Ctrl ctrl) st
      = .ok { st with ip := st.ip + 1, lz77 := { ctrlPos := st.ip, ctrl := ctrl, decision := 0 } } := rfl
  have hlt := lz77DUnit_usesUp.token p st _ _ hturn htoken
  refine ⟨_, m, drain_token m hturn htoken, by omega, rfl, ?_, rfl, rfl⟩
  have hdrop : st.input.drop (st.ip + 1) = bs := by rw [← List.drop_drop, hbytes, List.drop_one, List.tail_cons]
  exact hdrop

/-- LZ77.D on a group: it ends the stream, or it has eight decisions and the next group follows. -/
theorem lz77D_group {ctrl : Byte} {ds : List Instr} {rest out out1 out' : List Byte} (hfits : ControlFits ctrl 0 ds)
    (hlen : ds.length ≤ 8) (hreplay : Replays ds out out1)
    (hnext : (rest = [] ∧ out1 = out') ∨ (ds.length = 8 ∧ DecodesTo rest out1 out')) :
    DecodesTo (ctrl :: (ds.flatMap Instr.tokenBytes ++ rest)) out out' := by
  rintro p st n rfl hbytes hdec hn
  obtain ⟨st1, m, hrun1, hm, hout1, hdrop1, hctrl1, hdec1⟩ := lz77D_control p hbytes hdec hn
  obtain ⟨st2, k, hrun2, hk, hout2, hdrop2, hdec2⟩ := lz77D_decisions p (st := st1)
    (by rwa [hctrl1, hdec1]) (by omega) (by rwa [hout1]) hdrop1 hm
  rw [hrun1, hrun2]
  rcases hnext with ⟨rfl, rfl⟩ | ⟨h8, hnext⟩
  · exact ⟨st2, lz77D_end p k hdrop2, hout2⟩
  · exact hnext p st2 k hout2 hdrop2 (by omega) hk

/-! ### A group in LZ77.C -/

/-- Copying a stretch that repeats what stands `d` before it continues the input. -/
theorem copyBack_take {data : List Byte} {pos d n : Nat} (hd : 1 ≤ d) (hle : d ≤ pos) (hend : pos + n ≤ data.length)
    (hsame : ∀ k, k < n → data[pos - d + k]? = data[pos + k]?) :
    copyBack d n (data.take pos) = data.take (pos + n) := by
  induction n generalizing pos with
  | zero => rfl
  | succ n ih =>
    have hlen : (data.take pos).length = pos := List.length_take_of_le (by omega)
    have hpos : pos < data.length := by omega
    have hbyte : (data.take pos).getD ((data.take pos).length - d) 0 = data[pos] := by
      have h0 := hsame 0 (Nat.succ_pos n)
      rw [Nat.add_zero, Nat.add_zero, List.getElem?_eq_getElem hpos] at h0
      rw [hlen, List.getD_eq_getElem?_getD, List.getElem?_take_of_lt (by omega), h0]
      rfl
    rw [copyBack, hbyte, List.take_append_getElem hpos, ih (by omega) (by omega) fun k hk => ?_]
    · rw [Nat.add_assoc, Nat.add_comm 1 n]
    · have hk' := hsame (k + 1) (by omega)
      rwa [show pos + 1 - d + k = pos - d + (k + 1) by omega, Nat.add_assoc, Nat.add_comm 1 k]

/-- The pointer word of LZ77.C is the encoding of a pointer (42_lz77.md R214, 30_encoding.md R116). -/
theorem pointerBytes_eq {best dist : Nat} (hb : best ≤ 15) (hd : dist ≤ 4095) :
    pointerBytes best dist = (Instr.lz77Ptr (BitVec.ofNat 12 dist) (BitVec.ofNat 4 best)).tokenBytes := by
  have hdist : (BitVec.ofNat 12 dist).setWidth 16 = BitVec.ofNat 16 dist := by
    apply BitVec.eq_of_toNat_eq
    rw [BitVec.toNat_setWidth, BitVec.toNat_ofNat, BitVec.toNat_ofNat]
    omega
  have hbest : (BitVec.ofNat 4 best).setWidth 16 = BitVec.ofNat 16 best := by
    apply BitVec.eq_of_toNat_eq
    rw [BitVec.toNat_setWidth, BitVec.toNat_ofNat, BitVec.toNat_ofNat]
    omega
  rw [Instr.tokenBytes_eq rfl, pointerWord, hdist, hbest]
  rfl

/-- Setting bit `k` of a control byte. -/
theorem getLsbD_or_bit (ctrl : Byte) {k : Nat} (hk : k < 8) (j : Nat) :
    (ctrl ||| 1#8 <<< k).getLsbD j = (ctrl.getLsbD j || decide (j = k)) := by
  rw [BitVec.getLsbD_or, BitVec.getLsbD_shiftLeft, BitVec.getLsbD_one]
  congr 1
  rw [Bool.eq_iff_iff]
  simp only [Bool.and_eq_true, Bool.not_eq_true', decide_eq_true_eq, decide_eq_false_iff_not]
  omega

/-- What LZ77.C has made of a group `g` after some more decisions `ds`: the bytes of the tokens, the control bits,
and the input bytes that the decisions replay. -/
structure Decided (data : List Byte) (g : Group) (ds : List Instr) (g' : Group) : Prop where
  replays : Replays ds (data.take g.pos) (data.take g'.pos)
  decisions : g'.decisions = g.decisions + ds.length
  tokens : g'.tokens = g.tokens ++ ds.flatMap Instr.tokenBytes
  inside : g'.pos ≤ data.length
  taken : g.pos + ds.length ≤ g'.pos
  written : g.pos + (ds.flatMap Instr.tokenBytes).length ≤ g'.pos
  ctrl : ∀ j, g'.ctrl.getLsbD j
    = (g.ctrl.getLsbD j || (decide (g.decisions ≤ j) && ds[j - g.decisions]?.any isPointer))

theorem decided_nil {data : List Byte} {g : Group} (h : g.pos ≤ data.length) : Decided data g [] g where
  replays := rfl
  decisions := rfl
  tokens := (List.append_nil _).symm
  inside := h
  taken := Nat.le_refl _
  written := Nat.le_refl _
  ctrl j := by simp

theorem Decided.cons {data : List Byte} {g g' g'' : Group} {i : Instr} {ds : List Instr}
    (h : Decided data g [i] g') (h' : Decided data g' ds g'') : Decided data g (i :: ds) g'' where
  replays := h.replays.append h'.replays
  decisions := by
    have h1 : g'.decisions = g.decisions + 1 := h.decisions
    rw [h'.decisions, h1, List.length_cons]
    omega
  tokens := by simp [h'.tokens, h.tokens]
  inside := h'.inside
  taken := by
    have h1 := h.taken
    have h2 := h'.taken
    rw [List.length_singleton] at h1
    rw [List.length_cons]
    omega
  written := by
    have h1 := h.written
    have h2 := h'.written
    rw [List.flatMap_cons, List.flatMap_nil, List.append_nil] at h1
    rw [List.flatMap_cons, List.length_append]
    omega
  ctrl j := by
    have hdec : g'.decisions = g.decisions + 1 := h.decisions
    rw [h'.ctrl, h.ctrl, hdec, Bool.or_assoc]
    congr 1
    rcases Nat.lt_trichotomy j g.decisions with hlt | rfl | hgt
    · have h1 : ¬ g.decisions ≤ j := by omega
      have h2 : ¬ g.decisions + 1 ≤ j := by omega
      simp [h1, h2]
    · simp
    · obtain ⟨k, rfl⟩ := Nat.exists_eq_add_of_lt hgt
      have h1 : g.decisions + k + 1 - g.decisions = k + 1 := by omega
      have h2 : g.decisions + k + 1 - (g.decisions + 1) = k := by omega
      have h3 : g.decisions ≤ g.decisions + k + 1 := by omega
      simp [h1, h2, h3]

/-- A match of length 3 or more is replayed by its pointer. -/
theorem decided_pointer {data : List Byte} {g : Group} (hpos : g.pos < data.length) (hdec : g.decisions < 8)
    (hmatch : (bestMatch data g.pos).1 ≥ Config.minMatch) :
    Decided data g [.lz77Ptr (BitVec.ofNat 12 (bestMatch data g.pos).2) (BitVec.ofNat 4 (bestMatch data g.pos).1)]
      (decide1 data g) := by
  rw [decide1_pointer hmatch]
  rcases hm : bestMatch data g.pos with ⟨best, dist⟩
  rw [hm] at hmatch
  dsimp only
  have h3 : 3 ≤ best := hmatch
  obtain ⟨-, -, hbest⟩ := bestMatchIsLongestAndEarliest data g.pos best dist hm
  obtain ⟨hd1, hdwin, hdpos, hlen, -⟩ := hbest (by omega)
  obtain ⟨hcap, hend, hsame, -⟩ := matchLengthIsMaximal data (g.pos - dist) g.pos (by omega) hpos
  rw [hlen] at hcap hend hsame
  have hdist : (BitVec.ofNat 12 dist).toNat = dist := by rw [BitVec.toNat_ofNat]; omega
  have hbestNat : (BitVec.ofNat 4 best).toNat = best := by rw [BitVec.toNat_ofNat]; omega
  constructor
  case replays =>
    refine ⟨⟨by omega, by rw [hdist, List.length_take]; omega⟩, ?_⟩
    rw [hdist, hbestNat]
    exact copyBack_take hd1 hdpos hend hsame
  case decisions => rfl
  case tokens => simp [pointerBytes_eq hcap hdwin]
  case inside => exact hend
  case taken =>
    simp only [List.length_singleton]
    omega
  case written =>
    have hbytes : ([Instr.lz77Ptr (BitVec.ofNat 12 dist) (BitVec.ofNat 4 best)].flatMap Instr.tokenBytes).length
      = 2 := rfl
    rw [hbytes]
    simp only
    omega
  case ctrl =>
    intro j
    refine (getLsbD_or_bit g.ctrl hdec j).trans (congrArg (g.ctrl.getLsbD j || ·) ?_)
    rcases Nat.lt_trichotomy j g.decisions with hlt | rfl | hgt
    · have h1 : ¬ g.decisions ≤ j := by omega
      simp [h1, Nat.ne_of_lt hlt]
    · simp [isPointer]
    · have h1 : j - g.decisions ≠ 0 := by omega
      simp [Nat.ne_of_gt hgt, h1]

/-- Without a match of length 3 the byte itself is written. -/
theorem decided_literal {data : List Byte} {g : Group} (hpos : g.pos < data.length)
    (hmatch : ¬ (bestMatch data g.pos).1 ≥ Config.minMatch) :
    Decided data g [.lz77Lit (data.getD g.pos 0)] (decide1 data g) := by
  rw [decide1_literal hmatch]
  constructor
  case replays =>
    have hbyte : data.getD g.pos 0 = data[g.pos] := List.getD_eq_getElem _ _ hpos
    exact (congrArg (data.take g.pos ++ [·]) hbyte).trans (List.take_append_getElem hpos)
  case decisions => rfl
  case tokens => rfl
  case inside => exact hpos
  case taken => exact Nat.le_refl _
  case written => exact Nat.le_refl _
  case ctrl =>
    intro j
    cases j - g.decisions <;> simp [isPointer]

/-- Up to `n` decisions: they go on to the end of the input, or there are `n` of them. -/
theorem decideUpTo_decided {data : List Byte} {n : Nat} {g : Group} (hpos : g.pos ≤ data.length)
    (hdec : g.decisions + n ≤ 8) :
    ∃ ds, Decided data g ds (decideUpTo data n g) ∧ ds.length ≤ n
      ∧ ((decideUpTo data n g).pos = data.length ∨ ds.length = n) := by
  induction n generalizing g with
  | zero => exact ⟨[], decided_nil hpos, Nat.le_refl 0, .inr rfl⟩
  | succ n ih =>
    rw [decideUpTo]
    split
    · next hend => exact ⟨[], decided_nil hpos, Nat.zero_le _, .inl (Nat.le_antisymm hpos hend)⟩
    · next hmore =>
      have hlt := Nat.not_le.mp hmore
      obtain ⟨i, hi⟩ : ∃ i, Decided data g [i] (decide1 data g) := by
        by_cases hmatch : (bestMatch data g.pos).1 ≥ Config.minMatch
        · exact ⟨_, decided_pointer hlt (by omega) hmatch⟩
        · exact ⟨_, decided_literal hlt hmatch⟩
      have hdec1 : (decide1 data g).decisions = g.decisions + 1 := hi.decisions
      obtain ⟨ds, hds, hlen, hstop⟩ := ih hi.inside (by omega)
      refine ⟨i :: ds, hi.cons hds, Nat.succ_le_succ hlen, hstop.imp_right (congrArg (· + 1))⟩

/-! ### The whole stream -/

/-- A turn of LZ77.C on bytes that are left writes one group (42_lz77.md R216). -/
theorem lz77CTurn_group (p : Params) {st : Storage} (h : st.ip < st.input.length) :
    ∃ st' g, g = decideUpTo st.input 8 ⟨st.ip, 0, 0, []⟩ ∧ lz77CUnit.turn p st = .work st' ∧ st'.input = st.input
      ∧ st'.ip = g.pos ∧ st'.out = st.out ++ g.ctrl :: g.tokens := by
  refine ⟨_, _, rfl, if_neg (Nat.not_le.mpr h), rfl, rfl, ?_⟩
  simp

theorem lz77CTurn_end (p : Params) {st : Storage} (h : st.input.length ≤ st.ip) :
    lz77CUnit.turn p st = .finished := if_pos h

/-- LZ77.C writes a stream that decodes to the input, and that is longer than the bytes left by at most a byte for
every eight of them (42_lz77.md R217). -/
theorem lz77C_run (p : Params) {st : Storage} {n : Nat} (hip : st.ip ≤ st.input.length) (hn : unread st < n) :
    ∃ st' bs, drain lz77CUnit p n st = (.ok (), st') ∧ st'.out = st.out ++ bs
      ∧ DecodesTo bs (st.input.take st.ip) st.input ∧ bs.length ≤ unread st + (unread st + 7) / 8 := by
  induction n generalizing st with
  | zero => exact absurd hn (Nat.not_lt_zero _)
  | succ n ih =>
    rcases Nat.lt_or_ge st.ip st.input.length with hlt | hge
    · obtain ⟨st1, g, hg, hturn, hin, hip1, hout⟩ := lz77CTurn_group p hlt
      obtain ⟨ds, hds, hlen, hstop⟩ := decideUpTo_decided (n := 8) (g := ⟨st.ip, 0, 0, []⟩) hip (Nat.le_refl 8)
      rw [← hg] at hds hstop
      have hinside := hds.inside
      have htaken : st.ip + ds.length ≤ g.pos := hds.taken
      have hwritten : st.ip + (ds.flatMap Instr.tokenBytes).length ≤ g.pos := hds.written
      have htokens : g.tokens = ds.flatMap Instr.tokenBytes := hds.tokens
      have hfits : ControlFits g.ctrl 0 ds := fun j i hi => by simp [hds.ctrl, hi]
      have hless := lz77CUnit_usesUp.work p st st1 hturn
      have hleft : unread st1 = st.input.length - g.pos := by rw [unread, hin, hip1]
      obtain ⟨st', bs, hrun, hout', hdecodes, hbound⟩ := ih (st := st1) (by rw [hin, hip1]; exact hinside) (by omega)
      rw [hin, hip1] at hdecodes
      refine ⟨st', g.ctrl :: (ds.flatMap Instr.tokenBytes ++ bs), (drain_work n hturn).trans hrun, ?_, ?_, ?_⟩
      · rw [hout', hout, htokens, List.append_assoc]
        rfl
      · refine lz77D_group hfits hlen hds.replays ?_
        rcases hstop with hend | h8
        · have hnil : bs = [] := List.eq_nil_of_length_eq_zero (by omega)
          exact .inl ⟨hnil, List.take_of_length_le hend.ge⟩
        · exact .inr ⟨h8, hdecodes⟩
      · rw [List.length_cons, List.length_append]
        unfold unread at hbound hleft ⊢
        omega
    · refine ⟨st, [], drain_finished _ (lz77CTurn_end p hge), (List.append_nil _).symm, ?_, Nat.zero_le _⟩
      rw [List.take_of_length_le hge]
      exact decodesTo_nil st.input

/-- LZ77.C's codec function, with what its output decodes to and how long it is. -/
theorem lz77C_codec (p : Params) (x : List Byte) :
    ∃ bs, lz77CUnit.codec p (srcOnly x) = .ok ⟨.bytes bs, 0, 0⟩ ∧ DecodesTo bs [] x
      ∧ bs.length ≤ x.length + (x.length + 7) / 8 := by
  obtain ⟨st', bs, hrun, hout, hdecodes, hbound⟩ := lz77C_run p
    (st := { startStream (srcOnly x) .blank with lz77 := ⟨0, 0, 8⟩ }) (Nat.zero_le _) (unread_lt_fuel _)
  refine ⟨bs, (codec_eq_of_drain rfl hrun).trans ?_, hdecodes, hbound⟩
  exact congrArg (fun l => Except.ok (⟨.bytes l, 0, 0⟩ : Output)) hout

/-- LZ77.D's codec function on a stream that decodes. -/
theorem lz77D_codec (p : Params) {bs x : List Byte} (h : DecodesTo bs [] x) :
    lz77DUnit.codec p (srcOnly bs) = .ok ⟨.bytes x, 0, 0⟩ := by
  obtain ⟨st', hrun, hout⟩ := h p { startStream (srcOnly bs) .blank with lz77 := ⟨0, 0, 8⟩ } (bs.length + 1)
    rfl rfl (Nat.le_refl 8) (unread_lt_fuel _)
  refine (codec_eq_of_drain rfl hrun).trans ?_
  exact congrArg (fun l => Except.ok (⟨.bytes l, 0, 0⟩ : Output)) hout

/-- Settles O46: LZ77.C writes a stream that decodes to its input (`lz77C_codec`, `lz77D_codec`). -/
theorem lz77RoundTrip : Obligations.Lz77RoundTrip := by
  intro p x
  obtain ⟨bs, hcodec, hdecodes, -⟩ := lz77C_codec p x
  exact ⟨_, _, hcodec, lz77D_codec p hdecodes, rfl⟩

/-- Settles O45: the bounds that the two encoders' runs keep (`rleC_length_le`, `lz77C_codec`). -/
theorem encodedLengthIsBounded : Obligations.EncodedLengthIsBounded := by
  intro p x
  obtain ⟨bs, hcodec, -, hbound⟩ := lz77C_codec p x
  exact ⟨rleC_length_le p x, _, hcodec, hbound⟩

end Sys2Proof.Machine
end

section
/-! SUPPORT. The LZW round trip and the LZW errors (43_lzw.md R240 to R256). What LZW.C has emitted at any time is said
once (`Emitted`); LZW.D rebuilds the same dictionary, one entry behind (`lzwD_run`). -/

namespace Sys2Proof.Machine

/-! ### A dictionary that grows -/

theorem namesEarlierIds_append {entries : List (Nat × Byte)} {pid : Nat} (c : Byte) (h : NamesEarlierIds entries)
    (hpid : pid < 256 + entries.length) : NamesEarlierIds (entries ++ [(pid, c)]) := by
  intro k q d hk
  rcases Nat.lt_or_ge k entries.length with hlt | hge
  · rw [List.getElem?_append_left hlt] at hk
    exact h k q d hk
  · rw [List.getElem?_append_right hge, List.getElem?_singleton] at hk
    split at hk <;> cases hk
    omega

theorem namesEarlierIds_take {entries : List (Nat × Byte)} (n : Nat) (h : NamesEarlierIds entries) :
    NamesEarlierIds (entries.take n) := by
  intro k q d hk
  rw [List.getElem?_take] at hk
  split at hk
  · exact h k q d hk
  · cases hk

/-- A chain does not see the entries that come later. -/
theorem lzwChain_append {entries more : List (Nat × Byte)} (h : NamesEarlierIds entries) {n id : Nat}
    (hid : id < 256 + entries.length) : lzwChain (entries ++ more) n id = lzwChain entries n id := by
  induction n generalizing id with
  | zero => rfl
  | succ n ih =>
    rcases seed_or_entry_or_beyond entries id with hseed | ⟨k, pid, c, hk, rfl⟩ | hbeyond
    · rw [lzwChain_seed _ n hseed, lzwChain_seed _ n hseed]
    · have hpid := h k pid c hk
      obtain ⟨hlt, -⟩ := List.getElem?_eq_some_iff.mp hk
      have hk' : (entries ++ more)[k]? = some (pid, c) := by rw [List.getElem?_append_left hlt, hk]
      rw [lzwChain_entry n hk', lzwChain_entry n hk, ih (by omega)]
    · omega

/-- An entry's string stays when the dictionary grows. -/
theorem lzwString_append {entries more : List (Nat × Byte)} (h : NamesEarlierIds (entries ++ more)) {id : Nat}
    (hid : id < 256 + entries.length) : lzwString (entries ++ more) id = lzwString entries id := by
  have he : NamesEarlierIds entries := by
    have htake := namesEarlierIds_take entries.length h
    rwa [List.take_left] at htake
  have hlen : entries.length ≤ (entries ++ more).length := by simp
  have hbound := lzwChain_bound_irrelevant h (n := entries.length) (m := (entries ++ more).length) (id := id) hid hlen
    (by omega)
  rw [lzwString, ← hbound, lzwChain_append he hid, lzwString]

/-- `Lookup` answers the id of an entry that holds the pair (R242). -/
theorem findEntry_some {e : Nat × Byte} {k q : Nat} {entries : List (Nat × Byte)}
    (h : findEntry e k entries = some q) : ∃ j, entries[j]? = some e ∧ q = k + j := by
  induction entries generalizing k with
  | nil => cases h
  | cons x xs ih =>
    rw [findEntry] at h
    split at h
    · next heq =>
      cases h
      exact ⟨0, congrArg some heq, rfl⟩
    · obtain ⟨j, hj, rfl⟩ := ih h
      exact ⟨j + 1, hj, by omega⟩

theorem lzwLookup_some {entries : List (Nat × Byte)} {pid q : Nat} {c : Byte}
    (h : lzwLookup entries pid c = some q) : ∃ j, entries[j]? = some (pid, c) ∧ q = 256 + j :=
  findEntry_some h

theorem lzwInsert_ok {p : Params} {entries entries' : List (Nat × Byte)} {pid : Nat} {c : Byte}
    (h : lzwInsert p entries pid c = .ok entries') :
    256 + entries.length ≠ p.lzwDictCapacity ∧ entries' = entries ++ [(pid, c)] := by
  unfold lzwInsert at h
  split at h <;> cases h
  next hroom => exact ⟨hroom, rfl⟩

theorem lzwInsert_error {p : Params} {entries : List (Nat × Byte)} {pid : Nat} {c : Byte} {e : ErrorKind}
    (h : lzwInsert p entries pid c = .error e) :
    e = .dictionaryOverflow ∧ 256 + entries.length = p.lzwDictCapacity := by
  unfold lzwInsert at h
  split at h <;> cases h
  next hfull => exact ⟨rfl, hfull⟩

/-! ### What LZW.C has emitted -/

/-- LZW.C's dictionary `entries` and ids `ids`, the current string's among them, after the bytes `x`: every id was
known when it was emitted, entry `k` is id `k` with the first byte of the string of id `k + 1`, the strings make up
`x`, and the store has never been full. -/
structure Emitted (p : Params) (entries : List (Nat × Byte)) (ids : List Nat) (x : List Byte) : Prop where
  count : ids.length = entries.length + 1
  known : ∀ k id, ids[k]? = some id → id < 256 + k
  entry : ∀ k pid c, entries[k]? = some (pid, c) →
    ids[k]? = some pid ∧ ∃ id, ids[k + 1]? = some id ∧ (lzwString entries id).head? = some c
  strings : ids.flatMap (lzwString entries) = x
  room : ∀ k, k < entries.length → 256 + k ≠ p.lzwDictCapacity

variable {p : Params} {entries : List (Nat × Byte)} {ids : List Nat} {x : List Byte}

theorem Emitted.namesEarlierIds (h : Emitted p entries ids x) : NamesEarlierIds entries :=
  fun k pid c hk => h.known k pid (h.entry k pid c hk).1

theorem emitted_first (p : Params) (c : Byte) : Emitted p [] [c.toNat] [c] where
  count := rfl
  known k id hk := by
    rw [List.getElem?_singleton] at hk
    split at hk <;> cases hk
    have hc := c.isLt
    omega
  entry k pid d hk := by cases hk
  strings := by simp [lzwString_seed [] c.isLt]
  room k hk := absurd hk (Nat.not_lt_zero k)

/-- The current string grows by a byte that the dictionary knows after it (R247). -/
theorem Emitted.extend {done : List Nat} {pid j : Nat} {c : Byte} (h : Emitted p entries (done ++ [pid]) x)
    (hj : entries[j]? = some (pid, c)) : Emitted p entries (done ++ [256 + j]) (x ++ [c]) := by
  have he := h.namesEarlierIds
  obtain ⟨hjlt, -⟩ := List.getElem?_eq_some_iff.mp hj
  have hcount : done.length = entries.length := by simpa using h.count
  have hstring := lzwString_entry he hj
  have hne : lzwString entries pid ≠ [] := lzwString_ne_nil (by have := he j pid c hj; omega)
  refine ⟨by simp [hcount], fun k id hk => ?known, fun k q d hk => ?entry, ?strings, h.room⟩
  case known =>
    rcases Nat.lt_or_ge k done.length with hlt | hge
    · rw [List.getElem?_append_left hlt] at hk
      exact h.known k id (by rw [List.getElem?_append_left hlt, hk])
    · rw [List.getElem?_append_right hge, List.getElem?_singleton] at hk
      split at hk <;> cases hk
      omega
  case entry =>
    obtain ⟨hklt, -⟩ := List.getElem?_eq_some_iff.mp hk
    obtain ⟨hq, id, hid, hhead⟩ := h.entry k q d hk
    rw [List.getElem?_append_left (by omega)] at hq ⊢
    refine ⟨hq, ?_⟩
    rcases Nat.lt_or_ge (k + 1) done.length with hlt | hge
    · rw [List.getElem?_append_left hlt] at hid ⊢
      exact ⟨id, hid, hhead⟩
    · rw [List.getElem?_append_right hge, List.getElem?_singleton, if_pos (by omega)] at hid ⊢
      cases hid
      exact ⟨_, rfl, by rw [hstring, List.head?_append_of_ne_nil _ hne, hhead]⟩
  case strings =>
    rw [← h.strings]
    simp [hstring]

/-- The current string is emitted, the pair is inserted, and a new string starts (R247). -/
theorem Emitted.insert {done : List Nat} {pid : Nat} (c : Byte) (h : Emitted p entries (done ++ [pid]) x)
    (hroom : 256 + entries.length ≠ p.lzwDictCapacity) :
    Emitted p (entries ++ [(pid, c)]) (done ++ [pid] ++ [c.toNat]) (x ++ [c]) := by
  have hcount : done.length = entries.length := by simpa using h.count
  have hpid : pid < 256 + entries.length := by
    have hk := h.known entries.length pid (by rw [← hcount, List.getElem?_concat_length])
    exact hk
  have he' := namesEarlierIds_append c h.namesEarlierIds hpid
  have hold : ∀ id ∈ done ++ [pid], lzwString (entries ++ [(pid, c)]) id = lzwString entries id := by
    intro id hid
    obtain ⟨k, hk⟩ := List.mem_iff_getElem?.mp hid
    obtain ⟨hklt, -⟩ := List.getElem?_eq_some_iff.mp hk
    have hkn := h.known k id hk
    rw [List.length_append, List.length_singleton] at hklt
    exact lzwString_append he' (by omega)
  have hnew : lzwString (entries ++ [(pid, c)]) c.toNat = [c] := by
    rw [lzwString_seed _ c.isLt, BitVec.ofNat_toNat, BitVec.setWidth_eq]
  refine ⟨by simp [hcount], fun k id hk => ?known, fun k q d hk => ?entry, ?strings, fun k hk => ?room⟩
  case known =>
    rcases Nat.lt_or_ge k (done ++ [pid]).length with hlt | hge
    · rw [List.getElem?_append_left hlt] at hk
      exact h.known k id hk
    · rw [List.getElem?_append_right hge, List.getElem?_singleton] at hk
      split at hk <;> cases hk
      have hc := c.isLt
      omega
  case entry =>
    rcases Nat.lt_or_ge k entries.length with hlt | hge
    · rw [List.getElem?_append_left hlt] at hk
      obtain ⟨hq, id, hid, hhead⟩ := h.entry k q d hk
      have hmem := List.mem_of_getElem? hid
      have hlen : (done ++ [pid]).length = entries.length + 1 := h.count
      refine ⟨by rw [List.getElem?_append_left (by omega), hq], id, ?_, by rw [hold id hmem, hhead]⟩
      rw [List.getElem?_append_left (by omega), hid]
    · rw [List.getElem?_append_right hge, List.getElem?_singleton] at hk
      split at hk <;> cases hk
      next hzero =>
        have hk : k = done.length := by omega
        subst hk
        refine ⟨by simp, c.toNat, by simp, by rw [hnew]; rfl⟩
  case strings =>
    rw [List.flatMap_append, List.flatMap_congr hold, h.strings]
    simp [hnew]
  case room =>
    rw [List.length_append, List.length_singleton] at hk
    rcases Nat.lt_succ_iff_lt_or_eq.mp hk with hlt | rfl
    · exact h.room k hlt
    · exact hroom

/-- Every emitted id has a string, of at least one byte. -/
theorem Emitted.length_le (h : Emitted p entries ids x) : ids.length ≤ x.length := by
  have hne : ∀ id ∈ ids, 1 ≤ (lzwString entries id).length := by
    intro id hid
    obtain ⟨k, hk⟩ := List.mem_iff_getElem?.mp hid
    obtain ⟨hklt, -⟩ := List.getElem?_eq_some_iff.mp hk
    have hkn := h.known k id hk
    have hcount := h.count
    exact List.length_pos_of_ne_nil (lzwString_ne_nil (by omega))
  have hsum := List.card_nsmul_le_sum (ids.map fun id => (lzwString entries id).length) 1
    (by simpa using hne)
  rw [← h.strings, List.length_flatMap]
  simpa using hsum

/-! ### LZW.C -/

/-- LZW.C's store after the bytes `x`. -/
def Encoding (p : Params) (z : LzwStore) (x : List Byte) : Prop :=
  (z.p = none ∧ z.entries = [] ∧ z.ids = [] ∧ x = [])
    ∨ ∃ pid, z.p = some pid ∧ Emitted p z.entries (z.ids ++ [pid]) x

section

variable {z : LzwStore} {pid : Nat} {c : Byte}

theorem lzwStep_first (c : Byte) (hp : z.p = none) : lzwStep p c z = .ok { z with p := some c.toNat } := by
  simp only [lzwStep, hp]

theorem lzwStep_known {q : Nat} (hp : z.p = some pid) (hlook : lzwLookup z.entries pid c = some q) :
    lzwStep p c z = .ok { z with p := some q } := by
  simp only [lzwStep, hp, hlook]

theorem lzwStep_insert (hp : z.p = some pid) (hlook : lzwLookup z.entries pid c = none)
    (hroom : 256 + z.entries.length ≠ p.lzwDictCapacity) :
    lzwStep p c z = .ok { z with
      entries := z.entries ++ [(pid, c)], ids := z.ids ++ [pid], p := some c.toNat } := by
  simp only [lzwStep, hp, hlook, lzwInsert_room pid c hroom]

theorem lzwStep_full (hp : z.p = some pid) (hlook : lzwLookup z.entries pid c = none)
    (hfull : 256 + z.entries.length = p.lzwDictCapacity) : lzwStep p c z = .error .dictionaryOverflow := by
  simp only [lzwStep, hp, hlook, lzwInsert_full pid c hfull]

end

/-- `Step` takes a byte, or the store is full, with fewer entries than bytes before (R244, R247). -/
theorem lzwStep_encoding {z : LzwStore} (c : Byte) (h : Encoding p z x) :
    (∃ z', lzwStep p c z = .ok z' ∧ Encoding p z' (x ++ [c]))
      ∨ (lzwStep p c z = .error .dictionaryOverflow ∧ p.lzwDictCapacity < 256 + x.length) := by
  rcases h with ⟨hp, hentries, hids, rfl⟩ | ⟨pid, hp, hemitted⟩
  · refine .inl ⟨_, lzwStep_first c hp, .inr ⟨c.toNat, rfl, ?_⟩⟩
    simp only [hentries, hids]
    exact emitted_first p c
  · cases hlook : lzwLookup z.entries pid c with
    | some q =>
      obtain ⟨j, hj, rfl⟩ := lzwLookup_some hlook
      exact .inl ⟨_, lzwStep_known hp hlook, .inr ⟨_, rfl, hemitted.extend hj⟩⟩
    | none =>
      by_cases hfull : 256 + z.entries.length = p.lzwDictCapacity
      · have hle := hemitted.length_le
        have hcount := hemitted.count
        exact .inr ⟨lzwStep_full hp hlook hfull, by omega⟩
      · exact .inl ⟨_, lzwStep_insert hp hlook hfull, .inr ⟨_, rfl, hemitted.insert c hfull⟩⟩

/-- LZW.C takes all its input, or fails with a full store. -/
theorem lzwC_run {st : Storage} {n : Nat} (hip : st.ip ≤ st.input.length)
    (h : Encoding p st.lzw (st.input.take st.ip)) (hn : unread st < n) :
    (∃ st', drain lzwCUnit p n st = (.ok (), st') ∧ Encoding p st'.lzw st.input)
      ∨ ((drain lzwCUnit p n st).1 = .error .dictionaryOverflow ∧ p.lzwDictCapacity < 256 + st.input.length) := by
  induction n generalizing st with
  | zero => exact absurd hn (Nat.not_lt_zero _)
  | succ n ih =>
    rcases Nat.lt_or_ge st.ip st.input.length with hlt | hge
    · have hbyte := List.getElem?_eq_getElem hlt
      have htake := List.take_append_getElem hlt
      rcases lzwStep_encoding st.input[st.ip] h with ⟨z, hstep, hz⟩ | ⟨hstep, hcap⟩
      · have hturn : lzwCUnit.turn p st = .work { st with ip := st.ip + 1, lzw := z } := by
          simp only [lzwCUnit, lzwCTurn, hbyte, hstep]
        have hless := lzwCUnit_usesUp.work p st _ hturn
        rw [htake] at hz
        rw [drain_work n hturn]
        exact ih hlt hz (by omega)
      · have hturn : lzwCUnit.turn p st = .failed .dictionaryOverflow := by
          simp only [lzwCUnit, lzwCTurn, hbyte, hstep]
        rw [List.length_take] at hcap
        exact .inr ⟨by rw [drain_failed n hturn], by omega⟩
    · have hturn : lzwCUnit.turn p st = .finished := by
        simp only [lzwCUnit, lzwCTurn, List.getElem?_eq_none hge]
      rw [List.take_of_length_le hge] at h
      exact .inl ⟨st, drain_finished _ hturn, h⟩

/-- LZW.C's codec function: what it has emitted, or DictionaryOverflow. -/
theorem lzwC_codec (p : Params) (x : List Byte) :
    (∃ entries ids, lzwCUnit.codec p (srcOnly x)
        = .ok ⟨.bytes (ids.flatMap codeBytes), entries.length, ids.length⟩
        ∧ ((x = [] ∧ entries = [] ∧ ids = []) ∨ Emitted p entries ids x))
      ∨ (lzwCUnit.codec p (srcOnly x) = .error .dictionaryOverflow ∧ p.lzwDictCapacity < 256 + x.length) := by
  have hstart : Encoding p lzwFresh [] := .inl ⟨rfl, rfl, rfl, rfl⟩
  rcases lzwC_run (st := { startStream (srcOnly x) .blank with lzw := lzwFresh }) (Nat.zero_le _) hstart
    (unread_lt_fuel _) with ⟨st', hrun, hz⟩ | ⟨hrun, hcap⟩
  · refine .inl ⟨st'.lzw.entries, lzwIds st'.lzw, codec_eq_of_drain rfl hrun, ?_⟩
    rcases hz with ⟨hp, hentries, hids, hx⟩ | ⟨pid, hp, hemitted⟩
    · exact .inl ⟨hx, hentries, by simp only [lzwIds, hp, hids]⟩
    · have hids : lzwIds st'.lzw = st'.lzw.ids ++ [pid] := by simp only [lzwIds, hp]
      exact .inr (hids ▸ hemitted)
  · exact .inr ⟨codec_eq_error_of_drain rfl hrun, hcap⟩

theorem length_flatMap_codeBytes (ids : List Nat) : (ids.flatMap codeBytes).length = 2 * ids.length := by
  induction ids with
  | nil => rfl
  | cons id ids ih =>
    have htwo : (codeBytes id).length = 2 := rfl
    rw [List.flatMap_cons, List.length_append, ih, htwo, List.length_cons]
    omega

/-- Settles O53: the counts of what LZW.C has emitted; each code has two bytes, and each id a string. -/
theorem lzwCountsAgree : Obligations.LzwCountsAgree := by
  intro p x o ho
  rcases lzwC_codec p x with ⟨entries, ids, hcodec, hids⟩ | ⟨herr, -⟩
  · cases hcodec.symm.trans ho
    have hlen : (ids.flatMap codeBytes).length = 2 * ids.length := length_flatMap_codeBytes ids
    simp only [OutSeq.length]
    rcases hids with ⟨rfl, rfl, rfl⟩ | hemitted
    · exact ⟨fun h => absurd rfl h, hlen, Nat.zero_le _⟩
    · have hle := hemitted.length_le
      exact ⟨fun _ => hemitted.count, hlen, by omega⟩
  · cases herr.symm.trans ho

/-! ### LZW.D -/

/-- Id `k` as LZW.D reads it: a string it knows, or the entry it is about to insert, which the string of the id
before makes up (R254). -/
theorem Emitted.current (h : Emitted p entries ids x) {k prev id : Nat} (hprev : ids[k]? = some prev)
    (hid : ids[k + 1]? = some id) (z : LzwStore) (hz : z.entries = entries.take k)
    (hzprev : z.prev = lzwString entries prev) :
    lzwCurrent z id = .ok (lzwString entries id) := by
  have he := h.namesEarlierIds
  have hcount := h.count
  obtain ⟨hlt, -⟩ := List.getElem?_eq_some_iff.mp hid
  have hk : k < entries.length := by omega
  have hlen : (entries.take k).length = k := List.length_take_of_le hk.le
  have hknown : id < 256 + (k + 1) := h.known (k + 1) id hid
  refine lzwCurrent_ok ?_
  rw [hz, hlen, hzprev]
  rcases Nat.lt_succ_iff_lt_or_eq.mp hknown with hold | hnew
  · refine .inl ⟨hold, ?_⟩
    have happ := lzwString_append (entries := entries.take k) (more := entries.drop k) (id := id)
      (by rwa [List.take_append_drop]) (by rwa [hlen])
    rwa [List.take_append_drop] at happ
  · refine .inr ⟨hnew, ?_⟩
    obtain ⟨⟨pid, c⟩, hentry⟩ : ∃ r, entries[k]? = some r := ⟨_, List.getElem?_eq_getElem hk⟩
    obtain ⟨hpid, id', hid', hhead⟩ := h.entry k pid c hentry
    cases hprev.symm.trans hpid
    cases hid.symm.trans hid'
    have hpk := h.known k prev hprev
    have hne : lzwString entries prev ≠ [] := lzwString_ne_nil (by omega)
    have hstring : lzwString entries id = lzwString entries prev ++ [c] := hnew ▸ lzwString_entry he hentry
    rw [hstring, List.head?_append_of_ne_nil _ hne] at hhead
    rw [hstring, List.headD_eq_head?_getD, hhead]
    rfl

/-- What LZW.D holds after the first `k + 1` codes: its dictionary is one entry behind. -/
structure Decoding (entries : List (Nat × Byte)) (ids : List Nat) (k : Nat) (st : Storage) : Prop where
  dict : st.lzw.entries = entries.take k
  prev : ∃ id, ids[k]? = some id ∧ st.lzw.prevId = id ∧ st.lzw.prev = lzwString entries id
  ncodes : st.lzw.ncodes = k + 1
  out : st.out = (ids.take (k + 1)).flatMap (lzwString entries)
  bytes : st.input.drop st.ip = (ids.drop (k + 1)).flatMap codeBytes

/-- The turn of LZW.D on the bytes of a code. -/
theorem lzwDTurn_code {st : Storage} {id : Nat} {rest : List Byte} (p : Params)
    (h : st.input.drop st.ip = codeBytes id ++ rest) :
    lzwDUnit.turn p st = .token (.lzwCode (BitVec.ofNat 16 id)) :=
  lzwDTurn_token p (more := rest) (by rw [h]; exact decodeToken_lzwCode _ _)

/-- A later code keeps LZW.D one entry behind LZW.C. -/
theorem Decoding.next (h : Emitted p entries ids x) {k id : Nat} {st : Storage} (hst : Decoding entries ids k st)
    (hid : ids[k + 1]? = some id) (hsmall : id < 65536) :
    ∃ st', lzwDUnit.token p (.lzwCode (BitVec.ofNat 16 id)) st = .ok st' ∧ Decoding entries ids (k + 1) st' := by
  obtain ⟨hentries, ⟨prev, hprev, hprevId, hprevString⟩, hn, hout, hbytes⟩ := hst
  have hcount := h.count
  obtain ⟨hlt, hget⟩ := List.getElem?_eq_some_iff.mp hid
  have hk : k < entries.length := by omega
  have hlen : (entries.take k).length = k := List.length_take_of_le hk.le
  have hcode : (BitVec.ofNat 16 id).toNat = id := by rw [BitVec.toNat_ofNat]; omega
  have hcur := h.current hprev hid st.lzw hentries hprevString
  have hroom : 256 + st.lzw.entries.length ≠ p.lzwDictCapacity := by
    rw [hentries, hlen]
    exact h.room k hk
  have hnext := lzwNext_room hcur hroom
  have hentry : (prev, (lzwString entries id).headD 0) = entries[k] := by
    obtain ⟨hpid, id', hid', hhead⟩ := h.entry k _ _ (List.getElem?_eq_getElem hk)
    cases hprev.symm.trans hpid
    cases hid.symm.trans hid'
    rw [List.headD_eq_head?_getD, hhead]
    rfl
  refine ⟨_, (lzwCodeEffect_later _ p (by omega)).trans (by rw [hcode]; exact hnext), ?_⟩
  refine ⟨?_, ⟨id, hid, rfl, rfl⟩, congrArg (· + 1) hn, ?_, ?_⟩
  · simp only [hentries, hprevId, hentry, List.take_append_getElem hk]
  · simp only [hout]
    rw [← List.take_append_getElem hlt, hget, List.flatMap_append]
    simp
  · simp only
    rw [← List.drop_drop, hbytes, List.drop_eq_getElem_cons hlt, hget]
    rfl

/-- LZW.D reads every code that LZW.C has emitted, if the ids fit their 16 bits. -/
theorem lzwD_run (h : Emitted p entries ids x) (hsmall : ids.length ≤ 65281) {k n : Nat} {st : Storage}
    (hst : Decoding entries ids k st) (hn : unread st < n) :
    ∃ st', drain lzwDUnit p n st = (.ok (), st') ∧ lzwDOutput st' = ⟨.bytes x, entries.length, ids.length⟩ := by
  have hcount := h.count
  induction n generalizing k st with
  | zero => exact absurd hn (Nat.not_lt_zero _)
  | succ n ih =>
    rcases Nat.lt_or_ge (k + 1) ids.length with hlt | hge
    · have hid := List.getElem?_eq_getElem hlt
      have hknown := h.known (k + 1) _ hid
      have hbytes := hst.bytes
      rw [List.drop_eq_getElem_cons hlt, List.flatMap_cons] at hbytes
      have hturn := lzwDTurn_code p hbytes
      obtain ⟨st', htoken, hst'⟩ := Decoding.next h hst hid (by omega)
      have hless := lzwDUnit_usesUp.token p st _ _ hturn htoken
      rw [drain_token n hturn htoken]
      exact ih hst' (by omega)
    · obtain ⟨hentries, ⟨id, hid, -, -⟩, hcodes, hout, hbytes⟩ := hst
      obtain ⟨hk, -⟩ := List.getElem?_eq_some_iff.mp hid
      rw [List.drop_of_length_le hge] at hbytes
      have hturn : lzwDUnit.turn p st = .finished := by
        simp only [lzwDUnit, lzwDTurn, hbytes]
        rfl
      refine ⟨st, drain_finished _ hturn, ?_⟩
      rw [List.take_of_length_le hge, h.strings] at hout
      rw [List.take_of_length_le (by omega)] at hentries
      rw [lzwDOutput, hout, hentries, hcodes, show k + 1 = ids.length by omega]

theorem lzwDInit_even {bs : List Byte} (p : Params) (h : bs.length % 2 ≠ 1) :
    lzwDUnit.init p (srcOnly bs) .blank = .ok { startStream (srcOnly bs) .blank with lzw := lzwFresh } :=
  if_neg h

theorem lzwDInit_odd {bs : List Byte} (p : Params) (h : bs.length % 2 = 1) :
    lzwDUnit.init p (srcOnly bs) .blank = .error .malformedPayload :=
  if_pos h

/-- LZW.D after the first code of what LZW.C has emitted (R253). -/
theorem Emitted.start (h : Emitted p entries ids x) {st : Storage} (hfresh : st.lzw = lzwFresh)
    (hbytes : st.input.drop st.ip = ids.flatMap codeBytes) :
    ∃ i st', lzwDUnit.turn p st = .token i ∧ lzwDUnit.token p i st = .ok st' ∧ Decoding entries ids 0 st' := by
  obtain ⟨id, rest, rfl⟩ : ∃ id rest, ids = id :: rest :=
    List.exists_cons_of_length_eq_add_one h.count
  have hid : id < 256 := h.known 0 id rfl
  have hcode : (BitVec.ofNat 16 id).toNat = id := by rw [BitVec.toNat_ofNat]; omega
  rw [List.flatMap_cons] at hbytes
  have htoken := (lzwCodeEffect_first (BitVec.ofNat 16 id) p (by rw [hfresh]; rfl)).trans
    (lzwFirst_seed st (hcode.symm ▸ hid))
  rw [hcode] at htoken
  have hstring : [BitVec.ofNat 8 id] = lzwString entries id := (lzwString_seed entries hid).symm
  refine ⟨_, _, lzwDTurn_code p hbytes, htoken, ?_, ⟨id, rfl, rfl, hstring⟩, rfl, ?_, ?_⟩
  · simp only [hfresh, lzwFresh, List.take_zero]
  · simp [hstring]
  · simp only
    rw [← List.drop_drop, hbytes]
    rfl

/-- LZW.D's codec function on what LZW.C has emitted. -/
theorem Emitted.lzwD_codec (h : Emitted p entries ids x) (hsmall : ids.length ≤ 65281) :
    lzwDUnit.codec p (srcOnly (ids.flatMap codeBytes)) = .ok ⟨.bytes x, entries.length, ids.length⟩ := by
  have heven : (ids.flatMap codeBytes).length % 2 ≠ 1 := by rw [length_flatMap_codeBytes]; omega
  have hinit := lzwDInit_even p heven
  obtain ⟨i, st1, hturn, htoken, hdecoding⟩ := h.start (p := p)
    (st := { startStream (srcOnly (ids.flatMap codeBytes)) .blank with lzw := lzwFresh }) rfl rfl
  have hless := lzwDUnit_usesUp.token p _ i st1 hturn htoken
  obtain ⟨st', hrun, hout⟩ := lzwD_run h hsmall hdecoding (n := (ids.flatMap codeBytes).length)
    (Nat.lt_of_lt_of_le hless (Nat.sub_le _ _))
  rw [codec_eq_of_drain hinit ((drain_token _ hturn htoken).trans hrun)]
  exact congrArg Except.ok hout

/-- Settles O52: LZW.D reads back what LZW.C has emitted (`lzwC_codec`, `Emitted.lzwD_codec`). -/
theorem lzwRoundTrip : Obligations.LzwRoundTrip := by
  intro p x o ho hsmall
  rcases lzwC_codec p x with ⟨entries, ids, hcodec, hids⟩ | ⟨herr, -⟩
  · cases hcodec.symm.trans ho
    rcases hids with ⟨rfl, rfl, rfl⟩ | hemitted
    · exact ⟨_, rfl, rfl, rfl, rfl⟩
    · exact ⟨_, hemitted.lzwD_codec hsmall, rfl, rfl, rfl⟩
  · cases herr.symm.trans ho

/-! ### The errors of LZW.D -/

theorem lzwCurrent_error {z : LzwStore} {id : Nat} {e : ErrorKind} (h : lzwCurrent z id = .error e) :
    e = .malformedPayload := by
  unfold lzwCurrent at h
  split at h
  · cases h
  · split at h <;> cases h
    rfl

/-- What a code that is not taken ends with (R253, R254). -/
theorem lzwCodeEffect_error {c : BitVec 16} {st : Storage} {e : ErrorKind} (h : lzwCodeEffect c p st = .error e) :
    e = .malformedPayload
      ∨ (e = .dictionaryOverflow ∧ 256 + st.lzw.entries.length = p.lzwDictCapacity) := by
  by_cases hn : st.lzw.ncodes = 0
  · rw [lzwCodeEffect_first c p hn, lzwFirst] at h
    split at h <;> cases h
    exact .inl rfl
  · rw [lzwCodeEffect_later c p hn, lzwNext] at h
    split at h
    · next hcur =>
      cases h
      exact .inl (lzwCurrent_error hcur)
    · split at h <;> cases h
      next hins => exact .inr (lzwInsert_error hins)

/-- A code inserts at most one entry. -/
theorem lzwCodeEffect_entries {c : BitVec 16} {st st' : Storage} (h : lzwCodeEffect c p st = .ok st') :
    st'.lzw.entries.length ≤ st.lzw.entries.length + 1 := by
  by_cases hn : st.lzw.ncodes = 0
  · rw [lzwCodeEffect_first c p hn, lzwFirst] at h
    split at h <;> cases h
    exact Nat.le_succ _
  · obtain ⟨cur, entries, -, hins, rfl⟩ := lzwNext_ok ((lzwCodeEffect_later c p hn).symm.trans h)
    obtain ⟨-, rfl⟩ := lzwInsert_ok hins
    exact (List.length_append ..).le

/-- LZW.D's turn is the next code, the end, or MalformedPayload. -/
theorem lzwDTurn_cases (p : Params) (st : Storage) :
    (∃ c, lzwDUnit.turn p st = .token (.lzwCode c) ∧ st.ip < st.input.length)
      ∨ lzwDUnit.turn p st = .finished ∨ lzwDUnit.turn p st = .failed .malformedPayload := by
  cases hdec : decodeToken .lzw (st.input.drop st.ip) with
  | ok r =>
    obtain ⟨i, more⟩ := r
    obtain ⟨c, rfl⟩ : ∃ c, i = .lzwCode c := by
      obtain ⟨-, pre, henc, -⟩ := decodedTokenIsItsEncoding _ _ _ _ hdec
      cases i <;> cases henc
      exact ⟨_, rfl⟩
    exact .inl ⟨c, lzwDTurn_token p hdec, ip_lt_of_decodeToken hdec⟩
  | error e =>
    cases e
    case endOfStream => exact .inr (.inl (by simp only [lzwDUnit, lzwDTurn, hdec]))
    all_goals exact .inr (.inr (by simp only [lzwDUnit, lzwDTurn, hdec]))

/-- LZW.D fails on a malformed code, or with a store that fewer codes than input bytes have filled. -/
theorem lzwD_run_error {st : Storage} {n : Nat} {e : ErrorKind} (hentries : st.lzw.entries.length ≤ st.ip)
    (h : (drain lzwDUnit p n st).1 = .error e) :
    e = .malformedPayload ∨ (e = .dictionaryOverflow ∧ p.lzwDictCapacity < 256 + st.input.length) := by
  induction n generalizing st with
  | zero => cases h
  | succ n ih =>
    rcases lzwDTurn_cases p st with ⟨c, hturn, hlt⟩ | hturn | hturn
    · cases htoken : lzwCodeEffect c p st with
      | ok st' =>
        obtain ⟨hin, hip⟩ := lzwCodeEffect_ip htoken
        have hmore := lzwCodeEffect_entries htoken
        rw [drain_token n hturn htoken] at h
        rw [← hin]
        exact ih (by omega) h
      | error e' =>
        rw [drain_token_error n hturn htoken] at h
        cases h
        refine (lzwCodeEffect_error htoken).imp id fun ⟨he, hcap⟩ => ⟨he, ?_⟩
        omega
    · rw [drain_finished (n + 1) hturn] at h
      cases h
    · rw [drain_failed n hturn] at h
      cases h
      exact .inl rfl

/-- A unit that starts answers an error only if its run ends with it. -/
theorem drain_error_of_codec {u : CodecUnit} {inp : Inputs} {st : Storage} {e : ErrorKind}
    (hinit : u.init p inp .blank = .ok st) (h : u.codec p inp = .error e) :
    (drain u p (u.fuel st) st).1 = .error e := by
  cases hrun : drain u p (u.fuel st) st with
  | mk r st' =>
    cases r with
    | ok _ => cases (codec_eq_of_drain hinit hrun).symm.trans h
    | error e' =>
      cases (codec_eq_error_of_drain hinit (congrArg Prod.fst hrun)).symm.trans h
      rfl

/-- Settles O54: LZW.C by what it has emitted (`lzwC_codec`), LZW.D by its run (`lzwD_run_error`) or by its odd
length. -/
theorem lzwErrorsNeedAFullStoreOrABadStream : Obligations.LzwErrorsNeedAFullStoreOrABadStream := by
  intro p x
  have hodd : x.length % 2 = 1 → lzwDUnit.codec p (srcOnly x) = .error .malformedPayload := fun h => by
    simp only [CodecUnit.codec, lzwDInit_odd p h]
  refine ⟨fun e he => ?_, fun e he => ?_, hodd⟩
  · rcases lzwC_codec p x with ⟨entries, ids, hcodec, -⟩ | ⟨hcodec, hcap⟩
    · cases hcodec.symm.trans he
    · cases hcodec.symm.trans he
      exact ⟨rfl, hcap⟩
  · by_cases h : x.length % 2 = 1
    · cases (hodd h).symm.trans he
      exact .inl rfl
    · have hinit := lzwDInit_even p h
      exact lzwD_run_error (Nat.zero_le _) (drain_error_of_codec hinit he)

end Sys2Proof.Machine
end

section
/-! SUPPORT. The priority queue and the merged frequencies of a Huffman tree (40_huffman.md R147 to R150). -/

namespace Sys2Proof.Machine

/-! ### Queue order (R148) -/

/-- `a` stands nowhere after `b` in queue order: a lower frequency, or the same and no greater number. -/
def HuffNode.NotAfter (a b : HuffNode) : Prop :=
  a.freq.toNat < b.freq.toNat ∨ (a.freq.toNat = b.freq.toNat ∧ a.seq.toNat ≤ b.seq.toNat)

theorem HuffNode.before_iff (a b : HuffNode) :
    a.before b = true
      ↔ a.freq.toNat < b.freq.toNat ∨ (a.freq.toNat = b.freq.toNat ∧ a.seq.toNat < b.seq.toNat) := by
  simp only [before, Bool.or_eq_true, Bool.and_eq_true, decide_eq_true_eq, beq_iff_eq, BitVec.lt_def,
    ← BitVec.toNat_inj]

theorem HuffNode.notAfter_of_before {a b : HuffNode} (h : a.before b = true) : a.NotAfter b :=
  ((before_iff a b).mp h).imp_right fun ⟨hf, hs⟩ => ⟨hf, hs.le⟩

theorem HuffNode.notAfter_of_not_before {a b : HuffNode} (h : ¬ a.before b = true) : b.NotAfter a := by
  rw [before_iff] at h
  unfold NotAfter
  omega

theorem HuffNode.NotAfter.refl (a : HuffNode) : a.NotAfter a := .inr ⟨rfl, Nat.le_refl _⟩

theorem HuffNode.NotAfter.trans {a b c : HuffNode} (hab : a.NotAfter b) (hbc : b.NotAfter c) : a.NotAfter c := by
  unfold NotAfter at *
  omega

/-- No node that `ExtractMin` leaves stands before the one it takes. -/
theorem extractMin_notAfter {q rest : List HuffNode} {m : HuffNode} (h : extractMin q = some (m, rest)) :
    ∀ n ∈ rest, m.NotAfter n := by
  induction q generalizing m rest with
  | nil => cases h
  | cons x xs ih =>
    cases xs with
    | nil =>
      cases h
      exact List.forall_mem_nil _
    | cons y ys =>
      obtain ⟨m', rest', hm, hperm⟩ := extractMin_perm y ys
      have hfirst := ih hm
      rw [extractMin, hm] at h
      by_cases hbefore : m'.before x = true
      · cases (if_pos hbefore).symm.trans h
        exact List.forall_mem_cons.mpr ⟨HuffNode.notAfter_of_before hbefore, hfirst⟩
      · cases (if_neg hbefore).symm.trans h
        intro n hn
        refine (HuffNode.notAfter_of_not_before hbefore).trans ?_
        rcases List.mem_cons.mp (hperm.mem_iff.mp hn) with rfl | hrest
        · exact .refl n
        · exact hfirst n hrest

/-- Settles O33: the node taken by `extractMin_perm`, its place in queue order by `extractMin_notAfter`. -/
theorem extractMinTakesTheFirstNode : Obligations.ExtractMinTakesTheFirstNode := by
  intro q hq
  obtain ⟨x, xs, rfl⟩ := List.exists_cons_of_ne_nil hq
  obtain ⟨m, rest, hm, hperm⟩ := extractMin_perm x xs
  exact ⟨m, rest, hm, hperm, extractMin_notAfter hm⟩

/-! ### The frequency and the size of the finished tree (R149) -/

@[simp] theorem HuffNode.freq_internal (f : BitVec 40) (l r : HuffNode) (k : BitVec 10) :
    (internal f l r k).freq = f := rfl

@[simp] theorem HuffNode.freq_leaf (sym : Byte) (f : BitVec 40) (k : BitVec 10) : (leaf sym f k).freq = f := rfl

/-- The nodes of a queue have the sum `total` of frequencies, and with one merge for each node but the last they
make `size - 1` internal nodes. -/
def Weighs (total size : Nat) (q : List HuffNode) : Prop :=
  (q.map fun n => n.freq.toNat).sum = total ∧ (q.map HuffNode.internals).sum + q.length = size

/-- A merge adds frequencies, which does not wrap where the total fits 40 bits. -/
theorem weighs_mergeInvariant {total : Nat} (size : Nat) (h40 : total < 2 ^ 40) :
    MergeInvariant (Weighs total size) where
  perm hperm h :=
    ⟨(hperm.map _).sum_eq.symm.trans h.1, by rw [← hperm.length_eq, ← (hperm.map _).sum_eq]; exact h.2⟩
  merge {a b rest} k h := by
    obtain ⟨htotal, hsize⟩ := h
    simp only [List.map_cons, List.sum_cons, List.length_cons] at htotal hsize
    have hsum : (a.freq + b.freq).toNat = a.freq.toNat + b.freq.toNat := BitVec.toNat_add_of_lt (by omega)
    constructor
    · simp only [List.map_cons, List.sum_cons, HuffNode.freq_internal, hsum]
      omega
    · simp only [List.map_cons, List.sum_cons, List.length_cons, HuffNode.internals]
      omega

theorem toNat_setWidth_40 (f : Word) : (f.setWidth 40).toNat = f.toNat :=
  BitVec.toNat_setWidth_of_le (by decide)

theorem makeLeaves_weighs (k : BitVec 10) (list : List (Byte × Word)) :
    Weighs (list.map fun r => r.2.toNat).sum list.length (makeLeaves k list) := by
  induction list generalizing k with
  | nil => exact ⟨rfl, rfl⟩
  | cons r rest ih =>
    obtain ⟨htotal, hsize⟩ := ih (k + 1)
    constructor
    · simp only [makeLeaves, List.map_cons, List.sum_cons, htotal, HuffNode.freq_leaf, toNat_setWidth_40]
    · simp only [makeLeaves, List.map_cons, List.sum_cons, List.length_cons, HuffNode.internals]
      omega

/-- 256 counts of 32 bits do not fill 40 bits. -/
theorem rowsLegal_sum_lt {list : List (Byte × Word)} (h : rowsLegal list = true) :
    (list.map fun r => r.2.toNat).sum < 2 ^ 40 := by
  have hmax := rowsLegal_length_le h
  have hsum := List.sum_le_card_nsmul (list.map fun r => r.2.toNat) (2 ^ 32 - 1) (by
    intro n hn
    obtain ⟨r, -, rfl⟩ := List.mem_map.mp hn
    exact Nat.le_pred_of_lt r.2.isLt)
  rw [List.length_map, smul_eq_mul] at hsum
  omega

/-- Settles O32: one symbol by its tree, more by what every merge keeps (`weighs_mergeInvariant`). -/
theorem treeFrequencyIsExact : Obligations.TreeFrequencyIsExact := by
  intro list hne hlegal
  rcases alphabet_cases hne with ⟨a, f, rfl⟩ | h2
  · exact ⟨(toNat_setWidth_40 f).trans (Nat.add_zero _).symm, rfl⟩
  · obtain ⟨htotal, hsize⟩ := (weighs_mergeInvariant list.length (rowsLegal_sum_lt hlegal)).of_leaves h2
      (makeLeaves_weighs 0 list)
    simp only [List.map_cons, List.map_nil, List.sum_cons, List.sum_nil, List.length_singleton] at htotal hsize
    exact ⟨htotal, by omega⟩

end Sys2Proof.Machine
end

section
/-! SUPPORT. The bit packer and the bit reader (40_huffman.md R140 to R145), both through the bits that bytes stand
for, the most significant first. -/

namespace Sys2Proof.Machine

/-! ### The bits of bytes -/

/-- The low `n` bits of a byte, the most significant first. -/
def lowBits (n : Nat) (b : Byte) : List Bool := (List.range n).map fun j => b.getLsbD (n - 1 - j)

/-- The bits of a sequence of bytes. -/
def bitsOf (bytes : List Byte) : List Bool := bytes.flatMap (lowBits 8)

@[simp] theorem length_lowBits (n : Nat) (b : Byte) : (lowBits n b).length = n := by simp [lowBits]

theorem getElem?_lowBits {n j : Nat} (b : Byte) (h : j < n) : (lowBits n b)[j]? = some (b.getLsbD (n - 1 - j)) := by
  rw [lowBits, List.getElem?_map, List.getElem?_range h]
  rfl

theorem bitsOf_cons (b : Byte) (bytes : List Byte) : bitsOf (b :: bytes) = lowBits 8 b ++ bitsOf bytes :=
  List.flatMap_cons

theorem bitsOf_append_singleton (bytes : List Byte) (b : Byte) :
    bitsOf (bytes ++ [b]) = bitsOf bytes ++ lowBits 8 b := by
  simp [bitsOf]

@[simp] theorem length_bitsOf (bytes : List Byte) : (bitsOf bytes).length = 8 * bytes.length := by
  induction bytes with
  | nil => rfl
  | cons b bytes ih =>
    rw [bitsOf_cons, List.length_append, length_lowBits, ih, List.length_cons]
    omega

/-- Bit `k` stands in byte `k / 8`, the most significant first. -/
theorem getElem?_bitsOf {bytes : List Byte} {k : Nat} (h : k < 8 * bytes.length) :
    (bitsOf bytes)[k]? = some ((bytes.getD (k / 8) 0).getLsbD (7 - k % 8)) := by
  induction bytes generalizing k with
  | nil => exact absurd h (Nat.not_lt_zero k)
  | cons b bytes ih =>
    rw [List.length_cons] at h
    rw [bitsOf_cons]
    rcases Nat.lt_or_ge k 8 with hlt | hge
    · rw [List.getElem?_append_left (by simpa using hlt), getElem?_lowBits b hlt, Nat.div_eq_of_lt hlt,
        Nat.mod_eq_of_lt hlt]
      rfl
    · obtain ⟨m, rfl⟩ := Nat.exists_eq_add_of_le' hge
      rw [List.getElem?_append_right (by simp), length_lowBits, Nat.add_sub_cancel, ih (by omega),
        Nat.add_div_right m (by decide), Nat.add_mod_right, List.getD_cons_succ]

/-- A bit shifted in from the right becomes bit 0. -/
theorem getLsbD_shift_in (b : Byte) (x : Bool) {i : Nat} (hi : i < 8) :
    (b <<< 1 ||| BitVec.ofNat 8 x.toNat).getLsbD i = if i = 0 then x else b.getLsbD (i - 1) := by
  have hbit : x.toNat.testBit i = (decide (i = 0) && x) := by
    cases x
    · simp
    · rw [Bool.and_true]
      exact Bool.eq_iff_iff.mpr (Nat.testBit_one_eq_true_iff_self_eq_zero.trans decide_eq_true_iff.symm)
  rw [BitVec.getLsbD_or, BitVec.getLsbD_shiftLeft, BitVec.getLsbD_ofNat, hbit]
  by_cases hzero : i = 0 <;> simp [hzero, hi]

/-- A bit shifted in from the right comes last. -/
theorem lowBits_shift_in {n : Nat} (b : Byte) (x : Bool) (h : n < 8) :
    lowBits (n + 1) (b <<< 1 ||| BitVec.ofNat 8 x.toNat) = lowBits n b ++ [x] := by
  refine List.ext_getElem? fun j => ?_
  rcases Nat.lt_trichotomy j n with hlt | rfl | hgt
  · rw [List.getElem?_append_left (by simpa using hlt), getElem?_lowBits b hlt,
      getElem?_lowBits _ (Nat.lt_succ_of_lt hlt), getLsbD_shift_in b x (by omega), if_neg (by omega),
      Nat.sub_right_comm]
    rfl
  · rw [List.getElem?_append_right (by simp), getElem?_lowBits _ (Nat.lt_succ_self j),
      getLsbD_shift_in b x (by omega), if_pos (by omega)]
    simp
  · rw [List.getElem?_eq_none (by simpa using hgt), List.getElem?_eq_none (by simpa using hgt)]

/-- The flush shifts the bits to the left and fills up with zeros. -/
theorem lowBits_flush {n : Nat} (b : Byte) (h : n ≤ 8) :
    lowBits 8 (b <<< (8 - n)) = lowBits n b ++ List.replicate (8 - n) false := by
  refine List.ext_getElem? fun j => ?_
  rcases Nat.lt_or_ge j 8 with hj | hj
  · rw [getElem?_lowBits _ hj, BitVec.getLsbD_shiftLeft]
    rcases Nat.lt_or_ge j n with hlt | hge
    · rw [List.getElem?_append_left (by simpa using hlt), getElem?_lowBits b hlt,
        decide_eq_true (show 8 - 1 - j < 8 by omega), decide_eq_false (show ¬ 8 - 1 - j < 8 - n by omega),
        show 8 - 1 - j - (8 - n) = n - 1 - j by omega]
      rfl
    · rw [List.getElem?_append_right (by simpa using hge), List.getElem?_replicate_of_lt (by simp; omega),
        decide_eq_true (show 8 - 1 - j < 8 - n by omega)]
      simp
  · rw [List.getElem?_eq_none (by simpa using hj), List.getElem?_eq_none (by simp; omega)]

/-! ### The packer (R140 to R142) -/

/-- The packer holds these bits: whole bytes, and fewer than eight bits more. -/
structure Packed (p : BitPacker) (bits : List Bool) : Prop where
  partly : p.nbits < 8
  holds : bitsOf p.out ++ lowBits p.nbits p.acc = bits

theorem packed_bpInit : Packed bpInit [] := ⟨by decide, rfl⟩

theorem Packed.bpBit {p : BitPacker} {bits : List Bool} (h : Packed p bits) (x : Bool) :
    Packed (bpBit p x) (bits ++ [x]) := by
  obtain ⟨hlt, hbits⟩ := h
  have hshift := lowBits_shift_in p.acc x hlt
  unfold Machine.bpBit
  split
  · next hfull =>
    rw [hfull] at hshift
    refine ⟨Nat.zero_lt_succ 7, ?_⟩
    rw [bitsOf_append_singleton, hshift, ← hbits]
    simp [lowBits]
  · next hroom =>
    refine ⟨by simp only; omega, ?_⟩
    simp only [hshift, ← hbits, List.append_assoc]

theorem Packed.bpWrite {p : BitPacker} {bits : List Bool} (h : Packed p bits) (more : List Bool) :
    Packed (bpWrite p more) (bits ++ more) := by
  induction more generalizing p bits with
  | nil => rwa [List.append_nil]
  | cons x more ih =>
    have hmore := ih (h.bpBit x)
    rwa [List.append_assoc] at hmore

theorem bpWrite_append (p : BitPacker) (a b : List Bool) : bpWrite p (a ++ b) = bpWrite (bpWrite p a) b :=
  List.foldl_append

theorem packed_bpWrite (bits : List Bool) : Packed (bpWrite bpInit bits) bits := packed_bpInit.bpWrite bits

theorem Packed.length_eq {p : BitPacker} {bits : List Bool} (h : Packed p bits) :
    bits.length = 8 * p.out.length + p.nbits := by
  rw [← h.holds]
  simp

/-- The flushed bytes are the bits and zeros for padding (R142). -/
theorem Packed.bitsOf_bpFlushed {p : BitPacker} {bits : List Bool} (h : Packed p bits) :
    bitsOf (bpFlushed p) = bits ++ List.replicate (bpPadding p) false := by
  obtain ⟨hlt, rfl⟩ := h
  unfold bpFlushed bpPadding
  split
  · next hzero => simp [hzero, lowBits]
  · rw [bitsOf_append_singleton, lowBits_flush _ hlt.le, List.append_assoc]

theorem Packed.bpPadding_eq {p : BitPacker} {bits : List Bool} (h : Packed p bits) :
    bpPadding p = (8 - bits.length % 8) % 8 := by
  have hlen := h.length_eq
  have hlt := h.partly
  unfold bpPadding
  split <;> omega

theorem Packed.eight_mul_length_bpFlushed {p : BitPacker} {bits : List Bool} (h : Packed p bits) :
    8 * (bpFlushed p).length = bits.length + bpPadding p := by
  rw [← length_bitsOf, h.bitsOf_bpFlushed]
  simp

/-- Settles O34: counted in the bits of the flushed bytes. -/
theorem flushPadsToAByte : Obligations.FlushPadsToAByte := by
  intro bits
  have hpacked := packed_bpWrite bits
  have hpad := hpacked.bpPadding_eq
  have hlen := hpacked.eight_mul_length_bpFlushed
  exact ⟨by omega, hpad, by omega⟩

/-! ### The reader (R143 to R145) -/

/-- The reader still returns these bits, and then `END`. -/
structure Reads (r : BitReader) (bits : List Bool) : Prop where
  fits : r.nbitsTotal ≤ 8 * r.payload.length
  left : ((bitsOf r.payload).take r.nbitsTotal).drop r.bitpos = bits

theorem length_take_bitsOf {r : BitReader} (h : r.nbitsTotal ≤ 8 * r.payload.length) :
    ((bitsOf r.payload).take r.nbitsTotal).length = r.nbitsTotal := by
  rw [List.length_take, length_bitsOf, Nat.min_eq_left h]

theorem Reads.brNext_nil {r : BitReader} (h : Reads r []) : brNext r = none := by
  refine if_pos ?_
  have hlen := List.drop_eq_nil_iff.mp h.left
  rwa [length_take_bitsOf h.fits] at hlen

theorem Reads.brNext_cons {r : BitReader} {b : Bool} {bits : List Bool} (h : Reads r (b :: bits)) :
    brNext r = some (b, { r with bitpos := r.bitpos + 1 }) ∧ Reads { r with bitpos := r.bitpos + 1 } bits := by
  obtain ⟨hfits, hleft⟩ := h
  have hlt : r.bitpos < r.nbitsTotal := by
    rw [← length_take_bitsOf hfits]
    exact Nat.lt_of_not_le fun hle => List.cons_ne_nil b bits (hleft.symm.trans (List.drop_eq_nil_of_le hle))
  have hbit : some ((r.payload.getD (r.bitpos / 8) 0).getLsbD (7 - r.bitpos % 8)) = some b := by
    rw [← getElem?_bitsOf (by omega), ← List.getElem?_take_of_lt hlt, ← List.head?_drop, hleft]
    rfl
  refine ⟨?_, hfits, ?_⟩
  · rw [brNext, if_neg (Nat.not_le.mpr hlt), Option.some.inj hbit]
  · rw [← List.tail_drop, hleft]
    rfl

theorem Reads.readBits_eq {r : BitReader} {bits : List Bool} (h : Reads r bits) (n : Nat) :
    readBits n r = bits.take n := by
  induction n generalizing r bits with
  | zero => rfl
  | succ n ih =>
    cases bits with
    | nil => simp only [readBits, h.brNext_nil, List.take_nil]
    | cons b bits =>
      obtain ⟨hnext, hmore⟩ := h.brNext_cons
      simp only [readBits, hnext, ih hmore, List.take_succ_cons]

/-- `BR_Init` starts with all bits of the payload but the padding (R143). -/
theorem reads_start (payload : List Byte) (padding : Nat) :
    Reads ⟨payload, 8 * payload.length - padding, 0⟩
      ((bitsOf payload).take (8 * payload.length - padding)) :=
  ⟨Nat.sub_le _ _, rfl⟩

theorem payloadBits_eq (payload : List Byte) (padding : Nat) :
    payloadBits payload padding = (bitsOf payload).take (8 * payload.length - padding) := by
  rw [payloadBits, (reads_start payload padding).readBits_eq, List.take_of_length_le (by simp)]

/-- The payload without its padding is the bits that were packed. -/
theorem Packed.payloadBits_bpFlushed {p : BitPacker} {bits : List Bool} (h : Packed p bits) :
    payloadBits (bpFlushed p) (bpPadding p) = bits := by
  rw [payloadBits_eq, h.eight_mul_length_bpFlushed, Nat.add_sub_cancel, h.bitsOf_bpFlushed, List.take_left]

theorem brInit_ok {payload : List Byte} {padding : Nat} (h : padding ≤ 8 * payload.length) :
    brInit payload padding = .ok ⟨payload, 8 * payload.length - padding, 0⟩ :=
  if_neg (Nat.not_lt.mpr h)

theorem brInit_malformed {payload : List Byte} {padding : Nat} (h : 8 * payload.length < padding) :
    brInit payload padding = .error .malformedPayload :=
  if_pos h

/-- Settles O35: the reader starts with the packed bits (`Packed.bitsOf_bpFlushed`) and reads them all. -/
theorem readerReturnsThePackedBits : Obligations.ReaderReturnsThePackedBits := by
  intro bits
  have hpacked := packed_bpWrite bits
  have hlen := hpacked.eight_mul_length_bpFlushed
  refine ⟨_, brInit_ok (by omega), ?_⟩
  rw [(reads_start _ _).readBits_eq, ← payloadBits_eq, hpacked.payloadBits_bpFlushed,
    List.take_of_length_le (Nat.le_succ _)]

end Sys2Proof.Machine
end

section
/-! SUPPORT. What HUF.D makes of its input: the container and its metadata (40_huffman.md R159, R160), and the walk of
the tree along the payload's bits (R162). -/

namespace Sys2Proof

/-- The high half of two halves, cut into bytes. -/
theorem toBE32_append (x y : BitVec 16) : toBE32 (x ++ y) = toBE16 x ++ toBE16 y := by
  have hhigh (k : Nat) (hk : k ≤ 8) : (x ++ y).extractLsb' (16 + k) 8 = x.extractLsb' k 8 := by
    ext i hi
    simp only [BitVec.getElem_extractLsb', BitVec.getLsbD_append]
    rw [if_neg (by omega), show 16 + k + i - 16 = k + i by omega]
  have hlow (k : Nat) (hk : k ≤ 8) : (x ++ y).extractLsb' k 8 = y.extractLsb' k 8 := by
    ext i hi
    simp only [BitVec.getElem_extractLsb', BitVec.getLsbD_append]
    rw [if_pos (by omega)]
  have h24 := hhigh 8 (Nat.le_refl 8)
  have h16 := hhigh 0 (Nat.zero_le 8)
  rw [toBE32, hlow 8 (Nat.le_refl 8), hlow 0 (Nat.zero_le 8), h24, h16]
  rfl

theorem toBE32_be32 (w x y z : Byte) : toBE32 (be32 w x y z) = [w, x, y, z] := by
  rw [be32, toBE32_append, toBE16_be16, toBE16_be16]
  rfl

end Sys2Proof

namespace Sys2Proof.Machine

/-! ### Metadata (R160) -/

/-- Rows of five bytes are the encoding of what they stand for. -/
theorem flatMap_metaRows {k : Nat} {rows : List Byte} (h : rows.length = 5 * k) :
    (metaRows rows).flatMap metaRow = rows ∧ (metaRows rows).length = k := by
  induction k generalizing rows with
  | zero =>
    cases List.length_eq_zero_iff.mp h
    exact ⟨rfl, rfl⟩
  | succ k ih =>
    match rows, h with
    | sym :: w :: x :: y :: z :: rest, h =>
      obtain ⟨hrest, hlen⟩ := ih (rows := rest) (by simp only [List.length_cons] at h; omega)
      refine ⟨?_, congrArg (· + 1) hlen⟩
      rw [metaRows, List.flatMap_cons, hrest, metaRow, toBE32_be32]
      rfl

/-- A check that lets a value pass has not failed. -/
theorem ite_error_eq_ok {α : Type} {c : Prop} [Decidable c] {e : ErrorKind} {r : Except ErrorKind α} {v : α} :
    (if c then .error e else r) = .ok v ↔ ¬ c ∧ r = .ok v := by
  by_cases hc : c <;> simp [hc]

/-- A blob that decodes is the metadata of what it decodes to. -/
theorem metaDecode_ok {blob : List Byte} {padding : Nat} {list : List (Byte × Word)}
    (h : metaDecode blob = .ok (padding, list)) :
    padding ≤ 7 ∧ list ≠ [] ∧ rowsLegal list = true ∧ blob = metaEncode padding list := by
  unfold metaDecode at h
  split at h
  · next pad k1 k0 rows =>
    obtain ⟨hpad, hsize⟩ := ite_error_eq_ok.mp h
    obtain ⟨hk, hlength⟩ := ite_error_eq_ok.mp hsize
    obtain ⟨hlen, hrows⟩ := ite_error_eq_ok.mp hlength
    obtain ⟨hlegal, hrows⟩ : rowsLegal (metaRows rows) = true ∧ (pad.toNat, metaRows rows) = (padding, list) := by
      split at hrows
      · next hlegal => exact ⟨hlegal, Except.ok.inj hrows⟩
      · cases hrows
    cases hrows
    simp only [Bool.or_eq_true, decide_eq_true_eq] at hk
    obtain ⟨hrows, hcount⟩ := flatMap_metaRows (rows := rows) (k := (be16 k1 k0).toNat) (by omega)
    refine ⟨by omega, fun hnil => ?_, hlegal, ?_⟩
    · rw [hnil] at hcount
      exact hk (.inl hcount.symm)
    · rw [metaEncode, hrows, hcount, BitVec.ofNat_toNat, BitVec.ofNat_toNat, BitVec.setWidth_eq,
        BitVec.setWidth_eq, toBE16_be16]
      rfl
  · cases h

/-- A check that fails has its own error, or lets a later one pass. -/
theorem error_of_ite_error {α : Type} {c : Prop} [Decidable c] {e e' : ErrorKind} {r : Except ErrorKind α}
    (h : (if c then .error e else r) = .error e') : e' = e ∨ r = .error e' := by
  split at h
  · exact .inl (Except.error.inj h).symm
  · exact .inr h

theorem metaDecode_error {blob : List Byte} {e : ErrorKind} (h : metaDecode blob = .error e) :
    e = .malformedContainer := by
  unfold metaDecode at h
  split at h
  · rcases error_of_ite_error h with hpad | hsize
    · exact hpad
    rcases error_of_ite_error hsize with hk | hlength
    · exact hk
    rcases error_of_ite_error hlength with hlen | hrows
    · exact hlen
    split at hrows <;> cases hrows
    rfl
  · cases h
    rfl

theorem parse_error {c : List Byte} {e : ErrorKind} (h : parse c = .error e) : e = .malformedContainer := by
  unfold parse at h
  split at h
  · simp only at h
    split at h <;> cases h
    rfl
  · cases h
    rfl

/-! ### HUF.D's start (R159) -/

section

variable {c : List Byte} (p : Params)

theorem hufD_codec_parse_error {e : ErrorKind} (hc : c ≠ []) (h : parse c = .error e) :
    hufDUnit.codec p (srcOnly c) = .error e := by
  have hempty : (srcOnly c).srcBytes.isEmpty = false := List.isEmpty_eq_false_iff.mpr hc
  have hparse : parse (srcOnly c).srcBytes = .error e := h
  simp [CodecUnit.codec, hufDUnit, hufDInit, hempty, hparse]

theorem hufD_codec_meta_error {r : Parsed} {e : ErrorKind} (hc : c ≠ []) (h : parse c = .ok r)
    (hmeta : metaDecode r.metadata = .error e) : hufDUnit.codec p (srcOnly c) = .error e := by
  have hempty : (srcOnly c).srcBytes.isEmpty = false := List.isEmpty_eq_false_iff.mpr hc
  have hparse : parse (srcOnly c).srcBytes = .ok r := h
  simp [CodecUnit.codec, hufDUnit, hufDInit, hempty, hparse, hmeta]

variable {r : Parsed} {padding : Nat} {list : List (Byte × Word)}

theorem hufD_codec_brInit_error {e : ErrorKind} (hc : c ≠ []) (h : parse c = .ok r)
    (hmeta : metaDecode r.metadata = .ok (padding, list)) (h2 : 2 ≤ list.length)
    (hread : brInit r.payload padding = .error e) : hufDUnit.codec p (srcOnly c) = .error e := by
  have hempty : (srcOnly c).srcBytes.isEmpty = false := List.isEmpty_eq_false_iff.mpr hc
  have hparse : parse (srcOnly c).srcBytes = .ok r := h
  have hne : list.length ≠ 1 := by omega
  simp [CodecUnit.codec, hufDUnit, hufDInit, hempty, hparse, hmeta, hread, hne]

/-- HUF.D's storage with two symbols or more, before the first bit. -/
def hufDStart (inp : Inputs) (r : Parsed) (padding : Nat) (list : List (Byte × Word)) (reader : BitReader) : Storage :=
  let b := hufDBlank inp .blank
  { b with
    contML := r.ml
    huf := { buildStore b.huf list with padding := padding, reader := reader, node := buildTree list } }

theorem hufD_init_many {reader : BitReader} (hc : c ≠ []) (h : parse c = .ok r)
    (hmeta : metaDecode r.metadata = .ok (padding, list)) (h2 : 2 ≤ list.length)
    (hread : brInit r.payload padding = .ok reader) :
    hufDUnit.init p (srcOnly c) .blank = .ok (hufDStart (srcOnly c) r padding list reader) := by
  have hempty : (srcOnly c).srcBytes.isEmpty = false := List.isEmpty_eq_false_iff.mpr hc
  have hparse : parse (srcOnly c).srcBytes = .ok r := h
  have hne : list.length ≠ 1 := by omega
  simp [hufDUnit, hufDInit, hufDStart, hempty, hparse, hmeta, hread, hne]

end

/-! ### The walk of the tree (R162) -/

/-- The bytes that a walk which stands at `node` reads from the bits that are left, if they do not end inside a
code. -/
def treeWalk (root : HuffNode) : HuffNode → List Bool → Option (List Byte)
  | node, [] => if node = root then some [] else none
  | node, bit :: bits =>
    match node.child bit with
    | .leaf sym _ _ => (treeWalk root root bits).map (sym :: ·)
    | n => treeWalk root n bits

/-- Not a leaf. -/
def HuffNode.Inner (n : HuffNode) : Prop := ∀ sym f q, n ≠ .leaf sym f q

theorem HuffNode.leaf_or_inner (n : HuffNode) : (∃ sym f q, n = .leaf sym f q) ∨ n.Inner := by
  cases n with
  | leaf sym f q => exact .inl ⟨sym, f, q, rfl⟩
  | internal f l r q => exact .inr fun _ _ _ => HuffNode.noConfusion
  | synthetic => exact .inr fun _ _ _ => HuffNode.noConfusion

section

variable {root node : HuffNode} {bit : Bool} {bits : List Bool}

theorem treeWalk_leaf {sym : Byte} {f : BitVec 40} {q : BitVec 10} (h : node.child bit = .leaf sym f q) :
    treeWalk root node (bit :: bits) = (treeWalk root root bits).map (sym :: ·) := by
  simp only [treeWalk, h]

theorem treeWalk_inner (h : (node.child bit).Inner) :
    treeWalk root node (bit :: bits) = treeWalk root (node.child bit) bits := by
  rw [treeWalk]
  split
  · next heq => exact absurd heq (h _ _ _)
  · rfl

end

/-- What HUF.D answers where its walk of the tree ends like this. -/
def walkAnswer (st : Storage) : Option (List Byte) → Except ErrorKind Output
  | some xs => .ok ⟨.bytes (st.out ++ xs), st.huf.padding, st.huf.alphabet.length⟩
  | none => .error .malformedPayload

section

variable {st : Storage} {bit : Bool} {bits : List Bool} (p : Params)

theorem hufDTurn_end (h2 : 2 ≤ st.huf.alphabet.length) (h : Reads st.huf.reader []) :
    hufDUnit.turn p st = if st.huf.node = st.huf.root then .finished else .failed .malformedPayload := by
  simp only [hufDUnit, hufDTurn, if_neg (Nat.not_le.mpr h2), h.brNext_nil]

/-- The walk has come to a leaf. -/
theorem hufDTurn_leaf {sym : Byte} {f : BitVec 40} {q : BitVec 10} (h2 : 2 ≤ st.huf.alphabet.length)
    (h : Reads st.huf.reader (bit :: bits)) (hchild : st.huf.node.child bit = .leaf sym f q) :
    hufDUnit.turn p st = .work { st with
      out := st.out ++ [sym]
      huf := { st.huf with
        reader := { st.huf.reader with bitpos := st.huf.reader.bitpos + 1 }, node := st.huf.root } } := by
  simp only [hufDUnit, hufDTurn, if_neg (Nat.not_le.mpr h2), h.brNext_cons.1, hchild]

/-- The walk goes down. -/
theorem hufDTurn_inner (h2 : 2 ≤ st.huf.alphabet.length) (h : Reads st.huf.reader (bit :: bits))
    (hchild : (st.huf.node.child bit).Inner) :
    hufDUnit.turn p st = .work { st with
      huf := { st.huf with
        reader := { st.huf.reader with bitpos := st.huf.reader.bitpos + 1 }, node := st.huf.node.child bit } } := by
  simp only [hufDUnit, hufDTurn, if_neg (Nat.not_le.mpr h2), h.brNext_cons.1]
  split
  · next heq => exact absurd heq (hchild _ _ _)
  · rfl

end

/-- HUF.D's run on two symbols or more is the walk of the tree. -/
theorem hufD_answer_walk (p : Params) {st : Storage} {bits : List Bool} {n : Nat}
    (h2 : 2 ≤ st.huf.alphabet.length) (hreads : Reads st.huf.reader bits) (hn : bits.length < n) :
    hufDUnit.answer (drain hufDUnit p n st) = walkAnswer st (treeWalk st.huf.root st.huf.node bits) := by
  induction bits generalizing st n with
  | nil =>
    obtain ⟨m, rfl⟩ := Nat.exists_eq_add_one.mpr hn
    have hturn := hufDTurn_end p h2 hreads
    by_cases hroot : st.huf.node = st.huf.root
    · rw [if_pos hroot] at hturn
      have hmany : hufDOutput st = ⟨.bytes st.out, st.huf.padding, st.huf.alphabet.length⟩ := by
        unfold hufDOutput
        split
        · next heq => simp [heq] at h2
        · rfl
      rw [drain_finished _ hturn, treeWalk, if_pos hroot, walkAnswer, List.append_nil, ← hmany]
      rfl
    · rw [if_neg hroot] at hturn
      rw [drain_failed m hturn, treeWalk, if_neg hroot]
      rfl
  | cons bit bits ih =>
    obtain ⟨m, rfl⟩ := Nat.exists_eq_add_one.mpr (Nat.zero_lt_of_lt hn)
    have hmore := hreads.brNext_cons.2
    have hm : bits.length < m := Nat.lt_of_succ_lt_succ hn
    rcases (st.huf.node.child bit).leaf_or_inner with ⟨sym, f, q, hchild⟩ | hchild
    · rw [drain_work m (hufDTurn_leaf p h2 hreads hchild), treeWalk_leaf hchild, ih (by exact h2) hmore hm]
      cases treeWalk st.huf.root st.huf.root bits with
      | none => rfl
      | some xs => simp [walkAnswer]
    · rw [drain_work m (hufDTurn_inner p h2 hreads hchild), treeWalk_inner hchild, ih (by exact h2) hmore hm]
      cases treeWalk st.huf.root (st.huf.node.child bit) bits <;> rfl

/-! ### The walk and the codes -/

section

variable {root node : HuffNode} {a : Byte} {bit : Bool} {c bits : List Bool}

/-- A code of no bits is a leaf's. -/
theorem eq_leaf_of_code_nil (h : (a, []) ∈ codeTable node) : ∃ f q, node = .leaf a f q := by
  cases node with
  | leaf sym f q =>
    cases List.mem_singleton.mp h
    exact ⟨f, q, rfl⟩
  | internal f l r q =>
    obtain ⟨_, _, hcons, -⟩ := mem_codeTable_internal.mp h
    cases hcons
  | synthetic => cases h

/-- A code's first bit chooses the child that has the rest of it. -/
theorem code_child (h : (a, bit :: c) ∈ codeTable node) : (a, c) ∈ codeTable (node.child bit) := by
  cases node with
  | leaf sym f q => cases List.mem_singleton.mp h
  | internal f l r q =>
    obtain ⟨_, _, hcons, hc⟩ := mem_codeTable_internal.mp h
    cases hcons
    exact hc
  | synthetic => cases h

theorem inner_of_code_ne_nil (h : (a, c) ∈ codeTable node) (hne : c ≠ []) : node.Inner := by
  rintro sym f q rfl
  cases List.mem_singleton.mp h
  exact hne rfl

/-- The walk reads a code as its byte and goes on from the root. -/
theorem treeWalk_code (h : (a, c) ∈ codeTable node) (hne : c ≠ []) :
    treeWalk root node (c ++ bits) = (treeWalk root root bits).map (a :: ·) := by
  induction c generalizing node with
  | nil => exact absurd rfl hne
  | cons bit c ih =>
    have hchild := code_child h
    rw [List.cons_append]
    by_cases hc : c = []
    · subst hc
      obtain ⟨f, q, hleaf⟩ := eq_leaf_of_code_nil hchild
      exact treeWalk_leaf hleaf
    · rw [treeWalk_inner (inner_of_code_ne_nil hchild hc), ih hchild hc]

end

section

variable {root node : HuffNode} {bits : List Bool} {xs : List Byte}

/-- A walk that ends well stands at the root with no bit left, or reads a code first. -/
theorem code_of_treeWalk (hfull : node.Full) (hinner : node.Inner) (hsize : sizeOf node ≤ sizeOf root)
    (h : treeWalk root node bits = some xs) :
    (bits = [] ∧ xs = [] ∧ node = root)
      ∨ ∃ a c rest ys, (a, c) ∈ codeTable node ∧ bits = c ++ rest ∧ xs = a :: ys
          ∧ treeWalk root root rest = some ys := by
  induction bits generalizing node with
  | nil =>
    rw [treeWalk] at h
    split at h <;> cases h
    next hroot => exact .inl ⟨rfl, rfl, hroot⟩
  | cons bit bits ih =>
    cases node with
    | leaf sym f q => exact absurd rfl (hinner sym f q)
    | synthetic => cases hfull
    | internal f l r q =>
      have hfull' : ((HuffNode.internal f l r q).child bit).Full := by
        cases bit
        · exact hfull.1
        · exact hfull.2
      have hless : sizeOf ((HuffNode.internal f l r q).child bit) < sizeOf root := by
        refine Nat.lt_of_lt_of_le ?_ hsize
        cases bit <;> simp [HuffNode.child] <;> omega
      right
      rcases ((HuffNode.internal f l r q).child bit).leaf_or_inner with ⟨sym, g, k, hchild⟩ | hchild
      · rw [treeWalk_leaf hchild] at h
        obtain ⟨ys, hys, rfl⟩ := Option.map_eq_some_iff.mp h
        refine ⟨sym, [bit], bits, ys, mem_codeTable_internal.mpr ⟨bit, [], rfl, ?_⟩, rfl, rfl, hys⟩
        rw [hchild]
        exact List.mem_singleton_self _
      · rw [treeWalk_inner hchild] at h
        rcases ih hfull' hchild hless.le h with ⟨-, -, hroot⟩ | ⟨a, c, rest, ys, hc, rfl, rfl, hys⟩
        · rw [hroot] at hless
          exact absurd hless (Nat.lt_irrefl _)
        · exact ⟨a, bit :: c, rest, ys, mem_codeTable_internal.mpr ⟨bit, c, rfl, hc⟩, rfl, rfl, hys⟩

end

/-- The walk reads exactly the sequences of codes. -/
theorem treeWalk_eq_some_iff {root : HuffNode} {bits : List Bool} {xs : List Byte} (hfull : root.Full)
    (h2 : 2 ≤ root.symbols.length) (hnd : root.symbols.Nodup) :
    treeWalk root root bits = some xs
      ↔ (∀ x ∈ xs, x ∈ root.symbols) ∧ bits = xs.flatMap (codeOf (codeTable root)) := by
  have hinner : root.Inner := by
    rintro sym f q rfl
    exact absurd h2 (by simp)
  induction xs generalizing bits with
  | nil =>
    constructor
    · intro h
      rcases code_of_treeWalk hfull hinner (Nat.le_refl _) h with ⟨rfl, -, -⟩ | ⟨_, _, _, _, -, -, hcons, -⟩
      · exact ⟨List.forall_mem_nil _, rfl⟩
      · cases hcons
    · rintro ⟨-, rfl⟩
      exact if_pos rfl
  | cons a ys ih =>
    rw [List.forall_mem_cons, List.flatMap_cons]
    constructor
    · intro h
      rcases code_of_treeWalk hfull hinner (Nat.le_refl _) h with ⟨-, hnil, -⟩ | ⟨a, c, rest, ys, hc, rfl, hcons, hys⟩
      · cases hnil
      · cases hcons
        obtain ⟨hsyms, rfl⟩ := ih.mp hys
        exact ⟨⟨List.mem_map_of_mem hc, hsyms⟩, by rw [codeOf_eq_of_mem hnd hc]⟩
    · rintro ⟨⟨ha, hsyms⟩, rfl⟩
      obtain ⟨⟨a, c⟩, hc, rfl⟩ := List.mem_map.mp ha
      have hne : c ≠ [] := List.ne_nil_of_length_pos (code_length_pos h2 hc)
      rw [codeOf_eq_of_mem hnd hc, treeWalk_code hc hne, ih.mpr ⟨hsyms, rfl⟩]
      rfl

theorem treeWalk_buildTree_eq_some_iff {list : List (Byte × Word)} {bits : List Bool} {xs : List Byte}
    (h2 : 2 ≤ list.length) (hlegal : rowsLegal list = true) :
    treeWalk (buildTree list) (buildTree list) bits = some xs
      ↔ (∀ x ∈ xs, x ∈ list.map Prod.fst) ∧ bits = xs.flatMap (codeOf (codeTable (buildTree list))) := by
  obtain ⟨hfull, hperm⟩ := buildTree_full_symbols h2
  rw [treeWalk_eq_some_iff hfull (by rwa [hperm.length_eq, List.length_map])
    (hperm.nodup_iff.mpr (rowsLegal_nodup hlegal))]
  simp only [hperm.mem_iff]

/-! ### HUF.D on two symbols or more -/

section

variable {list : List (Byte × Word)} {padding : Nat} (p : Params) (payload : List Byte)

theorem length_metaEncode_lt (padding : Nat) (hlegal : rowsLegal list = true) :
    (metaEncode padding list).length < 2 ^ 32 := by
  have hmax := rowsLegal_length_le hlegal
  rw [metaEncode_length]
  omega

/-- HUF.D's codec function on the container of two symbols or more is the walk of the payload's bits. -/
theorem hufD_codec_many (hpad : padding ≤ 7) (h2 : 2 ≤ list.length) (hlegal : rowsLegal list = true)
    (hfit : padding ≤ 8 * payload.length) :
    hufDUnit.codec p (srcOnly (serialize (metaEncode padding list) payload))
      = match treeWalk (buildTree list) (buildTree list) (payloadBits payload padding) with
        | some xs => .ok ⟨.bytes xs, padding, list.length⟩
        | none => .error .malformedPayload := by
  have hne : list ≠ [] := List.ne_nil_of_length_pos (by omega)
  have hinit := hufD_init_many p (serialize_ne_nil _ _)
    (parse_serialize payload (length_metaEncode_lt padding hlegal)) (metaDecode_metaEncode hpad hne hlegal) h2
    (brInit_ok hfit)
  have hreads := reads_start payload padding
  rw [← payloadBits_eq] at hreads
  have hlen : (payloadBits payload padding).length = 8 * payload.length - padding := by
    rw [payloadBits_eq, List.length_take, length_bitsOf, Nat.min_eq_left (Nat.sub_le _ _)]
  rw [CodecUnit.codec, hinit]
  simp only
  rw [hufD_answer_walk p h2 hreads (by rw [hlen]; exact Nat.lt_succ_self _)]
  rfl

/-- With two symbols or more, payload bits that are the codes of some bytes decode to these. -/
theorem hufD_codec_codes (hpad : padding ≤ 7) (h2 : 2 ≤ list.length) (hlegal : rowsLegal list = true)
    (hfit : padding ≤ 8 * payload.length) {xs : List Byte} (hxs : ∀ x ∈ xs, x ∈ list.map Prod.fst)
    (hbits : payloadBits payload padding = xs.flatMap (codeOf (codeTable (buildTree list)))) :
    hufDUnit.codec p (srcOnly (serialize (metaEncode padding list) payload))
      = .ok ⟨.bytes xs, padding, list.length⟩ := by
  rw [hufD_codec_many p payload hpad h2 hlegal hfit, (treeWalk_buildTree_eq_some_iff h2 hlegal).mpr ⟨hxs, hbits⟩]

/-- With two symbols or more, any other payload bits are malformed. -/
theorem hufD_codec_no_codes (hpad : padding ≤ 7) (h2 : 2 ≤ list.length) (hlegal : rowsLegal list = true)
    (hfit : padding ≤ 8 * payload.length)
    (hnone : ¬ ∃ xs : List Byte, (∀ x ∈ xs, x ∈ list.map Prod.fst)
      ∧ payloadBits payload padding = xs.flatMap (codeOf (codeTable (buildTree list)))) :
    hufDUnit.codec p (srcOnly (serialize (metaEncode padding list) payload)) = .error .malformedPayload := by
  rw [hufD_codec_many p payload hpad h2 hlegal hfit]
  cases hwalk : treeWalk (buildTree list) (buildTree list) (payloadBits payload padding) with
  | none => rfl
  | some xs => exact absurd ⟨xs, (treeWalk_buildTree_eq_some_iff h2 hlegal).mp hwalk⟩ hnone

theorem hufD_codec_padding (hpad : padding ≤ 7) (h2 : 2 ≤ list.length) (hlegal : rowsLegal list = true)
    (hlong : 8 * payload.length < padding) :
    hufDUnit.codec p (srcOnly (serialize (metaEncode padding list) payload)) = .error .malformedPayload :=
  hufD_codec_brInit_error p (serialize_ne_nil _ _)
    (parse_serialize payload (length_metaEncode_lt padding hlegal))
    (metaDecode_metaEncode hpad (List.ne_nil_of_length_pos (by omega)) hlegal) h2 (brInit_malformed hlong)

end

/-- Settles O36: the metadata both ways (`metaDecode_metaEncode`, `metaDecode_ok`), HUF.D's start, and the walk of
the tree, which reads exactly the sequences of codes (`treeWalk_eq_some_iff`). -/
theorem metadataAndMalformedHuffmanInputs : Obligations.MetadataAndMalformedHuffmanInputs := by
  refine ⟨fun padding list hpad hne hlegal => ?_, fun blob => ?_, fun p c hc => ?_,
    fun p padding list payload hpad h2 hlegal => ?_⟩
  · exact ⟨metaEncode_length padding list, metaDecode_metaEncode hpad hne hlegal⟩
  · exact ⟨fun _ _ => metaDecode_ok, fun _ => metaDecode_error⟩
  · constructor
    · intro e he
      rw [hufD_codec_parse_error p hc he, parse_error he]
    · intro r e hr he
      rw [hufD_codec_meta_error p hc hr he, metaDecode_error he]
  · exact ⟨hufD_codec_padding p payload hpad h2 hlegal, fun hfit =>
      ⟨fun _ => hufD_codec_codes p payload hpad h2 hlegal hfit,
        hufD_codec_no_codes p payload hpad h2 hlegal hfit⟩⟩

end Sys2Proof.Machine
end

section
/-! SUPPORT. HUF.C (40_huffman.md R146, R156 to R158): the alphabet of an input, and the bits it packs. -/

namespace Sys2Proof.Machine

/-! ### The alphabet of an input (R146) -/

/-- A row before a legal alphabet, with a lower symbol and a count. -/
theorem rowsLegal_cons {r : Byte × Word} {rest : List (Byte × Word)} (hcount : r.2 ≠ 0)
    (hlt : ∀ s ∈ rest, r.1 < s.1) (h : rowsLegal rest = true) : rowsLegal (r :: rest) = true := by
  obtain ⟨sym, f⟩ := r
  cases rest with
  | nil => simpa [rowsLegal] using hcount
  | cons s rest =>
    have hs := hlt s (List.mem_cons_self ..)
    simp only [rowsLegal, Bool.and_eq_true, decide_eq_true_eq]
    exact ⟨⟨by simpa using hcount, hs⟩, h⟩

/-- The alphabet's rows are the counters that are not zero. -/
theorem mem_alphabetFrom {b : Byte} {f : Word} {v : Nat} {fs : List Word} :
    (b, f) ∈ alphabetFrom v fs ↔ f ≠ 0 ∧ ∃ k, fs[k]? = some f ∧ b = BitVec.ofNat 8 (v + k) := by
  induction fs generalizing v with
  | nil => simp [alphabetFrom]
  | cons g fs ih =>
    have hsplit : (∃ k, (g :: fs)[k]? = some f ∧ b = BitVec.ofNat 8 (v + k))
        ↔ (g = f ∧ b = BitVec.ofNat 8 v) ∨ ∃ k, fs[k]? = some f ∧ b = BitVec.ofNat 8 (v + 1 + k) := by
      rw [← Nat.or_exists_add_one]
      simp [Nat.add_assoc, Nat.add_comm 1]
    rw [alphabetFrom, hsplit]
    by_cases hg : g = 0
    · rw [if_pos hg, ih]
      refine and_congr_right fun hf => (or_iff_right ?_).symm
      rintro ⟨rfl, -⟩
      exact hf hg
    · rw [if_neg hg, List.mem_cons, ih, Prod.mk.injEq, and_or_left]
      refine or_congr ?_ Iff.rfl
      constructor
      · rintro ⟨rfl, rfl⟩
        exact ⟨hg, rfl, rfl⟩
      · rintro ⟨-, rfl, rfl⟩
        exact ⟨rfl, rfl⟩

theorem rowsLegal_alphabetFrom {v : Nat} {fs : List Word} (h : v + fs.length ≤ 256) :
    rowsLegal (alphabetFrom v fs) = true := by
  induction fs generalizing v with
  | nil => rfl
  | cons g fs ih =>
    rw [List.length_cons] at h
    have hrest := ih (v := v + 1) (by omega)
    rw [alphabetFrom]
    by_cases hg : g = 0
    · rwa [if_pos hg]
    · rw [if_neg hg]
      refine rowsLegal_cons hg ?_ hrest
      rintro ⟨b, f⟩ hs
      obtain ⟨-, k, hk, rfl⟩ := mem_alphabetFrom.mp hs
      obtain ⟨hlt, -⟩ := List.getElem?_eq_some_iff.mp hk
      rw [BitVec.lt_def, BitVec.toNat_ofNat, BitVec.toNat_ofNat]
      omega

theorem getElem?_freqTable {x : List Byte} {k : Nat} (h : k < 256) :
    (freqTable x)[k]? = some (BitVec.ofNat 32 (x.count (BitVec.ofNat 8 k))) := by
  rw [freqTable, List.getElem?_map, List.getElem?_range h]
  rfl

/-- The alphabet of an input (R146). -/
def alphabetOf (x : List Byte) : List (Byte × Word) := alphabetFrom 0 (freqTable x)

theorem rowsLegal_alphabetOf (x : List Byte) : rowsLegal (alphabetOf x) = true :=
  rowsLegal_alphabetFrom (by simp [freqTable])

/-- Each row has the number of times that its symbol occurs. -/
theorem count_of_mem_alphabetOf {x : List Byte} {b : Byte} {f : Word} (h : (b, f) ∈ alphabetOf x) :
    f = BitVec.ofNat 32 (x.count b) := by
  obtain ⟨-, k, hk, rfl⟩ := mem_alphabetFrom.mp h
  obtain ⟨hlt, -⟩ := List.getElem?_eq_some_iff.mp hk
  rw [getElem?_freqTable (by simpa [freqTable] using hlt)] at hk
  rw [Nat.zero_add]
  exact (Option.some.inj hk).symm

section

variable {x : List Byte} (h32 : x.length < 2 ^ 32)

include h32

theorem toNat_count (b : Byte) : (BitVec.ofNat 32 (x.count b)).toNat = x.count b := by
  have hle := x.count_le_length (a := b)
  rw [BitVec.toNat_ofNat, Nat.mod_eq_of_lt (by omega)]

/-- No count wraps, so the symbols are the byte values that occur. -/
theorem mem_symbols_alphabetOf (b : Byte) : b ∈ (alphabetOf x).map Prod.fst ↔ b ∈ x := by
  have hcount := toNat_count h32 b
  rw [← List.count_pos_iff (l := x), ← hcount]
  constructor
  · intro hmem
    obtain ⟨⟨b, f⟩, hrow, rfl⟩ := List.mem_map.mp hmem
    have hne := (mem_alphabetFrom.mp hrow).1
    rw [count_of_mem_alphabetOf hrow] at hne
    exact Nat.pos_of_ne_zero fun hzero => hne (BitVec.eq_of_toNat_eq hzero)
  · intro hpos
    refine List.mem_map.mpr ⟨(b, _), mem_alphabetFrom.mpr ⟨?_, b.toNat, getElem?_freqTable b.isLt, ?_⟩, rfl⟩
    · rw [BitVec.ofNat_toNat, BitVec.setWidth_eq]
      exact fun hzero => absurd hpos (by rw [hzero]; decide)
    · rw [Nat.zero_add, BitVec.ofNat_toNat, BitVec.setWidth_eq]

theorem length_alphabetOf : (alphabetOf x).length = x.dedup.length := by
  have hperm : ((alphabetOf x).map Prod.fst).Perm x.dedup :=
    (List.perm_ext_iff_of_nodup (rowsLegal_nodup (rowsLegal_alphabetOf x)) x.nodup_dedup).mpr fun b => by
      rw [mem_symbols_alphabetOf h32, List.mem_dedup]
  rw [← hperm.length_eq, List.length_map]

theorem alphabetOf_ne_nil (hx : x ≠ []) : alphabetOf x ≠ [] := by
  intro hnil
  have hmem := (mem_symbols_alphabetOf h32 (x.head hx)).mpr (List.head_mem hx)
  rw [hnil] at hmem
  cases hmem

/-- An input with one symbol is that symbol, as often as its count says. -/
theorem eq_replicate_of_alphabetOf {a : Byte} {f : Word} (h : alphabetOf x = [(a, f)]) :
    x = List.replicate f.toNat a := by
  have hall : ∀ b ∈ x, b = a := fun b hb => by
    simpa [h] using (mem_symbols_alphabetOf h32 b).mpr hb
  have hf := count_of_mem_alphabetOf (h ▸ List.mem_singleton_self (a, f) : (a, f) ∈ alphabetOf x)
  have hrep := List.eq_replicate_length.mpr hall
  have hcount : x.count a = x.length := by
    rw [hrep, List.count_replicate_self, List.length_replicate]
  rwa [hf, toNat_count h32, hcount]

end

/-! ### The bits of HUF.C (R156) -/

/-- The bits that HUF.C packs. -/
def codedBits (x : List Byte) : List Bool := x.flatMap (codeOf (codeTable (buildTree (alphabetOf x))))

/-- HUF.C packs the codes of the bytes that are left. -/
theorem hufC_run (p : Params) {st : Storage} {n : Nat} (hn : unread st < n) :
    ∃ st', drain hufCUnit p n st = (.ok (), st') ∧ st'.input = st.input ∧ st'.huf.alphabet = st.huf.alphabet
      ∧ st'.huf.packer = bpWrite st.huf.packer ((st.input.drop st.ip).flatMap (codeOf st.huf.code)) := by
  induction n generalizing st with
  | zero => exact absurd hn (Nat.not_lt_zero _)
  | succ n ih =>
    rcases Nat.lt_or_ge st.ip st.input.length with hlt | hge
    · have hbyte := List.getElem?_eq_getElem hlt
      have hturn : hufCUnit.turn p st = .work { st with
          ip := st.ip + 1
          huf := { st.huf with packer := bpWrite st.huf.packer (codeOf st.huf.code st.input[st.ip]) } } := by
        simp only [hufCUnit, hufCTurn, hbyte]
      have hless := hufCUnit_usesUp.work p st _ hturn
      obtain ⟨st', hrun, hin, halphabet, hpacker⟩ :=
        ih (Nat.lt_of_lt_of_le hless (Nat.le_of_lt_succ hn))
      refine ⟨st', (drain_work n hturn).trans hrun, hin, halphabet, ?_⟩
      rw [hpacker, List.drop_eq_getElem_cons hlt, List.flatMap_cons, bpWrite_append]
    · have hturn : hufCUnit.turn p st = .finished := by
        simp only [hufCUnit, hufCTurn, List.getElem?_eq_none hge]
      refine ⟨st, drain_finished _ hturn, rfl, rfl, ?_⟩
      rw [List.drop_of_length_le hge]
      rfl

/-- HUF.C's storage before the first byte, on an input that is not empty. -/
theorem hufC_init (p : Params) {x : List Byte} (hx : x ≠ []) :
    ∃ st, hufCUnit.init p (srcOnly x) .blank = .ok st ∧ st.input = x ∧ st.ip = 0 ∧ st.huf.packer = bpInit
      ∧ st.huf.alphabet = alphabetOf x ∧ st.huf.code = codeTable (buildTree (alphabetOf x)) := by
  have hempty : (srcOnly x).srcBytes.isEmpty = false := List.isEmpty_eq_false_iff.mpr hx
  refine ⟨_, rfl, rfl, rfl, ?_⟩
  rw [if_neg (by simp [hempty])]
  exact ⟨rfl, rfl, rfl⟩

/-- HUF.C's codec function on an input that is not empty (R158). -/
theorem hufC_codec (p : Params) {x : List Byte} (hx : x ≠ []) :
    hufCUnit.codec p (srcOnly x) = .ok
      ⟨.bytes (serialize (metaEncode (bpPadding (bpWrite bpInit (codedBits x))) (alphabetOf x))
          (bpFlushed (bpWrite bpInit (codedBits x)))),
        bpPadding (bpWrite bpInit (codedBits x)), (alphabetOf x).length⟩ := by
  obtain ⟨st, hinit, hin, hip, hpacker, halphabet, hcode⟩ := hufC_init p hx
  obtain ⟨st', hrun, hin', halphabet', hpacker'⟩ := hufC_run p (hufCUnit_usesUp.fuel st)
  rw [hpacker, hcode, hin, hip, List.drop_zero] at hpacker'
  have hempty : ¬ st'.input.isEmpty = true := by simpa [hin', hin] using hx
  rw [codec_eq_of_drain hinit hrun]
  exact congrArg Except.ok ((if_neg hempty).trans (by rw [hpacker', halphabet', halphabet]; rfl))

/-- Settles O38: the symbols by `length_alphabetOf`, the padding and the bytes by what the packer holds. -/
theorem hufCReportsLengthPaddingAndK : Obligations.HufCReportsLengthPaddingAndK := by
  intro p x hx h32
  have hpacked := packed_bpWrite (codedBits x)
  have hpad := hpacked.bpPadding_eq
  have hbytes := hpacked.eight_mul_length_bpFlushed
  have hbits : (codedBits x).length = (x.map fun b => (codeOf (codeTable (buildTree (alphabetOf x))) b).length).sum :=
    List.length_flatMap
  rw [hbits] at hpad hbytes
  refine ⟨_, _, hufC_codec p hx, rfl, length_alphabetOf h32, hpad, ?_⟩
  simp only [OutSeq.length, length_serialize, metaEncode_length]
  rw [← alphabetOf]
  omega

/-! ### The empty input -/

/-- Settles O39: no unit has any work on an empty input. -/
theorem emptyInputGivesEmptyOutput : Obligations.EmptyInputGivesEmptyOutput := by
  intro p u hu
  simp only [List.mem_cons, List.not_mem_nil, or_false] at hu
  rcases hu with rfl | rfl | rfl | rfl | rfl | rfl | rfl | rfl
  all_goals exact ⟨_, rfl, rfl, rfl, rfl⟩

/-! ### The round trip (R163) -/

/-- Settles O29: one symbol is repeated (`singleSymbolRepeats`); with more, HUF.D reads the packed bits back
(`Packed.payloadBits_bpFlushed`) as the codes that HUF.C wrote (`hufD_codec_codes`). -/
theorem huffmanRoundTrip : Obligations.HuffmanRoundTrip := by
  intro p x h32
  by_cases hx : x = []
  · subst hx
    exact ⟨_, _, rfl, rfl, rfl, rfl, rfl⟩
  · have hpacked := packed_bpWrite (codedBits x)
    have hpad : bpPadding (bpWrite bpInit (codedBits x)) ≤ 7 := by
      have hmod := hpacked.bpPadding_eq
      omega
    have hlegal := rowsLegal_alphabetOf x
    rcases alphabet_cases (alphabetOf_ne_nil h32 hx) with ⟨a, f, hone⟩ | h2
    · have hx' := eq_replicate_of_alphabetOf h32 hone
      have hf : f ≠ 0 := (mem_alphabetFrom.mp (hone ▸ List.mem_singleton_self (a, f) : (a, f) ∈ alphabetOf x)).1
      obtain ⟨o, ho, hout, hres0, hres1⟩ :=
        singleSymbolRepeats p a f _ (bpFlushed (bpWrite bpInit (codedBits x))) hf hpad
      rw [← hone] at ho
      exact ⟨_, o, hufC_codec p hx, ho, hout.trans hx'.symm, hres0, hres1.trans (congrArg List.length hone).symm⟩
    · have hfit := hpacked.eight_mul_length_bpFlushed
      exact ⟨_, _, hufC_codec p hx,
        hufD_codec_codes p _ hpad h2 hlegal (by omega) (fun b hb => (mem_symbols_alphabetOf h32 b).mpr hb)
          hpacked.payloadBits_bpFlushed, rfl, rfl, rfl⟩

end Sys2Proof.Machine
end
